-- ==== Sys2Proof/Word.lean ====
section
/-! DEFINITION. The plain types of the block's values: bytes, line levels, handles (spec/00_scope.md R9, R11). -/

namespace Sys2Proof

/-- A data or address byte (R7: the byte width is 8, fixed). -/
abbrev Byte := BitVec 8

/-- A line level, latch value or sampled SDA value (R11): `false` is 0 (low), `true` is 1 (high). -/
abbrev Level := Bool

/-- The capability-set handle CAP, "an opaque handle" (R23): only its identity matters. -/
abbrev CapHandle := Nat

end Sys2Proof
end

