-- ==== Sys2Proof/Config.lean ====
section
/-! DEFINITION. The implementation parameters of spec/00_scope.md R7 and the free value of the bus environment. -/

namespace Sys2Proof

/-- The parameters R7 calls OPEN, and the mutex parameter of spec/93_implementation_defined.md I-6.
They are fixed for a block instance (R204); the machine holds them in its state, so that every statement is about
every choice of them. -/
structure Params where
  /-- US_WIDTH: width in bits of the stored delay unit. -/
  usWidth : Nat
  /-- ADDR_WIDTH: width in bits of a descriptor's address field. -/
  addrWidth : Nat
  /-- FLAGS_WIDTH: width in bits of a descriptor's flags field. -/
  flagsWidth : Nat
  /-- LEN_WIDTH: width in bits of a descriptor's length field. -/
  lenWidth : Nat
  /-- COUNT_WIDTH: width in bits of a message count. -/
  countWidth : Nat
  /-- FLAG_READ, FLAG_ADDR_10BIT, FLAG_NO_START, FLAG_IGNORE_NACK, FLAG_NO_READ_ACK: the flag values (R34). -/
  flagRead : Nat
  flagAddr10 : Nat
  flagNoStart : Nat
  flagIgnoreNack : Nat
  flagNoReadAck : Nat
  /-- DIR_SWITCH_EFFECTIVE: whether the platform's SDA direction switch changes the pin (R42). -/
  dirSwitchEffective : Bool
  /-- Whether LOCK_ACQUIRE waits for another holder of the mutex; `false` is the no-op mutex (R190, I-6). -/
  mutexBlocks : Bool
deriving DecidableEq, Repr

/-- The defaults of R7. DESIGN CHOICE (log entry 5): R7 gives no default for the last two. -/
def Params.default : Params where
  usWidth := 32
  addrWidth := 16
  flagsWidth := 16
  lenWidth := 16
  countWidth := 32
  flagRead := 0x0001
  flagAddr10 := 0x0004
  flagNoStart := 0x0010
  flagIgnoreNack := 0x0020
  flagNoReadAck := 0x0040
  dirSwitchEffective := false
  mutexBlocks := true

/-- The five flag values, in the order of R34. -/
def Params.flags (p : Params) : List Nat :=
  [p.flagRead, p.flagAddr10, p.flagNoStart, p.flagIgnoreNack, p.flagNoReadAck]

/-- Every named flag set: the bits a flags field may have (R34). -/
def Params.allFlags (p : Params) : Nat :=
  p.flagRead ||| p.flagAddr10 ||| p.flagNoStart ||| p.flagIgnoreNack ||| p.flagNoReadAck

/-- A power of two below `2^width` (R8). -/
def isFlagValue (width v : Nat) : Bool :=
  (List.range width).any fun k => v == 2 ^ k

/-- The limits R7 and R8 put on the parameters. DEDUCED (log entry 22): COUNT_WIDTH is at least 2, since the
two-message wrappers call TRANSFER with a count of 2. -/
def Params.wf (p : Params) : Bool :=
  decide (10 ≤ p.addrWidth) && decide (7 ≤ p.flagsWidth) && decide (2 ≤ p.countWidth) &&
    p.flags.all (isFlagValue p.flagsWidth) && decide p.flags.Nodup

/-- The free value of R31: what the bus environment answers to the `n`-th GET_SDA whose answer no test or slave model
has fixed. It has no body, so a claim about it holds for every answer (log entry 6). -/
opaque Config.freeSda : Nat → Level

end Sys2Proof
end

