-- ==== Sys2Proof/Syntax.lean ====
section
/-! DEFINITION. The operations, their operands, the command word with its operand record, and the names of the reasons
for a refusal (spec/10_state.md R33, spec/30_encoding.md R76 to R84, spec/60_exceptions.md R179). -/

namespace Sys2Proof

/-- A buffer reference that is not null: the address of cell 0 and how many bytes it refers to (R33, R38, R45).
DESIGN CHOICE (log entry 1): cell `b + k` is the address `base + k` of one flat space. -/
structure BufRef where
  base : Nat
  size : Nat
deriving DecidableEq, Repr

/-- A message descriptor (R33). `none` is the null buffer reference. -/
structure Msg where
  addr : Nat
  flags : Nat
  len : Nat
  buf : Option BufRef
deriving DecidableEq, Repr

/-- The 17 operations of the opcode map (R84), one constructor per row of spec/opcode_table.json. The message count N
of a list is its length (log entry 17). -/
inductive Instr where
  | start
  | restart
  | stop
  | waitAck
  | writeByte (byte : Byte)
  | readByte
  | sendAckOrNack (ack : Bool)
  | sendAddr (byte : Byte) (rlim : BitVec 1)
  | addrPhase (m : Msg)
  | sendBytes (m : Msg)
  | recvBytes (m : Msg)
  | xfer (ms : List Msg)
  | transfer (cap : CapHandle) (ms : List Msg)
  | send (cap : CapHandle) (addr flags : Nat) (buf : Option BufRef) (len : Nat)
  | recv (cap : CapHandle) (addr flags : Nat) (buf : Option BufRef) (len : Nat)
  | sendThenRecv (cap : CapHandle) (addr : Nat) (tx : Option BufRef) (txlen : Nat) (rx : Option BufRef) (rxlen : Nat)
  | sendThenSend (cap : CapHandle) (addr : Nat) (tx1 : Option BufRef) (len1 : Nat) (tx2 : Option BufRef) (len2 : Nat)
deriving DecidableEq, Repr

/-- The operation an OP field names (R84), without operands. -/
inductive Op where
  | start | restart | stop | waitAck | writeByte | readByte | sendAckOrNack | sendAddr | addrPhase | sendBytes
  | recvBytes | xfer | transfer | send | recv | sendThenRecv | sendThenSend
deriving DecidableEq, Repr

/-- The operation of an instruction. -/
def Instr.op : Instr → Op
  | .start => .start
  | .restart => .restart
  | .stop => .stop
  | .waitAck => .waitAck
  | .writeByte _ => .writeByte
  | .readByte => .readByte
  | .sendAckOrNack _ => .sendAckOrNack
  | .sendAddr _ _ => .sendAddr
  | .addrPhase _ => .addrPhase
  | .sendBytes _ => .sendBytes
  | .recvBytes _ => .recvBytes
  | .xfer _ => .xfer
  | .transfer _ _ => .transfer
  | .send _ _ _ _ _ => .send
  | .recv _ _ _ _ _ => .recv
  | .sendThenRecv _ _ _ _ _ _ => .sendThenRecv
  | .sendThenSend _ _ _ _ _ _ => .sendThenSend

/-- The operand record that travels beside the command word (R77, R80); `none` is no record. -/
inductive Record where
  | none
  | msg (m : Msg)
  | list (ms : List Msg)
  | xfer (cap : CapHandle) (ms : List Msg)
  | single (cap : CapHandle) (addr flags : Nat) (buf : Option BufRef) (len : Nat)
  | wrRd (cap : CapHandle) (addr : Nat) (tx : Option BufRef) (txlen : Nat) (rx : Option BufRef) (rxlen : Nat)
  | wrWr (cap : CapHandle) (addr : Nat) (tx1 : Option BufRef) (len1 : Nat) (tx2 : Option BufRef) (len2 : Nat)
deriving DecidableEq, Repr

/-- What the descriptor port delivers for one operation: the 16-bit command word (R79) and its record (R80). -/
structure Command where
  word : BitVec 16
  record : Record
deriving DecidableEq, Repr

/-- Why an operation is refused (R179). -/
inductive Reason where
  /-- RSV_NONZERO: command bits 7:6 are not `00` (R85). -/
  | rsvNonzero
  /-- ILLEGAL_OP: OP is 0x00 or at least 0x12 (R85). -/
  | illegalOp
  /-- IMM_NONZERO: IMM8 is not 0 for an operation that does not use it (R85). -/
  | immNonzero
  /-- B_NONZERO: B is not 0 for an operation that does not use it (R85). -/
  | bNonzero
  /-- BAD_OPERANDS: the operand record is missing or of the wrong kind (R80, R85). -/
  | badOperands
  /-- A record value outside its range, which "spells nothing, and the decoder refuses it" (R78). DESIGN CHOICE (log
  entry 12): R179 has no name for it. -/
  | operandRange
  /-- BUS_STATE: the operation needs the other bus state (R99 to R101, R106, R121, R125, R141, R143, R145). -/
  | busState
  /-- BAD_FLAGS: a flags bit outside the five named flags (R38). -/
  | badFlags
  /-- BAD_ADDR7: 7-bit mode with ADDR above 0x7F (R38). -/
  | badAddr7
  /-- BAD_BUF: LEN above 0 with a null or too short buffer (R38). -/
  | badBuf
  /-- DIR_MISMATCH: SEND_BYTES given a READ descriptor, or RECV_BYTES a WRITE one (R143, R145). -/
  | dirMismatch
  /-- BAD_US: US above `2^US_WIDTH - 2` at configuration (R96). -/
  | badUs
  /-- A block instance asked for before the platform has done its boot duties. DESIGN CHOICE (log entry 24): R203 says
  only that "until all six steps are done, no rule of this spec holds", and R179 has no name for it. -/
  | bootIncomplete
deriving DecidableEq, Repr

end Sys2Proof
end

