-- ==== Sys2Proof/WellFormed.lean ====
section
/-! DEFINITION. Which instructions can be written in a command: the operand ranges of spec/30_encoding.md R78.
The checks of a descriptor (spec/10_state.md R38) are not here: an operation makes them when it runs. -/

namespace Sys2Proof

/-- `addr` is a natural below `2^ADDR_WIDTH` (R78). -/
def addrInRange (p : Params) (a : Nat) : Bool := decide (a < 2 ^ p.addrWidth)

/-- `flags` is a natural below `2^FLAGS_WIDTH` (R78). -/
def flagsInRange (p : Params) (f : Nat) : Bool := decide (f < 2 ^ p.flagsWidth)

/-- `len`, `txlen`, `rxlen`, `len1` and `len2` are naturals below `2^LEN_WIDTH` (R78). -/
def lenInRange (p : Params) (n : Nat) : Bool := decide (n < 2 ^ p.lenWidth)

/-- The fields of a descriptor fit their widths (R33, R78). -/
def Msg.inRange (p : Params) (m : Msg) : Bool :=
  addrInRange p m.addr && flagsInRange p m.flags && lenInRange p m.len

/-- Every descriptor of a list fits, and `N` is below `2^COUNT_WIDTH` (R78). -/
def listInRange (p : Params) (ms : List Msg) : Bool :=
  decide (ms.length < 2 ^ p.countWidth) && ms.all (Msg.inRange p)

/-- The instruction's operands can be written in a command (R78). -/
def Instr.wf (p : Params) : Instr → Bool
  | .start => true
  | .restart => true
  | .stop => true
  | .waitAck => true
  | .writeByte _ => true
  | .readByte => true
  | .sendAckOrNack _ => true
  | .sendAddr _ _ => true
  | .addrPhase m => m.inRange p
  | .sendBytes m => m.inRange p
  | .recvBytes m => m.inRange p
  | .xfer ms => listInRange p ms
  | .transfer _ ms => listInRange p ms
  | .send _ addr flags _ len => addrInRange p addr && flagsInRange p flags && lenInRange p len
  | .recv _ addr flags _ len => addrInRange p addr && flagsInRange p flags && lenInRange p len
  | .sendThenRecv _ addr _ txlen _ rxlen => addrInRange p addr && lenInRange p txlen && lenInRange p rxlen
  | .sendThenSend _ addr _ len1 _ len2 => addrInRange p addr && lenInRange p len1 && lenInRange p len2

end Sys2Proof
end

