-- ==== Sys2Proof/Decode.lean ====
section
/-! DEFINITION. The decoder of a command, total on every word and record, rejecting by name, and the encoder
(spec/30_encoding.md R77 to R86). -/

namespace Sys2Proof

/-- The fields of the command word (R79). -/
def cmdOp (w : BitVec 16) : BitVec 5 := w.extractLsb' 0 5
def cmdB (w : BitVec 16) : BitVec 1 := w.extractLsb' 5 1
def cmdRsv (w : BitVec 16) : BitVec 2 := w.extractLsb' 6 2
def cmdImm (w : BitVec 16) : BitVec 8 := w.extractLsb' 8 8

/-- The word with RSV zero and the three other fields as given (R79). -/
def cmdWord (imm : BitVec 8) (b : BitVec 1) (op : BitVec 5) : BitVec 16 := imm ++ (0#2 ++ (b ++ op))

/-- The OP value of an operation (R84). -/
def Op.code : Op → BitVec 5
  | .start => 0x01#5
  | .restart => 0x02#5
  | .stop => 0x03#5
  | .waitAck => 0x04#5
  | .writeByte => 0x05#5
  | .readByte => 0x06#5
  | .sendAckOrNack => 0x07#5
  | .sendAddr => 0x08#5
  | .addrPhase => 0x09#5
  | .sendBytes => 0x0A#5
  | .recvBytes => 0x0B#5
  | .xfer => 0x0C#5
  | .transfer => 0x0D#5
  | .send => 0x0E#5
  | .recv => 0x0F#5
  | .sendThenRecv => 0x10#5
  | .sendThenSend => 0x11#5

/-- The operation an OP value selects (R84); 0x00 is illegal and 0x12 to 0x1F are reserved (R86). -/
def Op.ofCode (c : BitVec 5) : Option Op :=
  match c.toNat with
  | 0x01 => some .start
  | 0x02 => some .restart
  | 0x03 => some .stop
  | 0x04 => some .waitAck
  | 0x05 => some .writeByte
  | 0x06 => some .readByte
  | 0x07 => some .sendAckOrNack
  | 0x08 => some .sendAddr
  | 0x09 => some .addrPhase
  | 0x0A => some .sendBytes
  | 0x0B => some .recvBytes
  | 0x0C => some .xfer
  | 0x0D => some .transfer
  | 0x0E => some .send
  | 0x0F => some .recv
  | 0x10 => some .sendThenRecv
  | 0x11 => some .sendThenSend
  | _ => none

/-- Whether the operation uses IMM8 (R81, R85): WRITE_BYTE and SEND_ADDR. -/
def Op.usesImm (op : Op) : Bool := op = .writeByte || op = .sendAddr

/-- Whether the operation uses B (R82, R85): SEND_ACK_OR_NACK and SEND_ADDR. -/
def Op.usesB (op : Op) : Bool := op = .sendAckOrNack || op = .sendAddr

/-- The kinds of operand record (R77). -/
inductive RecordKind where
  | none | msg | list | xfer | single | wrRd | wrWr
deriving DecidableEq, Repr

/-- The kind of a record. -/
def Record.kind : Record → RecordKind
  | .none => .none
  | .msg _ => .msg
  | .list _ => .list
  | .xfer _ _ => .xfer
  | .single _ _ _ _ _ => .single
  | .wrRd _ _ _ _ _ _ => .wrRd
  | .wrWr _ _ _ _ _ _ => .wrWr

/-- `record_kind`: the record an operation takes, the "uses" column of R84. -/
def Op.recordKind : Op → RecordKind
  | .start => .none
  | .restart => .none
  | .stop => .none
  | .waitAck => .none
  | .writeByte => .none
  | .readByte => .none
  | .sendAckOrNack => .none
  | .sendAddr => .none
  | .addrPhase => .msg
  | .sendBytes => .msg
  | .recvBytes => .msg
  | .xfer => .list
  | .transfer => .xfer
  | .send => .single
  | .recv => .single
  | .sendThenRecv => .wrRd
  | .sendThenSend => .wrWr

/-- The operation with its operands, when the record has the kind it takes (R85, last line); `none` otherwise. -/
def assemble (op : Op) (imm : Byte) (b : BitVec 1) (rec : Record) : Option Instr :=
  match op, rec with
  | .start, .none => some .start
  | .restart, .none => some .restart
  | .stop, .none => some .stop
  | .waitAck, .none => some .waitAck
  | .writeByte, .none => some (.writeByte imm)
  | .readByte, .none => some .readByte
  | .sendAckOrNack, .none => some (.sendAckOrNack (b == 1#1))
  | .sendAddr, .none => some (.sendAddr imm b)
  | .addrPhase, .msg m => some (.addrPhase m)
  | .sendBytes, .msg m => some (.sendBytes m)
  | .recvBytes, .msg m => some (.recvBytes m)
  | .xfer, .list ms => some (.xfer ms)
  | .transfer, .xfer cap ms => some (.transfer cap ms)
  | .send, .single cap addr flags buf len => some (.send cap addr flags buf len)
  | .recv, .single cap addr flags buf len => some (.recv cap addr flags buf len)
  | .sendThenRecv, .wrRd cap addr tx txlen rx rxlen => some (.sendThenRecv cap addr tx txlen rx rxlen)
  | .sendThenSend, .wrWr cap addr tx1 len1 tx2 len2 => some (.sendThenSend cap addr tx1 len1 tx2 len2)
  | _, _ => none

/-- The decoder (R85), its checks in the order written there; the ranges of R78 come last (log entry 12). -/
def decode (p : Params) (c : Command) : Except Reason Instr :=
  if cmdRsv c.word ≠ 0#2 then .error .rsvNonzero
  else
    match Op.ofCode (cmdOp c.word) with
    | none => .error .illegalOp
    | some op =>
      if op.usesImm = false ∧ cmdImm c.word ≠ 0#8 then .error .immNonzero
      else if op.usesB = false ∧ cmdB c.word ≠ 0#1 then .error .bNonzero
      else
        match assemble op (cmdImm c.word) (cmdB c.word) c.record with
        | none => .error .badOperands
        | some i => if i.wf p then .ok i else .error .operandRange

/-- The IMM8 field of an instruction's word (R81). -/
def Instr.imm : Instr → Byte
  | .start => 0#8
  | .restart => 0#8
  | .stop => 0#8
  | .waitAck => 0#8
  | .writeByte byte => byte
  | .readByte => 0#8
  | .sendAckOrNack _ => 0#8
  | .sendAddr byte _ => byte
  | .addrPhase _ => 0#8
  | .sendBytes _ => 0#8
  | .recvBytes _ => 0#8
  | .xfer _ => 0#8
  | .transfer _ _ => 0#8
  | .send _ _ _ _ _ => 0#8
  | .recv _ _ _ _ _ => 0#8
  | .sendThenRecv _ _ _ _ _ _ => 0#8
  | .sendThenSend _ _ _ _ _ _ => 0#8

/-- The B field of an instruction's word (R82). -/
def Instr.b : Instr → BitVec 1
  | .start => 0#1
  | .restart => 0#1
  | .stop => 0#1
  | .waitAck => 0#1
  | .writeByte _ => 0#1
  | .readByte => 0#1
  | .sendAckOrNack ack => if ack then 1#1 else 0#1
  | .sendAddr _ rlim => rlim
  | .addrPhase _ => 0#1
  | .sendBytes _ => 0#1
  | .recvBytes _ => 0#1
  | .xfer _ => 0#1
  | .transfer _ _ => 0#1
  | .send _ _ _ _ _ => 0#1
  | .recv _ _ _ _ _ => 0#1
  | .sendThenRecv _ _ _ _ _ _ => 0#1
  | .sendThenSend _ _ _ _ _ _ => 0#1

/-- The operand record of an instruction (R77). -/
def Instr.record : Instr → Record
  | .start => .none
  | .restart => .none
  | .stop => .none
  | .waitAck => .none
  | .writeByte _ => .none
  | .readByte => .none
  | .sendAckOrNack _ => .none
  | .sendAddr _ _ => .none
  | .addrPhase m => .msg m
  | .sendBytes m => .msg m
  | .recvBytes m => .msg m
  | .xfer ms => .list ms
  | .transfer cap ms => .xfer cap ms
  | .send cap addr flags buf len => .single cap addr flags buf len
  | .recv cap addr flags buf len => .single cap addr flags buf len
  | .sendThenRecv cap addr tx txlen rx rxlen => .wrRd cap addr tx txlen rx rxlen
  | .sendThenSend cap addr tx1 len1 tx2 len2 => .wrWr cap addr tx1 len1 tx2 len2

/-- The encoder: the command of an instruction (R79 to R84, R89). -/
def encode (i : Instr) : Command :=
  { word := cmdWord i.imm i.b i.op.code, record := i.record }

/-- The record of a kind with every number 0, every list empty and every buffer reference null: the operand words of
zeros of the host's interface (log entry 9). -/
def zeroRecord : RecordKind → Record
  | .none => .none
  | .msg => .msg { addr := 0, flags := 0, len := 0, buf := none }
  | .list => .list []
  | .xfer => .xfer 0 []
  | .single => .single 0 0 0 none 0
  | .wrRd => .wrRd 0 0 none 0 none 0
  | .wrWr => .wrWr 0 0 none 0 none 0

/-- The command whose word is the low `nbits` bits of `w`, with the zero record of the kind its OP takes. -/
def tableCommand (nbits w : Nat) : Command :=
  let word := BitVec.ofNat 16 (w % 2 ^ nbits)
  { word := word
    record :=
      match Op.ofCode (cmdOp word) with
      | some op => zeroRecord op.recordKind
      | none => .none }

/-- What the decoder reads from a row of spec/opcode_table.json, under the default parameters (R7). A command word is
16 bits (R79), so a longer row has no reading. -/
def decodeTableWord (nbits w : Nat) : Option Instr :=
  if nbits ≤ 16 then
    match decode Params.default (tableCommand nbits w) with
    | .ok i => some i
    | .error _ => none
  else none

end Sys2Proof
end

