-- ==== Sys2Proof/Machine/State.lean ====
section
/-! DEFINITION. The state of the block (spec/10_state.md, spec/20_memory.md R45), its reset value
(spec/70_reset_and_hazards.md R200), and the reasons a step can stop. -/

namespace Sys2Proof.Machine

/-- SDA's direction (R18). -/
inductive Dir where
  | out
  | input
deriving DecidableEq, Repr

/-- Bus state (R20). -/
inductive BusState where
  | idle
  | busHeld
deriving DecidableEq, Repr

/-- Engine state (R21, R150). -/
inductive EngState where
  | idle
  | busHeld
  | addressing
  | transferring
deriving DecidableEq, Repr

/-- Sequencer position (R24): the operation in progress, by the name it was issued under (a wrapper's own, R162 to R165),
and where in the history it began. The step within it is how much of the history it has made since (`State.position`), and
within XFER the messages done are counted by `I`. -/
inductive Seq where
  /-- Between operations. -/
  | ready
  /-- A TRANSFER or a wrapper at its LOCK_ACQUIRE, which has not returned (R180), with the operands it keeps meanwhile. -/
  | lockWait (i : Instr)
  /-- Inside the operation, whose first event is number `start` of the history. -/
  | running (op : Op) (start : Nat)
deriving DecidableEq, Repr

/-- One call of the capability set, or one buffer access (R28). A GET_SDA carries its answer. -/
inductive Event where
  | sdaSet (v : Level)
  | sclSet (v : Level)
  | sdaDirOut
  | sdaDirIn
  | getSda (v : Level)
  | delay (t : Nat)
  | lockAcquire
  | lockRelease
  | errorCallback (cap : CapHandle)
  | memRead (a : Nat) (v : Byte)
  | memWrite (a : Nat) (v : Byte)
deriving DecidableEq, Repr

/-- The value an operation returns (R29). START, RESTART, STOP and SEND_ACK_OR_NACK return none (R177). -/
inductive Result where
  | flag (b : Bool)
  | byte (v : Byte)
  | count (n : Nat)
deriving DecidableEq, Repr

/-- The pin-interface registers SCL_OUT, SDA_OUT, SDA_DIR (R18). -/
structure Pins where
  sclOut : Level
  sdaOut : Level
  sdaDir : Dir
deriving DecidableEq, Repr

/-- The datapath registers (R16). The counts of LEN_WIDTH and COUNT_WIDTH bits are naturals; that they stay below
their width is part of the invariant of Safety.lean (R159). -/
structure Datapath where
  shift : Byte
  bitcnt : BitVec 4
  ackf : Bool
  addr1 : Byte
  addr2 : Byte
  rlim : BitVec 1
  tries : BitVec 1
  bytes : Nat
  remain : Nat
  i : Nat
  result : Nat
deriving DecidableEq, Repr

/-- A TRANSFER that is at its ERROR_CALLBACK and has not returned (R160, R185): the position it holds meanwhile (R24), its
descriptors, the count it will return, and the calls the callback has still to make. -/
structure Frame where
  position : Seq
  ms : List Msg
  result : Nat
  calls : List Command
deriving DecidableEq, Repr

/-- Buffer space (R45): cells in strictly rising order of address, none equal to what an unlisted cell reads as. -/
abbrev Memory := List Host.Cell

structure State where
  /-- The implementation's parameters (R7), fixed for the life of the block (R204). -/
  par : Params
  /-- CAP and US, the configuration (R23). -/
  cap : CapHandle
  us : Nat
  /-- SCL_OUT, SDA_OUT, SDA_DIR (R18). -/
  pins : Pins
  /-- BUS (R20), ENG (R21), LOCKED (R22), seq (R24), REFUSED (R44). -/
  bus : BusState
  eng : EngState
  locked : Bool
  seq : Seq
  refused : Bool
  /-- The datapath registers (R16). -/
  dp : Datapath
  /-- Buffer space (R45). -/
  mem : Memory
  /-- The trace and history, oldest first (R28). -/
  trace : List Event
  /-- The values returned so far, oldest first (R29). -/
  results : List Result
  /-- The commands delivered and not yet begun, oldest first (R76, R80, R93). -/
  port : List Command
  /-- The TRANSFERs that are at their ERROR_CALLBACK, innermost first (R185). -/
  frames : List Frame
  /-- What the error callback will do, one list of calls for each ERROR_CALLBACK to come; past the end of the list it
  does nothing. The platform's own (R161, R185; log entry 18). -/
  callbacks : List (List Command)
  /-- Whether another agent holds the mutex (R190). -/
  mutexOther : Bool
  /-- The answers of the bus environment that are already fixed, oldest first (R31). -/
  sdaIn : List Level
  /-- How many GET_SDA have been answered: the counter of the free value `Config.freeSda` (log entry 6). -/
  draws : Nat
  /-- How many capability calls still return; `none` is all of them (R180, log entry 16). -/
  callsLeft : Option Nat
deriving DecidableEq, Repr

/-- Reasons the machine stops. -/
inductive Fault where
  /-- Raised by `step` when the operation makes more capability calls than return: the block is stuck (R180, case 2).
  It carries the history up to and including the call that does not return (for a callback that does not return, what its
  own calls made as well), and the sequencer position, which R24 says is held till the operation returns. DESIGN CHOICE (log
  entry 16): the call that does not return stands in the history as the event it would have been, a GET_SDA with an answer
  that nothing gave. Safe: the machine stops. -/
  | capabilityCallNeverReturns (history : List Event) (position : Seq)
  /-- Raised by `step` when an error callback has made its calls and they leave the bus held: no TRANSFER returns so (R102,
  R202), the callback "changes no block state" (93_implementation_defined.md I-5), and a caller of the primitives closes with
  STOP (R206, point 2). DEDUCED (log entry 18). Safe: the machine stops. -/
  | callbackLeftBusHeld
  /-- Raised by `step` when the sequencer is inside an operation: "an operation starts only when `seq = Ready`" (R24).
  No run reaches it. Safe: the machine stops. -/
  | sequencerNotReady
deriving DecidableEq, Repr

/-- Refusals: "the model has no meaning for the operation as issued" (R178). All are safe: the machine stops. -/
inductive Refusal where
  /-- Raised by `exec`'s arm of an operation that has no meaning yet. -/
  | notModelled (mnemonic : String)
  /-- Raised by an operation or the decoder, for the reason named, with the refused state of R178: `REFUSED` set and
  nothing else changed, but for the LOCK_ACQUIRE of a TRANSFER refused with BUS_STATE (R160). -/
  | refuse (why : Reason) (final : State)
  /-- Raised by the creation of a block instance: BAD_US (R96), or an incomplete boot, which is the model's own choice
  (log entry 24). -/
  | notCreated (why : Reason)
  /-- Raised by `step` in a refused state: "the block takes no further step" (R178). -/
  | alreadyRefused
deriving DecidableEq, Repr

/-- The pins as the block assumes them at reset (R200, R201). -/
def Pins.reset : Pins := { sclOut := true, sdaOut := true, sdaDir := .out }

/-- DESIGN CHOICE (log entry 3): R200 leaves the datapath registers unwritten; here they hold 0. -/
def Datapath.reset : Datapath where
  shift := 0#8
  bitcnt := 0#4
  ackf := false
  addr1 := 0#8
  addr2 := 0#8
  rlim := 0#1
  tries := 0#1
  bytes := 0
  remain := 0
  i := 0
  result := 0

/-- A block instance just created with the given configuration: the state of R200, with nothing delivered yet. -/
def State.created (par : Params) (cap : CapHandle) (us : Nat) : State where
  par := par
  cap := cap
  us := us
  pins := Pins.reset
  bus := .idle
  eng := .idle
  locked := false
  seq := .ready
  refused := false
  dp := Datapath.reset
  mem := []
  trace := []
  results := []
  port := []
  frames := []
  callbacks := []
  mutexOther := false
  sdaIn := []
  draws := 0
  callsLeft := none

/-- Reset is the creation of an instance (R200). DESIGN CHOICE (log entry 4): CAP and US have no reset value; here
CAP is handle 0 and US is 5, the value of every vector and program of spec/95_test_vectors.md. -/
def State.reset : State := State.created Params.default 0 5

end Sys2Proof.Machine
end

