-- ==== Sys2Proof/Machine/Ops.lean ====
section
/-! DEFINITION. The named operations every meaning is built from: events, delays, the oracle, buffer space, the
start and end of an operation, refusals, the three bus conditions, and the abort of a transaction. -/

namespace Sys2Proof.Machine

/-! ### Events (R28) -/

/-- The "state written" column of R28, for the pin-interface registers. A SDA_SET writes the latch whatever the
direction (R19). -/
def Event.onPins : Event → Pins → Pins
  | .sdaSet v, p => { p with sdaOut := v }
  | .sclSet v, p => { p with sclOut := v }
  | .sdaDirOut, p => { p with sdaDir := .out }
  | .sdaDirIn, p => { p with sdaDir := .input }
  | .getSda _, p => p
  | .delay _, p => p
  | .lockAcquire, p => p
  | .lockRelease, p => p
  | .errorCallback _, p => p
  | .memRead _ _, p => p
  | .memWrite _ _, p => p

/-- The "state written" column of R28, for LOCKED. -/
def Event.onLocked : Event → Bool → Bool
  | .sdaSet _, l => l
  | .sclSet _, l => l
  | .sdaDirOut, l => l
  | .sdaDirIn, l => l
  | .getSda _, l => l
  | .delay _, l => l
  | .lockAcquire, _ => true
  | .lockRelease, _ => false
  | .errorCallback _, l => l
  | .memRead _ _, l => l
  | .memWrite _ _, l => l

/-- The pins after a sequence of events. -/
def pinsAfter (es : List Event) (p : Pins) : Pins := es.foldl (fun p e => e.onPins p) p

/-- LOCKED after a sequence of events. -/
def lockedAfter (es : List Event) (l : Bool) : Bool := es.foldl (fun l e => e.onLocked l) l

/-- `emit` for a sequence of events (R10): they are appended to the trace and write the state R28 gives. -/
def emits (es : List Event) (s : State) : State :=
  { s with pins := pinsAfter es s.pins, locked := lockedAfter es s.locked, trace := s.trace ++ es }

/-- `emit E` (R10). -/
def emit (e : Event) (s : State) : State := emits [e] s

/-- Whether an event is a call of the capability set, as opposed to a buffer access (R28). -/
def Event.isCall : Event → Bool
  | .sdaSet _ => true
  | .sclSet _ => true
  | .sdaDirOut => true
  | .sdaDirIn => true
  | .getSda _ => true
  | .delay _ => true
  | .lockAcquire => true
  | .lockRelease => true
  | .errorCallback _ => true
  | .memRead _ _ => false
  | .memWrite _ _ => false

/-- How many capability calls a history holds. -/
def callCount (es : List Event) : Nat := es.countP Event.isCall

/-- A history up to and including its capability call number `n` (counting from 0). Where that call is a GET_SDA, its event
keeps the answer it carries. -/
def throughCall : Nat → List Event → List Event
  | _, [] => []
  | n, e :: es =>
    if e.isCall then
      match n with
      | 0 => [e]
      | n + 1 => e :: throughCall n es
    else e :: throughCall n es

/-! ### Delays (R96, R97) -/

/-- HALF: `US / 2` rounded up (R96). -/
def half (us : Nat) : Nat := (us + 1) / 2

/-- `half_delay()` (R97). -/
def halfDelay (s : State) : State := emit (.delay (half s.us)) s

/-- `full_delay()` (R97). -/
def fullDelay (s : State) : State := emit (.delay s.us) s

/-! ### The oracle (R31) -/

/-- What the bus environment answers to the `n`-th GET_SDA from here (counting from 0): the answer already fixed, or
the free value. -/
def answerAt (s : State) (n : Nat) : Level := (s.sdaIn[n]?).getD (Config.freeSda (s.draws + n))

/-- `s <- GetSDA()` (R10): the event, with the answer drawn. The answer itself is `answerAt s 0`. -/
def getSda (s : State) : State :=
  emit (.getSda (answerAt s 0)) { s with sdaIn := s.sdaIn.tail, draws := s.draws + 1 }

/-! ### Buffer space (R45, R46) -/

/-- What a cell that nobody has written reads as. DESIGN CHOICE (log entry 2). -/
def unlistedByte : Byte := 0#8

/-- The byte at a cell. -/
def Memory.read : Memory → Nat → Byte
  | [], _ => unlistedByte
  | (b, w) :: r, a => if a = b then w else Memory.read r a

/-- The cell set to a byte, in the canonical form. -/
def Memory.write : Memory → Nat → Byte → Memory
  | [], a, v => if v = unlistedByte then [] else [(a, v)]
  | (b, w) :: r, a, v =>
    if a < b then (if v = unlistedByte then (b, w) :: r else (a, v) :: (b, w) :: r)
    else if a = b then (if v = unlistedByte then r else (a, v) :: r)
    else (b, w) :: Memory.write r a v

/-- The canonical form: addresses strictly rising, and no cell equal to what an unlisted cell reads as. -/
def Memory.wf : Memory → Bool
  | [] => true
  | (b, w) :: r => decide (w ≠ unlistedByte) && r.all (fun c => decide (b < c.1)) && Memory.wf r

/-- `MemRead(a, 1)` (R46): recorded in the history; the byte itself is `s.mem.read a`. -/
def memRead (a : Nat) (s : State) : State := emit (.memRead a (Memory.read s.mem a)) s

/-- `MemWrite(a, 1, v)` (R46). -/
def memWrite (a : Nat) (v : Byte) (s : State) : State :=
  emit (.memWrite a v) { s with mem := Memory.write s.mem a v }

/-! ### The datapath registers (R16) and ENG (R21), written one at a time -/

def setShift (v : Byte) (s : State) : State := { s with dp := { s.dp with shift := v } }
def setBitcnt (n : BitVec 4) (s : State) : State := { s with dp := { s.dp with bitcnt := n } }
def setAddr1 (v : Byte) (s : State) : State := { s with dp := { s.dp with addr1 := v } }
def setAddr2 (v : Byte) (s : State) : State := { s with dp := { s.dp with addr2 := v } }
def setRlim (r : BitVec 1) (s : State) : State := { s with dp := { s.dp with rlim := r } }
def setTries (n : BitVec 1) (s : State) : State := { s with dp := { s.dp with tries := n } }
def setI (n : Nat) (s : State) : State := { s with dp := { s.dp with i := n } }
def setResult (n : Nat) (s : State) : State := { s with dp := { s.dp with result := n } }
def setEng (e : EngState) (s : State) : State := { s with eng := e }

/-- XFER's message loop is entered: `ENG <- BusHeld` and `I <- 0` (R141). -/
def openLoop (s : State) : State := { s with eng := .busHeld, dp := { s.dp with i := 0 } }

/-! ### The start and end of an operation (R24, R29), and refusals (R178) -/

/-- The operation takes the sequencer (R24). -/
def enter (op : Op) (s : State) : State := { s with seq := .running op s.trace.length }

/-- Where an operation in progress stands (R24). -/
structure Position where
  op : Op
  /-- The step within it: how many of its events and buffer accesses are done. -/
  done : Nat
  /-- The message index `I`, which is part of the position within XFER's message loop: from its `I <- 0` to the end of
  EXIT (R24, R141). Outside it there is none, whatever an earlier XFER left in `I`. -/
  message : Option Nat
deriving DecidableEq, Repr

/-- The message index while XFER counts messages, which is while ENG is not Idle (R21, R24). -/
def State.messageIndex (s : State) : Option Nat :=
  match s.eng with
  | .idle => none
  | .busHeld => some s.dp.i
  | .addressing => some s.dp.i
  | .transferring => some s.dp.i

/-- What the sequencer position says (R24); `none` is `Ready`. -/
def State.position (s : State) : Option Position :=
  match s.seq with
  | .ready => none
  | .lockWait i => some { op := i.op, done := 0, message := none }
  | .running op start => some { op := op, done := s.trace.length - start, message := s.messageIndex }

/-- An operation that returns no value gives the sequencer back (R24). -/
def finish (s : State) : State := { s with seq := .ready }

/-- The operation returns a value and gives the sequencer back (R24, R29). -/
def leave (r : Result) (s : State) : State := { s with seq := .ready, results := s.results ++ [r] }

/-- `refuse(reason)` (R10, R178): REFUSED is set and no step is taken. -/
def refuse (why : Reason) (s : State) : Host.Outcome State Fault Refusal :=
  .refused (.refuse why { s with refused := true })

/-! ### The three bus conditions (R98 to R101), after their check of BUS -/

/-- START (R99). -/
def startOp (s : State) : State :=
  { emits [.sdaDirOut, .sdaSet false, .delay (half s.us), .sclSet false] s with bus := .busHeld }

/-- RESTART (R100). -/
def restartOp (s : State) : State :=
  emits [.sdaDirOut, .sdaSet true, .sclSet true, .sdaSet false, .delay (half s.us), .sclSet false] s

/-- STOP (R101). -/
def stopOp (s : State) : State :=
  { emits [.sdaDirOut, .sdaSet false, .sclSet true, .sdaSet true, .delay s.us] s with bus := .idle }

/-! ### The abort of a transaction (R151, R176, R184) -/

/-- The abort reasons (R176). -/
inductive Abort where
  | addrNack
  | dataNack
deriving DecidableEq, Repr

/-- Their codes (R176), "not observable at the block's boundary". -/
def Abort.code : Abort → Nat
  | .addrNack => 1
  | .dataNack => 2

/-- EXIT (R141, R151): the one way out of XFER after its opening START, taken at the end of the list and by every
`raise Abort`, which saves nothing but `I` (R184). The closing STOP, then the count. -/
def exitOp (s : State) : State :=
  let s1 := stopOp (setEng .busHeld s)
  setResult s1.dp.i (setEng .idle s1)

/-- `raise Abort(reason)` in XFER (R184): control goes to EXIT at once. The reason is recorded nowhere. -/
def raiseAbort (_ : Abort) (s : State) : State := exitOp s

end Sys2Proof.Machine
end

