-- ==== Sys2Proof/Machine/Flags.lean ====
section
/-! DEFINITION. The acknowledge bit and the per-message flags (spec/10_state.md R26, R34 to R37, spec/00_scope.md R11). -/

namespace Sys2Proof.Machine

/-- `ack(s) = (s = 0)` (R11, R68): a low level on the ninth clock is ACK. -/
def ackOf (v : Level) : Bool := !v

/-- ACKF written from a sample (R26). -/
def setAck (v : Level) (s : State) : State := { s with dp.ackf := ackOf v }

/-- Whether a flags word holds a flag value: `(flags & flag) != 0` (R35). -/
def hasFlag (flags flag : Nat) : Bool := (flags &&& flag) != 0

/-- The flag predicates (R35). -/
def isRead (p : Params) (m : Msg) : Bool := hasFlag m.flags p.flagRead
def is10bit (p : Params) (m : Msg) : Bool := hasFlag m.flags p.flagAddr10
def noStart (p : Params) (m : Msg) : Bool := hasFlag m.flags p.flagNoStart
def ignoreNack (p : Params) (m : Msg) : Bool := hasFlag m.flags p.flagIgnoreNack
def noReadAck (p : Params) (m : Msg) : Bool := hasFlag m.flags p.flagNoReadAck

/-- The retry limit of a message (R37): 0 with IGNORE_NACK, else 1. -/
def retryLimit (p : Params) (m : Msg) : BitVec 1 := if ignoreNack p m then 0#1 else 1#1

end Sys2Proof.Machine
end

