-- ==== Sys2Proof/Machine/ByteShift.lean ====
section
/-! DEFINITION. i2c_byte_shift_engine: WAIT_ACK, WRITE_BYTE, READ_BYTE, SEND_ACK_OR_NACK
(spec/41_byte_shift_engine.md R106 to R110). -/

namespace Sys2Proof.Machine

/-- WAIT_ACK after its check (R107). Its result is ACKF. -/
def waitAckOp (s : State) : State :=
  let s1 := emits [.sdaDirIn, .sdaSet true, .sclSet true] s
  setAck (answerAt s1 0) (emit (.sclSet false) (getSda s1))

/-- One bit of WRITE_BYTE (R108): the body of its loop for BITCNT = `k`. -/
def shiftOutBit (k : Nat) (s : State) : State :=
  emits [.sclSet false, .sdaSet (s.dp.shift.getLsbD k), .delay (half s.us), .sclSet true, .delay (half s.us)]
    (setBitcnt (BitVec.ofNat 4 k) s)

/-- `for BITCNT in k-1 downto 0` (R108). -/
def shiftOutBits : Nat → State → State
  | 0, s => s
  | k + 1, s => shiftOutBits k (shiftOutBit k s)

/-- WRITE_BYTE after its check (R108). Its result is ACKF. -/
def writeByteOp (byte : Byte) (s : State) : State :=
  let s1 := shiftOutBits 8 (emit .sdaDirOut (setShift byte s))
  waitAckOp (halfDelay (emit (.sclSet false) s1))

/-- The accumulator after one sampled bit: `trunc_8((SHIFT << 1) | s)` (R109). -/
def shiftIn (acc : Byte) (v : Level) : Byte := BitVec.ofNat 8 ((acc.toNat <<< 1) ||| v.toNat)

/-- One bit of READ_BYTE (R109): the body of its loop for BITCNT = `n`. -/
def shiftInBit (n : Nat) (s : State) : State :=
  let s1 := emit (.sclSet true) (setBitcnt (BitVec.ofNat 4 n) s)
  let s2 := getSda s1
  fullDelay (emit (.sclSet false) (setShift (shiftIn s2.dp.shift (answerAt s1 0)) s2))

/-- `for BITCNT in 9-k to 8`: the last `k` bits of the loop (R109). -/
def shiftInBits : Nat → State → State
  | 0, s => s
  | k + 1, s => shiftInBits k (shiftInBit (8 - k) s)

/-- READ_BYTE after its check (R109). Its result is SHIFT. -/
def readByteOp (s : State) : State :=
  let s1 := emits [.sdaDirIn, .sdaSet true] s
  shiftInBits 8 (setShift 0#8 s1)

/-- SEND_ACK_OR_NACK after its check (R110): a NACK makes no SDA event. -/
def sendAckOp (ack : Bool) (s : State) : State :=
  emits (.sdaDirOut :: ((if ack then [.sdaSet false] else []) ++
    [.delay (half s.us), .sclSet true, .sclSet false])) s

/-- WAIT_ACK (R107): refused with BUS_STATE unless the bus is held (R106). -/
def execWaitAck (s : State) : Host.Outcome State Fault Refusal :=
  if s.bus = .busHeld then
    let t := waitAckOp (enter .waitAck s)
    .next (leave (.flag t.dp.ackf) t)
  else refuse .busState s

/-- WRITE_BYTE (R108): refused with BUS_STATE unless the bus is held (R106). -/
def execWriteByte (byte : Byte) (s : State) : Host.Outcome State Fault Refusal :=
  if s.bus = .busHeld then
    let t := writeByteOp byte (enter .writeByte s)
    .next (leave (.flag t.dp.ackf) t)
  else refuse .busState s

/-- READ_BYTE (R109): refused with BUS_STATE unless the bus is held (R106). -/
def execReadByte (s : State) : Host.Outcome State Fault Refusal :=
  if s.bus = .busHeld then
    let t := readByteOp (enter .readByte s)
    .next (leave (.byte t.dp.shift) t)
  else refuse .busState s

/-- SEND_ACK_OR_NACK (R110): refused with BUS_STATE unless the bus is held (R106). -/
def execSendAckOrNack (ack : Bool) (s : State) : Host.Outcome State Fault Refusal :=
  if s.bus = .busHeld then .next (finish (sendAckOp ack (enter .sendAckOrNack s))) else refuse .busState s

end Sys2Proof.Machine
end

