-- ==== Sys2Proof/Machine/Operands.lean ====
section
/-! DEFINITION. Descriptors as operands: the checks of spec/10_state.md R38, the address bytes of
spec/42_address_phase_handler.md R123 and R124, buffer cells (spec/20_memory.md R45), and the descriptors of the API
operations (spec/44_transaction_api.md R160 to R165). -/

namespace Sys2Proof.Machine

/-! ### The checks of a descriptor (R38) -/

/-- BAD_FLAGS: a bit set outside the five named flag values. -/
def badFlags (p : Params) (m : Msg) : Bool := (m.flags ||| p.allFlags) != p.allFlags

/-- BAD_ADDR7: 7-bit mode with ADDR above 0x7F. -/
def badAddr7 (p : Params) (m : Msg) : Bool := !is10bit p m && decide (0x7F < m.addr)

/-- BAD_BUF: LEN above 0 with a null buffer, or with one that refers to fewer than LEN bytes. -/
def badBuf (m : Msg) : Bool :=
  decide (0 < m.len) &&
    match m.buf with
    | none => true
    | some b => decide (b.size < m.len)

/-- The first check a descriptor fails, in the order of R183. -/
def checkMsg (p : Params) (m : Msg) : Option Reason :=
  if badFlags p m then some .badFlags
  else if badAddr7 p m then some .badAddr7
  else if badBuf m then some .badBuf
  else none

/-- The first check a list of descriptors fails, in ascending index (R38, R183). -/
def checkMsgs (p : Params) : List Msg → Option Reason
  | [] => none
  | m :: ms =>
    match checkMsg p m with
    | some r => some r
    | none => checkMsgs p ms

/-! ### Address bytes -/

/-- The 7-bit address byte `(ADDR << 1) | R/W` (R69, R123). -/
def addrByte7 (p : Params) (m : Msg) : Byte := BitVec.ofNat 8 ((m.addr <<< 1) ||| (if isRead p m then 1 else 0))

/-- The first byte of a 10-bit address, write direction: `0xF0 | ((ADDR >> 7) & 0x06)` (R70, R124). -/
def addrByteHi (m : Msg) : Byte := BitVec.ofNat 8 (0xF0 ||| ((m.addr >>> 7) &&& 0x06))

/-- The second byte of a 10-bit address: `ADDR & 0xFF` (R71, R124). -/
def addrByteLo (m : Msg) : Byte := BitVec.ofNat 8 (m.addr &&& 0xFF)

/-! ### Buffer cells -/

/-- The address of cell `BUF + j` (R45). A null BUF is never dereferenced (R55); the address it gives here is used by
no access. -/
def cellAddr (m : Msg) (j : Nat) : Nat :=
  match m.buf with
  | none => j
  | some b => b.base + j

/-! ### The descriptors of the wrappers -/

/-- The descriptor of SEND (R162): `flags` is passed unchanged. -/
def sendMsg (addr flags : Nat) (buf : Option BufRef) (len : Nat) : Msg :=
  { addr := addr, flags := flags, len := len, buf := buf }

/-- The descriptor of RECV (R163): "Receive forces the READ flag". -/
def recvMsg (p : Params) (addr flags : Nat) (buf : Option BufRef) (len : Nat) : Msg :=
  { addr := addr, flags := flags ||| p.flagRead, len := len, buf := buf }

/-- The list of SEND_THEN_RECV (R164). -/
def sendThenRecvMsgs (p : Params) (addr : Nat) (tx : Option BufRef) (txlen : Nat) (rx : Option BufRef) (rxlen : Nat) :
    List Msg :=
  [{ addr := addr, flags := 0, len := txlen, buf := tx }, { addr := addr, flags := p.flagRead, len := rxlen, buf := rx }]

/-- The list of SEND_THEN_SEND (R165). -/
def sendThenSendMsgs (p : Params) (addr : Nat) (tx1 : Option BufRef) (len1 : Nat) (tx2 : Option BufRef) (len2 : Nat) :
    List Msg :=
  [{ addr := addr, flags := 0, len := len1, buf := tx1 },
    { addr := addr, flags := p.flagNoStart, len := len2, buf := tx2 }]

/-- The list an API operation hands to TRANSFER, with its CAP (R160, R162 to R165); no other operation has one. -/
def apiList (p : Params) : Instr → Option (CapHandle × List Msg)
  | .start => none
  | .restart => none
  | .stop => none
  | .waitAck => none
  | .writeByte _ => none
  | .readByte => none
  | .sendAckOrNack _ => none
  | .sendAddr _ _ => none
  | .addrPhase _ => none
  | .sendBytes _ => none
  | .recvBytes _ => none
  | .xfer _ => none
  | .transfer cap ms => some (cap, ms)
  | .send cap addr flags buf len => some (cap, [sendMsg addr flags buf len])
  | .recv cap addr flags buf len => some (cap, [recvMsg p addr flags buf len])
  | .sendThenRecv cap addr tx txlen rx rxlen => some (cap, sendThenRecvMsgs p addr tx txlen rx rxlen)
  | .sendThenSend cap addr tx1 len1 tx2 len2 => some (cap, sendThenSendMsgs p addr tx1 len1 tx2 len2)

end Sys2Proof.Machine
end

