-- ==== Sys2Proof/Machine/AddressPhase.lean ====
section
/-! DEFINITION. i2c_address_phase_handler: SEND_ADDR and ADDR_PHASE (spec/42_address_phase_handler.md R121 to R127). -/

namespace Sys2Proof.Machine

/-- What SEND_ADDR does between two attempts (R121): Stop, one delay unit, Start, and TRY counted up. -/
def retryOp (s : State) : State :=
  let s1 := startOp (fullDelay (stopOp s))
  setTries (s1.dp.tries + 1#1) s1

/-- The attempts of SEND_ADDR when `k` retries are left, `k = rlim - TRY` (R121). -/
def sendAddrTries (byte : Byte) : Nat → State → State
  | 0, s => writeByteOp byte s
  | k + 1, s =>
    let s1 := writeByteOp byte s
    if s1.dp.ackf then s1 else sendAddrTries byte k (retryOp s1)

/-- SEND_ADDR after its check (R121). Its result is ACKF, the acknowledge of the last attempt made. -/
def sendAddrOp (byte : Byte) (rlim : BitVec 1) (s : State) : State :=
  sendAddrTries byte rlim.toNat (setTries 0#1 s)

/-- The 10-bit branch of ADDR_PHASE (R124 to R127): its result, and the state it leaves. -/
def addrPhase10 (m : Msg) (s : State) : Bool × State :=
  let ign := ignoreNack s.par m
  let rd := isRead s.par m
  let s1 := sendAddrOp (addrByteHi m) s.dp.rlim (setAddr2 (addrByteLo m) (setAddr1 (addrByteHi m) s))
  if !s1.dp.ackf && !ign then (false, s1)
  else
    let s2 := writeByteOp s1.dp.addr2 s1
    if !s2.dp.ackf && !ign then (false, s2)
    else if rd then
      let s3 := restartOp s2
      let s4 := setAddr1 (s3.dp.addr1 ||| 0x01#8) s3
      let s5 := sendAddrOp s4.dp.addr1 s4.dp.rlim s4
      if !s5.dp.ackf && !ign then (false, s5) else (true, s5)
    else (true, s2)

/-- The 7-bit branch of ADDR_PHASE (R123, R125). -/
def addrPhase7 (m : Msg) (s : State) : Bool × State :=
  let ign := ignoreNack s.par m
  let s1 := sendAddrOp (addrByte7 s.par m) s.dp.rlim (setAddr1 (addrByte7 s.par m) s)
  if !s1.dp.ackf && !ign then (false, s1) else (true, s1)

/-- ADDR_PHASE after its checks (R125): whether the address phase succeeded, and the state it leaves. -/
def addrPhaseOp (m : Msg) (s : State) : Bool × State :=
  let s1 := setRlim (retryLimit s.par m) s
  if is10bit s.par m then addrPhase10 m s1 else addrPhase7 m s1

/-- SEND_ADDR (R121): refused with BUS_STATE unless the bus is held. -/
def execSendAddr (byte : Byte) (rlim : BitVec 1) (s : State) : Host.Outcome State Fault Refusal :=
  if s.bus = .busHeld then
    let t := sendAddrOp byte rlim (enter .sendAddr s)
    .next (leave (.flag t.dp.ackf) t)
  else refuse .busState s

/-- ADDR_PHASE (R125): refused with BUS_STATE unless the bus is held, then for an ill-formed descriptor (R183). -/
def execAddrPhase (m : Msg) (s : State) : Host.Outcome State Fault Refusal :=
  if s.bus = .busHeld then
    match checkMsg s.par m with
    | some r => refuse r s
    | none =>
      let t := addrPhaseOp m (enter .addrPhase s)
      .next (leave (.flag t.1) t.2)
  else refuse .busState s

end Sys2Proof.Machine
end

