-- ==== Sys2Proof/Machine/Engine.lean ====
section
/-! DEFINITION. The Message Transfer Engine: SEND_BYTES, RECV_BYTES and XFER (spec/43_transfer_engine.md R141 to R151). -/

namespace Sys2Proof.Machine

/-- One more byte done: `BYTES <- BYTES + 1`, `REMAIN <- REMAIN - 1` (R143, R145). -/
def countByte (s : State) : State := { s with dp.bytes := s.dp.bytes + 1, dp.remain := s.dp.remain - 1 }

/-- `BYTES <- 0`, `REMAIN <- m.LEN` (R143, R145). -/
def initCounts (m : Msg) (s : State) : State := { s with dp.bytes := 0, dp.remain := m.len }

/-- The byte at `BUF + BYTES` read and sent (R143). -/
def sendOne (m : Msg) (s : State) : State :=
  let a := cellAddr m s.dp.bytes
  writeByteOp (Memory.read s.mem a) (memRead a s)

/-- The byte loop of SEND_BYTES with REMAIN = `k` (R143). -/
def sendLoop (m : Msg) : Nat → State → State
  | 0, s => s
  | k + 1, s =>
    let s1 := sendOne m s
    if !s1.dp.ackf && !ignoreNack s.par m then s1 else sendLoop m k (countByte s1)

/-- SEND_BYTES after its checks (R143). Its result is BYTES. -/
def sendBytesOp (m : Msg) (s : State) : State := sendLoop m m.len (initCounts m s)

/-- One byte received, stored at `BUF + BYTES`, and acknowledged unless NO_READ_ACK is set: ACK while bytes remain, NACK
after the last (R145 to R147). -/
def recvOne (m : Msg) (s : State) : State :=
  let s1 := readByteOp s
  let s2 := countByte (memWrite (cellAddr m s1.dp.bytes) s1.dp.shift s1)
  if noReadAck s.par m then s2 else sendAckOp (s2.dp.remain != 0) s2

/-- The byte loop of RECV_BYTES with REMAIN = `k` (R145). -/
def recvLoop (m : Msg) : Nat → State → State
  | 0, s => s
  | k + 1, s => recvLoop m k (recvOne m s)

/-- RECV_BYTES after its checks (R145). Its result is BYTES. -/
def recvBytesOp (m : Msg) (s : State) : State := recvLoop m m.len (initCounts m s)

/-- Step 2 of the message loop (R141, R142): the Restart and the address phase, unless NO_START is set. -/
def addressMsg (m : Msg) (s : State) : Bool × State :=
  if noStart s.par m then (true, s)
  else
    let s1 := if s.dp.i ≠ 0 then restartOp s else s
    addrPhaseOp m (setEng .addressing s1)

/-- Step 4 of the message loop (R141): the data phase, chosen by READ. -/
def dataMsg (m : Msg) (s : State) : State :=
  let s1 := setEng .transferring s
  if isRead s.par m then recvBytesOp m s1 else sendBytesOp m s1

/-- The body of the message loop for one message (R141): the abort it raises, if any, and the state it leaves. -/
def serviceMsg (m : Msg) (s : State) : Option Abort × State :=
  let a := addressMsg m s
  if !a.1 && !ignoreNack s.par m then (some .addrNack, a.2)
  else
    let s1 := dataMsg m a.2
    if s1.dp.bytes < m.len then (some .dataNack, s1)
    else (none, setI (s1.dp.i + 1) (setEng .busHeld s1))

/-- The message loop over the messages not yet begun, and its way out (R141, R151): EXIT at the end of the list, or at
the first abort. -/
def xferLoop : List Msg → State → State
  | [], s => exitOp s
  | m :: ms, s =>
    match serviceMsg m s with
    | (some a, t) => raiseAbort a t
    | (none, t) => xferLoop ms t

/-- XFER after its checks (R141). Its result is RESULT. -/
def xferOp (ms : List Msg) (s : State) : State :=
  xferLoop ms (openLoop (startOp s))

/-- SEND_BYTES (R143): BUS_STATE, then the descriptor checks, then DIR_MISMATCH for a READ descriptor (R183). -/
def execSendBytes (m : Msg) (s : State) : Host.Outcome State Fault Refusal :=
  if s.bus = .busHeld then
    match checkMsg s.par m with
    | some r => refuse r s
    | none =>
      if isRead s.par m then refuse .dirMismatch s
      else
        let t := sendBytesOp m (enter .sendBytes s)
        .next (leave (.count t.dp.bytes) t)
  else refuse .busState s

/-- RECV_BYTES (R145): BUS_STATE, then the descriptor checks, then DIR_MISMATCH for a WRITE descriptor (R183). -/
def execRecvBytes (m : Msg) (s : State) : Host.Outcome State Fault Refusal :=
  if s.bus = .busHeld then
    match checkMsg s.par m with
    | some r => refuse r s
    | none =>
      if isRead s.par m then
        let t := recvBytesOp m (enter .recvBytes s)
        .next (leave (.count t.dp.bytes) t)
      else refuse .dirMismatch s
  else refuse .busState s

/-- XFER (R141): refused with BUS_STATE unless the bus is idle, then for the first ill-formed descriptor. -/
def execXfer (ms : List Msg) (s : State) : Host.Outcome State Fault Refusal :=
  if s.bus = .idle then
    match checkMsgs s.par ms with
    | some r => refuse r s
    | none =>
      let t := xferOp ms (enter .xfer s)
      .next (leave (.count t.dp.result) t)
  else refuse .busState s

end Sys2Proof.Machine
end

