-- ==== Sys2Proof/Machine/Api.lean ====
section
/-! DEFINITION. The Transaction API: TRANSFER and the four wrappers (spec/44_transaction_api.md R160 to R165), with the
lock (spec/60_exceptions.md R190) and the error callback (R161). -/

namespace Sys2Proof.Machine

/-- LOCK_ACQUIRE does not return (R190): another agent holds a mutex that blocks. -/
def lockBlocked (s : State) : Bool := s.par.mutexBlocks && s.mutexOther

/-- The error callback (R161, R185), for a TRANSFER of `ms` that is to return `n`. A callback that calls nothing lets it
return at once. Otherwise the TRANSFER stands at its ERROR_CALLBACK, and the sequencer is free for the callback's calls. -/
def errorCallback (cap : CapHandle) (ms : List Msg) (n : Nat) (s : State) : State :=
  let s1 := { emit (.errorCallback cap) s with callbacks := s.callbacks.tail }
  match s.callbacks.headD [] with
  | [] => leave (.count n) s1
  | c :: cs => finish { s1 with frames := { position := s.seq, ms := ms, result := n, calls := c :: cs } :: s.frames }

/-- The callback has made its calls: the TRANSFER that waited for it returns its own count, whatever the callback did
(R160, R185). "Nothing needs restoring" (R185): `runReturn` lets it return on an idle bus only (R102, R202). -/
def callbackReturns (f : Frame) (rest : List Frame) (s : State) : State :=
  leave (.count f.result) (setResult f.result { s with frames := rest })

/-- TRANSFER from the grant of the lock on (R160): XFER, LOCK_RELEASE, and its return, by way of the error callback when
the count is short. The event of the acquire is already in the trace. -/
def transferOp (cap : CapHandle) (ms : List Msg) (s : State) : State :=
  let s1 := emit .lockRelease (xferOp ms s)
  if s1.dp.result = ms.length then leave (.count s1.dp.result) s1 else errorCallback cap ms s1.dp.result s1

/-- TRANSFER of `ms` (R160), issued as the operation `i`: TRANSFER itself, or the wrapper that hands it its list, whose name
the sequencer holds throughout (R24). The descriptors are checked first; then LOCK_ACQUIRE, which waits while it is blocked
(R180, R190); then XFER, whose BUS_STATE refusal comes with the lock held. -/
def transfer (i : Instr) (cap : CapHandle) (ms : List Msg) (s : State) : Host.Outcome State Fault Refusal :=
  match checkMsgs s.par ms with
  | some r => refuse r s
  | none =>
    if lockBlocked s then .next { s with seq := .lockWait i }
    else
      let s1 := emit .lockAcquire (enter i.op s)
      if s.bus = .idle then .next (transferOp cap ms s1) else refuse .busState s1

/-- TRANSFER (R160). -/
def execTransfer (cap : CapHandle) (ms : List Msg) (s : State) : Host.Outcome State Fault Refusal :=
  transfer (.transfer cap ms) cap ms s

/-- SEND (R162): a TRANSFER of one message, `flags` passed unchanged. -/
def execSend (cap : CapHandle) (addr flags : Nat) (buf : Option BufRef) (len : Nat) (s : State) :
    Host.Outcome State Fault Refusal :=
  transfer (.send cap addr flags buf len) cap [sendMsg addr flags buf len] s

/-- RECV (R163): a TRANSFER of one message with READ forced. -/
def execRecv (cap : CapHandle) (addr flags : Nat) (buf : Option BufRef) (len : Nat) (s : State) :
    Host.Outcome State Fault Refusal :=
  transfer (.recv cap addr flags buf len) cap [recvMsg s.par addr flags buf len] s

/-- SEND_THEN_RECV (R164): a TRANSFER of a WRITE and a READ. -/
def execSendThenRecv (cap : CapHandle) (addr : Nat) (tx : Option BufRef) (txlen : Nat) (rx : Option BufRef) (rxlen : Nat)
    (s : State) : Host.Outcome State Fault Refusal :=
  transfer (.sendThenRecv cap addr tx txlen rx rxlen) cap (sendThenRecvMsgs s.par addr tx txlen rx rxlen) s

/-- SEND_THEN_SEND (R165): a TRANSFER of a WRITE and a WRITE with NO_START. -/
def execSendThenSend (cap : CapHandle) (addr : Nat) (tx1 : Option BufRef) (len1 : Nat) (tx2 : Option BufRef) (len2 : Nat)
    (s : State) : Host.Outcome State Fault Refusal :=
  transfer (.sendThenSend cap addr tx1 len1 tx2 len2) cap (sendThenSendMsgs s.par addr tx1 len1 tx2 len2) s

end Sys2Proof.Machine
end

