-- ==== Sys2Proof/Machine/StartStop.lean ====
section
/-! DEFINITION. i2c_start_stop_ctrl: START, RESTART, STOP (spec/40_start_stop_ctrl.md R99 to R101). -/

namespace Sys2Proof.Machine

/-- START (R99): refused with BUS_STATE unless the bus is idle. -/
def execStart (s : State) : Host.Outcome State Fault Refusal :=
  if s.bus = .idle then .next (finish (startOp (enter .start s))) else refuse .busState s

/-- RESTART (R100): refused with BUS_STATE unless the bus is held. -/
def execRestart (s : State) : Host.Outcome State Fault Refusal :=
  if s.bus = .busHeld then .next (finish (restartOp (enter .restart s))) else refuse .busState s

/-- STOP (R101): refused with BUS_STATE unless the bus is held. -/
def execStop (s : State) : Host.Outcome State Fault Refusal :=
  if s.bus = .busHeld then .next (finish (stopOp (enter .stop s))) else refuse .busState s

end Sys2Proof.Machine
end

