-- ==== Sys2Proof/Machine/Dispatch.lean ====
section
/-! DEFINITION. One arm per operation of the opcode map (spec/30_encoding.md R84). -/

namespace Sys2Proof.Machine

def exec (i : Instr) (s : State) : Host.Outcome State Fault Refusal :=
  match i with
  | .start => Sys2Proof.Machine.execStart s
  | .restart => Sys2Proof.Machine.execRestart s
  | .stop => Sys2Proof.Machine.execStop s
  | .waitAck => Sys2Proof.Machine.execWaitAck s
  | .writeByte byte => Sys2Proof.Machine.execWriteByte byte s
  | .readByte => Sys2Proof.Machine.execReadByte s
  | .sendAckOrNack ack => Sys2Proof.Machine.execSendAckOrNack ack s
  | .sendAddr byte rlim => Sys2Proof.Machine.execSendAddr byte rlim s
  | .addrPhase m => Sys2Proof.Machine.execAddrPhase m s
  | .sendBytes m => Sys2Proof.Machine.execSendBytes m s
  | .recvBytes m => Sys2Proof.Machine.execRecvBytes m s
  | .xfer ms => Sys2Proof.Machine.execXfer ms s
  | .transfer cap ms => Sys2Proof.Machine.execTransfer cap ms s
  | .send cap addr flags buf len => Sys2Proof.Machine.execSend cap addr flags buf len s
  | .recv cap addr flags buf len => Sys2Proof.Machine.execRecv cap addr flags buf len s
  | .sendThenRecv cap addr tx txlen rx rxlen => Sys2Proof.Machine.execSendThenRecv cap addr tx txlen rx rxlen s
  | .sendThenSend cap addr ta la tb lb => Sys2Proof.Machine.execSendThenSend cap addr ta la tb lb s

end Sys2Proof.Machine
end

