-- ==== Sys2Proof/Machine/Sequencer.lean ====
section
/-! DEFINITION. What a step adds around the operation it runs: the command accepted and decoded
(spec/30_encoding.md R76, R85), the return from an error callback (spec/60_exceptions.md R185), and a capability call that
never returns (spec/60_exceptions.md R180). -/

namespace Sys2Proof.Machine

/-- The command the block accepts next, and the state once it is taken: while an error callback runs, the callback's next
call (R185); else the oldest on the port (R76, R93). -/
def accept (s : State) : Option (Command × State) :=
  match s.frames with
  | [] =>
    match s.port with
    | [] => none
    | c :: rest => some (c, { s with port := rest })
  | f :: fs =>
    match f.calls with
    | [] => none
    | c :: rest => some (c, { s with frames := { f with calls := rest } :: fs })

/-- How many capability calls returned in an operation that took `s` to `t`: those it made, but for the ERROR_CALLBACK it
may have been left at. -/
def callsReturned (s t : State) : Nat :=
  callCount t.trace - callCount s.trace - (t.frames.length - s.frames.length)

/-- The block stuck in `i`, entered at `s`, in the capability call after `n` that return (R180 case 2); `t` holds the
history the operation would have made. DESIGN CHOICE (log entry 16): the history of the fault shows the call that does not
return as the event it would have been. A GET_SDA that never returns has been given no answer, and R180 does not say what its
event carries; here it is the answer it would have drawn (`answerAt`), a free value unless the environment has fixed it. -/
def stuck (n : Nat) (i : Instr) (s t : State) : Host.Outcome State Fault Refusal :=
  .fault (.capabilityCallNeverReturns (throughCall (callCount s.trace + n) t.trace)
    (.running i.op s.trace.length))

/-- One operation when only `n` more capability calls return (R180 case 2, log entry 16). The LOCK_ACQUIRE of a TRANSFER
refused with BUS_STATE is one of them (R160). -/
def runBudgeted (n : Nat) (i : Instr) (s : State) : Host.Outcome State Fault Refusal :=
  match exec i s with
  | .next t =>
    if callsReturned s t ≤ n then .next { t with callsLeft := some (n - callsReturned s t) } else stuck n i s t
  | .refused (.refuse why t) => if callsReturned s t ≤ n then .refused (.refuse why t) else stuck n i s t
  | .refused r => .refused r
  | .fault f => .fault f

/-- One operation, run to completion (R25). -/
def runInstr (i : Instr) (s : State) : Host.Outcome State Fault Refusal :=
  match s.callsLeft with
  | none => exec i s
  | some n => runBudgeted n i s

/-- One command, decoded and run (R85). -/
def runCommand (c : Command) (s : State) : Host.Outcome State Fault Refusal :=
  match decode s.par c with
  | .error r => refuse r s
  | .ok i => runInstr i s

/-- The callback of the innermost frame has no more calls to make: it returns, if its call is one of those that do (R180),
and its TRANSFER with it. The bus is idle whenever a TRANSFER returns (R102, R202), and a callback changes no block state (I-5
of spec/93_implementation_defined.md), so one whose calls leave the bus held has broken the host's duty (R206, point 2): no
return is made then (DEDUCED, log entry 18). -/
def runReturn (f : Frame) (rest : List Frame) (s : State) : Host.Outcome State Fault Refusal :=
  if s.callsLeft = some 0 then .fault (.capabilityCallNeverReturns s.trace f.position)
  else
    match s.bus with
    | .idle => .next { callbackReturns f rest s with callsLeft := s.callsLeft.map (· - 1) }
    | .busHeld => .fault .callbackLeftBusHeld

/-- The step at `Ready`: the next command; without one, the return from the error callback; with no callback running,
nothing (log entry 8). -/
def runReady (s : State) : Host.Outcome State Fault Refusal :=
  match accept s with
  | some (c, s1) => runCommand c s1
  | none =>
    match s.frames with
    | [] => .next s
    | f :: rest => runReturn f rest s

/-- The head of the queue the block accepts from (log entry 9). -/
def offerFirst (c : Command) (s : State) : State :=
  match s.frames with
  | [] => { s with port := c :: s.port }
  | f :: fs => { s with frames := { f with calls := c :: f.calls } :: fs }

end Sys2Proof.Machine
end

