-- ==== Sys2Proof/Machine/Step.lean ====
section
/-! DEFINITION. One step of the block (spec/10_state.md R24, R25, spec/60_exceptions.md R178). -/

namespace Sys2Proof.Machine

/-- One step. A refused state takes none (R178). A command is accepted only at `Ready` (R24); at the LOCK_ACQUIRE of
a TRANSFER or a wrapper that operation, and no other, goes on (R180, R190). -/
def step (s : State) : Host.Outcome State Fault Refusal :=
  if s.refused then .refused .alreadyRefused
  else
    match s.seq with
    | .running _ _ => .fault .sequencerNotReady
    | .lockWait i => runInstr i s
    | .ready => runReady s

/-- `s` between operations, with the command of `tableCommand nbits w` the first that it accepts (log entry 9): the next step
decodes and runs exactly it, and whatever was to be accepted before stays behind it. -/
def State.withFetchWord (s : State) (nbits w : Nat) : State :=
  { offerFirst (tableCommand nbits w) s with seq := .ready }

end Sys2Proof.Machine
end

