-- ==== Sys2Proof/Machine/HostMoves.lean ====
section
/-! DEFINITION. What the world outside the block can do, each move between two steps (spec/20_memory.md R66): boot and
creation (spec/70_reset_and_hazards.md R200, R203), commands (spec/30_encoding.md R80), buffers (spec/20_memory.md R45),
the slave's answers (spec/10_state.md R31), the mutex and the error callback (spec/60_exceptions.md R185, R190). -/

namespace Sys2Proof.Machine

/-- Which boot duties the platform has done (R203). -/
structure Boot where
  /-- Step 1: every operation of the capability set is built. -/
  capabilitySet : Bool
  /-- Step 2: the delay unit, if it has been set. -/
  delayUnit : Option Nat
  /-- Step 3: the mutex is created, or the no-op mutex installed. -/
  mutex : Bool
  /-- Step 4: both lines are at the idle high level, and no slave holds one. -/
  linesIdle : Bool
  /-- Step 5: the error callback is installed. -/
  errorCallback : Bool
deriving DecidableEq, Repr

/-- `US <= 2^US_WIDTH - 2` (R96). -/
def usInRange (p : Params) (us : Nat) : Bool := decide (us + 2 ≤ 2 ^ p.usWidth)

/-- Step 6 of the boot (R203): the instance is created in the reset state (R200), and refused with BAD_US for a delay unit
that is too large (R96). DESIGN CHOICE (log entry 24): while another duty is left undone, or the delay unit is not set,
creation is refused as `bootIncomplete`, and BAD_US is tested first; R203 says only that no rule holds then. -/
def createBlock (p : Params) (cap : CapHandle) (b : Boot) : Host.Outcome State Fault Refusal :=
  match b.delayUnit with
  | none => .refused (.notCreated .bootIncomplete)
  | some us =>
    if !usInRange p us then .refused (.notCreated .badUs)
    else if b.capabilitySet && b.mutex && b.linesIdle && b.errorCallback then .next (State.created p cap us)
    else .refused (.notCreated .bootIncomplete)

/-- A caller delivers a command; it waits behind those delivered before (R76, R93). -/
def deliver (c : Command) (s : State) : State := { s with port := s.port ++ [c] }

/-- The error callback to come after those already given will make these calls (R185). -/
def onError (calls : List Command) (s : State) : State := { s with callbacks := s.callbacks ++ [calls] }

/-- Whether a cell lies in the buffer of one of these messages (R45). -/
def inBuffers (ms : List Msg) (a : Nat) : Bool := ms.any fun m => (List.range m.len).any fun j => a == cellAddr m j

/-- The descriptors of the operation that waits for the lock, if one does. -/
def waitingMsgs (s : State) : List Msg :=
  match s.seq with
  | .lockWait i =>
    match apiList s.par i with
    | some (_, ms) => ms
    | none => []
  | .ready => []
  | .running _ _ => []

/-- The descriptors of the operations that have begun and not returned: the TRANSFER that waits for the lock, and those at
their error callback. -/
def openMsgs (s : State) : List Msg := waitingMsgs s ++ s.frames.flatMap Frame.ms

/-- A caller writes a byte of a buffer, between operations or while a TRANSFER waits. There is no such move inside a running
operation, nor on a cell of a buffer that is "exclusively borrowed" (R66, R207 point 1). -/
def hostWrite (a : Nat) (v : Byte) (s : State) : Option State :=
  match s.seq with
  | .running _ _ => none
  | _ => if inBuffers (openMsgs s) a then none else some { s with mem := Memory.write s.mem a v }

/-- A slave model fixes its next answer to a GET_SDA (R31). -/
def fixAnswer (v : Level) (s : State) : State := { s with sdaIn := s.sdaIn ++ [v] }

/-- Another agent's LOCK_ACQUIRE is granted: only while this block does not hold the mutex and no other agent does (R190). -/
def otherAcquires (s : State) : Option State :=
  if s.locked || s.mutexOther then none else some { s with mutexOther := true }

/-- The other agent's LOCK_RELEASE (R190): it lifts the wait of a stuck LOCK_ACQUIRE (R180). -/
def otherReleases (s : State) : State := { s with mutexOther := false }

/-- The platform stops returning after `n` more capability calls (R180 case 2). -/
def callsStop (n : Nat) (s : State) : State := { s with callsLeft := some n }

end Sys2Proof.Machine
end

