-- ==== Sys2Proof/Machine/Line.lean ====
section
/-! DEFINITION. The line model, the bus conditions and the data bits (spec/10_state.md R41 to R43). No operation reads it
(R42): it says what the bus environment sees of a trace. -/

namespace Sys2Proof.Machine

/-- The SCL line level (R41). -/
def sclLine (p : Pins) : Level := p.sclOut

/-- The master's contribution to SDA (R42); `eff` is DIR_SWITCH_EFFECTIVE. -/
def masterSda (eff : Bool) (p : Pins) : Level := if eff && p.sdaDir = .input then true else p.sdaOut

/-- The SDA line level when the bus environment drives `slave` (R42). -/
def sdaLine (eff : Bool) (p : Pins) (slave : Level) : Level := masterSda eff p && slave

/-- The bus conditions (R43). -/
inductive BusCondition where
  | startCondition
  | stopCondition
deriving DecidableEq, Repr

/-- Both lines at one moment: the block's pins, and the level the bus environment drives on SDA (1 is released). -/
structure Bus where
  pins : Pins
  slave : Level
deriving DecidableEq, Repr

/-- The SCL and SDA line levels (R41, R42). -/
def Bus.scl (b : Bus) : Level := sclLine b.pins
def Bus.sda (eff : Bool) (b : Bus) : Level := sdaLine eff b.pins b.slave

/-- What moves a line: an event of the block, or the bus environment driving SDA anew. -/
inductive BusMove where
  | block (e : Event)
  | slave (v : Level)
deriving DecidableEq, Repr

/-- The lines after a move. -/
def BusMove.on : BusMove → Bus → Bus
  | .block e, b => { b with pins := e.onPins b.pins }
  | .slave v, b => { b with slave := v }

/-- The lines after a sequence of moves. -/
def busAfter (xs : List BusMove) (b : Bus) : Bus := xs.foldl (fun b x => x.on b) b

/-- The condition between two successive moments (R43): SDA falls or rises while SCL is 1. -/
def conditionBetween (eff : Bool) (a b : Bus) : List BusCondition :=
  if a.scl && b.scl then
    if a.sda eff && !b.sda eff then [.startCondition]
    else if !a.sda eff && b.sda eff then [.stopCondition]
    else []
  else []

/-- The conditions of a sequence of moves, in order, whoever makes them (R43). None of them is exactly the requirement on
a data bit: SDA does not change while SCL is 1. -/
def conditionsOn (eff : Bool) : Bus → List BusMove → List BusCondition
  | _, [] => []
  | b, x :: xs => conditionBetween eff b (x.on b) ++ conditionsOn eff (x.on b) xs

/-- The data bits of a sequence of moves (R43): the SDA line level of each period in which SCL is 1, taken where SCL
rises. -/
def dataBits (eff : Bool) : Bus → List BusMove → List Level
  | _, [] => []
  | b, x :: xs => (if !b.scl && (x.on b).scl then [(x.on b).sda eff] else []) ++ dataBits eff (x.on b) xs

/-- The conditions of a sequence of events from given pins, while the slave releases SDA. -/
def conditions (eff : Bool) (p : Pins) (es : List Event) : List BusCondition :=
  conditionsOn eff { pins := p, slave := true } (es.map .block)

end Sys2Proof.Machine
end

