-- ==== Sys2Proof/Safety.lean ====
section
/-! DEFINITION. The terms claims about the block are stated in: the events the spec gives each primitive, what a run
shows (spec/10_state.md R29), conformance modulo delays (R30), durations (spec/70_reset_and_hazards.md R210), and the
invariant of the states a run reaches. -/

namespace Sys2Proof.Machine

/-! ### The events of the primitives, written out from their rules -/

/-- START (R99), with HALF = `h`. -/
def startEvents (h : Nat) : List Event := [.sdaDirOut, .sdaSet false, .delay h, .sclSet false]

/-- RESTART (R100). -/
def restartEvents (h : Nat) : List Event :=
  [.sdaDirOut, .sdaSet true, .sclSet true, .sdaSet false, .delay h, .sclSet false]

/-- STOP (R101), with US = `us`. -/
def stopEvents (us : Nat) : List Event := [.sdaDirOut, .sdaSet false, .sclSet true, .sdaSet true, .delay us]

/-- WAIT_ACK (R107), answered `v`. -/
def waitAckEvents (v : Level) : List Event := [.sdaDirIn, .sdaSet true, .sclSet true, .getSda v, .sclSet false]

/-- The bits of a byte as they go on the wire: bit 7 first (R51). -/
def msbFirst (b : Byte) : List Level :=
  [b.getLsbD 7, b.getLsbD 6, b.getLsbD 5, b.getLsbD 4, b.getLsbD 3, b.getLsbD 2, b.getLsbD 1, b.getLsbD 0]

/-- One data clock of WRITE_BYTE (R108). -/
def bitOutEvents (h : Nat) (v : Level) : List Event :=
  [.sclSet false, .sdaSet v, .delay h, .sclSet true, .delay h]

/-- WRITE_BYTE of `b` (R108), answered `v`. -/
def writeByteEvents (h : Nat) (b : Byte) (v : Level) : List Event :=
  .sdaDirOut :: ((msbFirst b).flatMap (bitOutEvents h) ++ ([.sclSet false, .delay h] ++ waitAckEvents v))

/-- One data clock of READ_BYTE (R109). -/
def bitInEvents (us : Nat) (v : Level) : List Event := [.sclSet true, .getSda v, .sclSet false, .delay us]

/-- READ_BYTE with the samples `vs` (R109). -/
def readByteEvents (us : Nat) (vs : List Level) : List Event := .sdaDirIn :: .sdaSet true :: vs.flatMap (bitInEvents us)

/-- SEND_ACK_OR_NACK (R110). -/
def sendAckEvents (h : Nat) (ack : Bool) : List Event :=
  .sdaDirOut :: ((if ack then [.sdaSet false] else []) ++ [.delay h, .sclSet true, .sclSet false])

/-- What SEND_ADDR puts between two attempts (R121). -/
def retryEvents (us : Nat) : List Event := stopEvents us ++ (.delay us :: startEvents (half us))

/-! ### The answers of the bus environment -/

/-- `n` answers, from the `k`-th on. -/
def answersFrom (s : State) (k n : Nat) : List Level := (List.range n).map fun j => answerAt s (k + j)

/-- The value of eight samples, the first being bit 7 (R112). -/
def sampledByte (s : State) (k : Nat) : Byte :=
  BitVec.ofNat 8 ((answerAt s k).toNat * 128 + (answerAt s (k + 1)).toNat * 64 + (answerAt s (k + 2)).toNat * 32 +
    (answerAt s (k + 3)).toNat * 16 + (answerAt s (k + 4)).toNat * 8 + (answerAt s (k + 5)).toNat * 4 +
    (answerAt s (k + 6)).toNat * 2 + (answerAt s (k + 7)).toNat)

/-- The state after `n` answers have been drawn and nothing else done. -/
def drawn (n : Nat) (s : State) : State := { s with sdaIn := s.sdaIn.drop n, draws := s.draws + n }

/-! ### The attempts of SEND_ADDR (R121, R122) -/

/-- Whether SEND_ADDR makes its second attempt, when the first is answered `v`: a NACK with a retry left (R122). -/
def retried (rlim : BitVec 1) (v : Level) : Bool := rlim == 1#1 && v

/-- How many answers SEND_ADDR draws when its first is answer number `k`: one for each attempt (R122). -/
def attempts (s : State) (k : Nat) (rlim : BitVec 1) : Nat := if retried rlim (answerAt s k) then 2 else 1

/-- The acknowledge SEND_ADDR returns: that of its last attempt (R121). -/
def addrAck (s : State) (k : Nat) (rlim : BitVec 1) : Bool :=
  if retried rlim (answerAt s k) then !answerAt s (k + 1) else !answerAt s k

/-- The events of SEND_ADDR of `b` (R121) whose first answer is number `k`. -/
def sendAddrEvents (s : State) (k : Nat) (b : Byte) (rlim : BitVec 1) : List Event :=
  if retried rlim (answerAt s k) then
    writeByteEvents (half s.us) b true ++ (retryEvents s.us ++ writeByteEvents (half s.us) b (answerAt s (k + 1)))
  else writeByteEvents (half s.us) b (answerAt s k)

/-! ### The data phases (R143, R145) -/

/-- The byte a WRITE message sends at index `j` (R52). -/
def sentByte (s : State) (m : Msg) (j : Nat) : Byte := Memory.read s.mem (cellAddr m j)

/-- The events of sending `n` bytes from index `j` on (R57, R143): each cell is read immediately before it is sent. -/
def sendEvents (s : State) (m : Msg) (j n : Nat) : List Event :=
  (List.range n).flatMap fun d =>
    .memRead (cellAddr m (j + d)) (sentByte s m (j + d)) ::
      writeByteEvents (half s.us) (sentByte s m (j + d)) (answerAt s d)

/-- The acknowledge events after the byte of index `j` of a READ message (R146, R147): none with NO_READ_ACK, else ACK
after every byte but the last, which gets NACK. -/
def readAckEvents (s : State) (m : Msg) (j : Nat) : List Event :=
  if noReadAck s.par m then [] else sendAckEvents (half s.us) (decide (j + 1 < m.len))

/-- The events of receiving the `m.len` bytes of a READ message (R57, R145): each is stored before its acknowledge. -/
def recvEvents (s : State) (m : Msg) : List Event :=
  (List.range m.len).flatMap fun j =>
    readByteEvents s.us (answersFrom s (8 * j) 8) ++
      (.memWrite (cellAddr m j) (sampledByte s (8 * j)) :: readAckEvents s m j)

/-! ### Transactions acknowledged throughout (R73) -/

/-- How many answers the address part of an acknowledged message draws: one for each address byte, none with NO_START. -/
def addrAnswers (p : Params) (m : Msg) : Nat :=
  if noStart p m then 0 else if is10bit p m then (if isRead p m then 3 else 2) else 1

/-- How many answers its data part draws: eight samples a byte of a READ message, one acknowledge a byte of a WRITE. -/
def dataAnswers (p : Params) (m : Msg) : Nat := if isRead p m then 8 * m.len else m.len

/-- What the answers must be for a list of messages, from answer number `k` on, to be acknowledged throughout: each
address byte and each byte sent is ACKed at its first attempt; the samples of a byte received are free. -/
def ackedFrom (s : State) : Nat → List Msg → Prop
  | _, [] => True
  | k, m :: ms =>
    (∀ j < addrAnswers s.par m, answerAt s (k + j) = false) ∧
    (isRead s.par m = false → ∀ j < m.len, answerAt s (k + addrAnswers s.par m + j) = false) ∧
    ackedFrom s (k + addrAnswers s.par m + dataAnswers s.par m) ms

/-- The events of the address part of such a message (R128, R142): a Restart if it is not the first, then its address
bytes; nothing at all with NO_START (R155). -/
def ackedAddress (s : State) (first : Bool) (m : Msg) : List Event :=
  if noStart s.par m then []
  else
    (if first then [] else restartEvents (half s.us)) ++
      (if is10bit s.par m then
        writeByteEvents (half s.us) (addrByteHi m) false ++ writeByteEvents (half s.us) (addrByteLo m) false ++
          (if isRead s.par m then
            restartEvents (half s.us) ++ writeByteEvents (half s.us) (addrByteHi m ||| 0x01#8) false
          else [])
      else writeByteEvents (half s.us) (addrByte7 s.par m) false)

/-- The events of its data part (R143, R145 to R147), whose first answer is number `k`, with the buffers at `mem`. -/
def ackedData (s : State) (k : Nat) (mem : Memory) (m : Msg) : List Event :=
  if isRead s.par m then
    (List.range m.len).flatMap fun j =>
      readByteEvents s.us (answersFrom s (k + 8 * j) 8) ++
        (.memWrite (cellAddr m j) (sampledByte s (k + 8 * j)) ::
          if noReadAck s.par m then [] else sendAckEvents (half s.us) (decide (j < m.len - 1)))
  else
    (List.range m.len).flatMap fun j =>
      .memRead (cellAddr m j) (Memory.read mem (cellAddr m j)) ::
        writeByteEvents (half s.us) (Memory.read mem (cellAddr m j)) false

/-- The buffers after its data part: the bytes of a READ message stored in ascending order (R145). -/
def ackedMem (s : State) (k : Nat) (mem : Memory) (m : Msg) : Memory :=
  if isRead s.par m then
    (List.range m.len).foldl (fun mem j => Memory.write mem (cellAddr m j) (sampledByte s (k + 8 * j))) mem
  else mem

/-- The events of such a list between the opening START and the closing STOP (R73), from answer number `k` on, with the
buffers at `mem`. -/
def ackedEvents (s : State) : Nat → Bool → Memory → List Msg → List Event
  | _, _, _, [] => []
  | k, first, mem, m :: ms =>
    ackedAddress s first m ++ ackedData s (k + addrAnswers s.par m) mem m ++
      ackedEvents s (k + addrAnswers s.par m + dataAnswers s.par m) false
        (ackedMem s (k + addrAnswers s.par m) mem m) ms

/-- The buffers after such a list. -/
def ackedMems (s : State) : Nat → Memory → List Msg → Memory
  | _, mem, [] => mem
  | k, mem, m :: ms =>
    ackedMems s (k + addrAnswers s.par m + dataAnswers s.par m) (ackedMem s (k + addrAnswers s.par m) mem m) ms

/-! ### Transactions with any answers (R141 to R152) -/

/-- What one stretch of a transaction comes to: whether it goes on, the answers it draws, its address retries (R121) and
RESTARTs, and its events. -/
structure Leg where
  ok : Bool
  answers : Nat
  retries : Nat
  restarts : Nat
  events : List Event
deriving DecidableEq, Repr

/-- A stretch, as a function of the number of its first answer. -/
abbrev Run := Nat → Leg

/-- One stretch after another: the second is begun only if the first goes on. -/
def Run.andThen (a b : Run) : Run := fun k =>
  let x := a k
  if x.ok then
    let y := b (k + x.answers)
    { ok := y.ok
      answers := x.answers + y.answers
      retries := x.retries + y.retries
      restarts := x.restarts + y.restarts
      events := x.events ++ y.events }
  else x

/-- Nothing at all. -/
def Run.nil : Run := fun _ => { ok := true, answers := 0, retries := 0, restarts := 0, events := [] }

/-- RESTART (R100). -/
def restartRun (s : State) : Run := fun _ =>
  { ok := true, answers := 0, retries := 0, restarts := 1, events := restartEvents (half s.us) }

/-- An address byte sent with retries (R121, R122), whose NACK is fatal unless masked (R126, R127). -/
def sendAddrRun (s : State) (m : Msg) (b : Byte) : Run := fun k =>
  let r := retryLimit s.par m
  { ok := addrAck s k r || ignoreNack s.par m
    answers := attempts s k r
    retries := if retried r (answerAt s k) then 1 else 0
    restarts := 0
    events := sendAddrEvents s k b r }

/-- An address byte written directly (R125). -/
def directByteRun (s : State) (m : Msg) (b : Byte) : Run := fun k =>
  { ok := !answerAt s k || ignoreNack s.par m
    answers := 1
    retries := 0
    restarts := 0
    events := writeByteEvents (half s.us) b (answerAt s k) }

/-- The address phase (R125): one byte, or two, or for a 10-bit READ two, a Restart and the first again with its low bit
set. -/
def addrPhaseRun (s : State) (m : Msg) : Run :=
  if is10bit s.par m then
    (sendAddrRun s m (addrByteHi m)).andThen <| (directByteRun s m (addrByteLo m)).andThen <|
      if isRead s.par m then (restartRun s).andThen (sendAddrRun s m (addrByteHi m ||| 0x01#8)) else Run.nil
  else sendAddrRun s m (addrByte7 s.par m)

/-- The address part of a message (R142): nothing with NO_START; else its Restart, if it is not the first, and its address
phase. -/
def addressRun (s : State) (first : Bool) (m : Msg) : Run :=
  if noStart s.par m then Run.nil
  else if first then addrPhaseRun s m
  else (restartRun s).andThen (addrPhaseRun s m)

/-- How many of the `n` answers from number `k` on come before the first NACK. -/
def acksFrom (s : State) : Nat → Nat → Nat
  | _, 0 => 0
  | k, n + 1 => if answerAt s k then 0 else acksFrom s (k + 1) n + 1

/-- How many bytes of a WRITE message are acknowledged before its first unmasked NACK (R143, R144). -/
def bytesServed (s : State) (m : Msg) (k : Nat) : Nat :=
  if ignoreNack s.par m then m.len else acksFrom s k m.len

/-- The data part of a message with the buffers at `mem` (R143, R145): a READ receives every byte; a WRITE sends the bytes
that are acknowledged and the one that is not. -/
def dataRun (s : State) (mem : Memory) (m : Msg) : Run := fun k =>
  if isRead s.par m then
    { ok := true, answers := 8 * m.len, retries := 0, restarts := 0, events := ackedData s k mem m }
  else
    let n := bytesServed s m k
    let sent := min (n + 1) m.len
    { ok := decide (m.len ≤ n)
      answers := sent
      retries := 0
      restarts := 0
      events := (List.range sent).flatMap fun j =>
        .memRead (cellAddr m j) (Memory.read mem (cellAddr m j)) ::
          writeByteEvents (half s.us) (Memory.read mem (cellAddr m j)) (answerAt s (k + j)) }

/-- One message (R141, R149). -/
def messageRun (s : State) (mem : Memory) (first : Bool) (m : Msg) : Run :=
  (addressRun s first m).andThen (dataRun s mem m)

/-- The buffers after one message: unchanged when its address part aborts. -/
def messageMem (s : State) (mem : Memory) (first : Bool) (m : Msg) (k : Nat) : Memory :=
  let a := addressRun s first m k
  if a.ok then ackedMem s (k + a.answers) mem m else mem

/-- What a list of messages comes to: how many are fully serviced, and the rest as for one stretch, with the buffers it
leaves. -/
structure Ledger where
  served : Nat
  answers : Nat
  retries : Nat
  restarts : Nat
  events : List Event
  mem : Memory
deriving DecidableEq, Repr

/-- The message loop of XFER (R141, R149, R152) from answer number `k` on, with the buffers at `mem`: the messages in
order, up to and including the first that is not fully serviced. Its events lie between the opening START and the closing
STOP. -/
def xferRun (s : State) : Nat → Bool → Memory → List Msg → Ledger
  | _, _, mem, [] => { served := 0, answers := 0, retries := 0, restarts := 0, events := [], mem := mem }
  | k, first, mem, m :: ms =>
    let x := messageRun s mem first m k
    let mem1 := messageMem s mem first m k
    if x.ok then
      let r := xferRun s (k + x.answers) false mem1 ms
      { served := r.served + 1
        answers := x.answers + r.answers
        retries := x.retries + r.retries
        restarts := x.restarts + r.restarts
        events := x.events ++ r.events
        mem := r.mem }
    else
      { served := 0, answers := x.answers, retries := x.retries, restarts := x.restarts, events := x.events, mem := mem1 }

/-- How many answers a list of messages that is acknowledged throughout draws. -/
def listAnswers (p : Params) (ms : List Msg) : Nat := (ms.map fun m => addrAnswers p m + dataAnswers p m).sum

/-! ### What the block does next -/

/-- `NextUp s i t`: what a step of `s` runs is `i`, at `t`. An operation that waits for the lock goes on; between operations
the block takes the next call of the error callback that runs, or, when none runs, the oldest command of the port (R24, R76,
R85, R185). -/
inductive NextUp (s : State) : Instr → State → Prop
  | waiting (i : Instr) : s.seq = .lockWait i → NextUp s i s
  | delivered (c : Command) (rest : List Command) (i : Instr) :
      s.seq = .ready → s.frames = [] → s.port = c :: rest → decode s.par c = .ok i → NextUp s i { s with port := rest }
  | called (f : Frame) (fs : List Frame) (c : Command) (rest : List Command) (i : Instr) :
      s.seq = .ready → s.frames = f :: fs → f.calls = c :: rest → decode s.par c = .ok i →
      NextUp s i { s with frames := { f with calls := rest } :: fs }

/-- The moves of the world outside (Machine/HostMoves.lean) that an instance sees once it is created. -/
inductive HostMove (s : State) : State → Prop
  | deliver (c : Command) : HostMove s (deliver c s)
  | onError (calls : List Command) : HostMove s (onError calls s)
  | write (a : Nat) (v : Byte) (t : State) : hostWrite a v s = some t → HostMove s t
  | fixAnswer (v : Level) : HostMove s (fixAnswer v s)
  | otherAcquires (t : State) : otherAcquires s = some t → HostMove s t
  | otherReleases : HostMove s (otherReleases s)
  | callsStop (n : Nat) : HostMove s (callsStop n s)

/-! ### The sequencer's name for an operation (R24) -/

/-- A position inside TRANSFER as it is when TRANSFER was issued as `i`. -/
def Seq.issuedAs (i : Instr) : Seq → Seq
  | .ready => .ready
  | .lockWait _ => .lockWait i
  | .running _ start => .running i.op start

/-- The same for the frame that an operation entered with `n` frames below it may have been left in. -/
def framesIssuedAs (i : Instr) (n : Nat) : List Frame → List Frame
  | [] => []
  | f :: fs => if n < fs.length + 1 then { f with position := f.position.issuedAs i } :: fs else f :: fs

/-- What TRANSFER, entered at `s`, answers when it is issued as `i`: the same, in every part of the state and of the history,
with `i` for the operation that the sequencer holds, in the frame it leaves, and in the position at which it is refused after
its LOCK_ACQUIRE. -/
def issuedAs (i : Instr) (s : State) : Host.Outcome State Fault Refusal → Host.Outcome State Fault Refusal
  | .next t =>
    .next { t with seq := t.seq.issuedAs i, frames := framesIssuedAs i s.frames.length t.frames }
  | .refused (.refuse why t) =>
    .refused (.refuse why (if t.trace = s.trace then t else { t with seq := t.seq.issuedAs i }))
  | .refused r => .refused r
  | .fault f => .fault f

/-- The states XFER's message loop goes through (R141): where each message is begun, and last the state that EXIT takes. -/
def loopStates : List Msg → State → List State
  | [], s => [s]
  | m :: ms, s =>
    s :: match serviceMsg m s with
      | (some _, t) => [t]
      | (none, t) => loopStates ms t

/-! ### A slave that answers -/

/-- The moves on the bus when a slave answers each sample as recorded: it drives the answer before the clock it belongs to
rises and releases SDA after that clock falls, so it moves SDA only while SCL is 0. -/
def answered : List Event → List BusMove
  | .sclSet true :: .getSda v :: .sclSet false :: es =>
    .slave v :: .block (.sclSet true) :: .block (.getSda v) :: .block (.sclSet false) :: .slave true :: answered es
  | e :: es => .block e :: answered es
  | [] => []

/-- Whether every sample of a sequence of moves is the SDA line level at that moment (R31, R42). -/
def samplesLine (eff : Bool) : Bus → List BusMove → Bool
  | _, [] => true
  | b, .block (.getSda v) :: xs => decide (v = b.sda eff) && samplesLine eff b xs
  | b, x :: xs => samplesLine eff (x.on b) xs

/-! ### What a run shows -/

/-- What can be seen of a run at the block's boundary (R29): the history, the buffers, the returned values. -/
structure Observation where
  trace : List Event
  mem : Memory
  results : List Result
deriving DecidableEq, Repr

/-- The observation of a state. -/
def observe (s : State) : Observation := { trace := s.trace, mem := s.mem, results := s.results }

/-- Whether an event is a DELAY. -/
def isDelay : Event → Bool
  | .delay _ => true
  | .sdaSet _ => false
  | .sclSet _ => false
  | .sdaDirOut => false
  | .sdaDirIn => false
  | .getSda _ => false
  | .lockAcquire => false
  | .lockRelease => false
  | .errorCallback _ => false
  | .memRead _ _ => false
  | .memWrite _ _ => false

/-- Whether an event acts on the bus or on a buffer, as opposed to the lock and the callback (R28). -/
def onBus : Event → Bool
  | .sdaSet _ => true
  | .sclSet _ => true
  | .sdaDirOut => true
  | .sdaDirIn => true
  | .getSda _ => true
  | .delay _ => true
  | .lockAcquire => false
  | .lockRelease => false
  | .errorCallback _ => false
  | .memRead _ _ => true
  | .memWrite _ _ => true

/-- Whether every STOP condition of a list is followed at once by a START condition. -/
def retaken : List BusCondition → Bool
  | [] => true
  | .startCondition :: c => retaken c
  | [.stopCondition] => false
  | .stopCondition :: .stopCondition :: _ => false
  | .stopCondition :: .startCondition :: c => retaken c

/-- Conformance modulo extra delays (R30): the second history is the rule's, the first, with any DELAY events inserted
and any named DELAY replaced by a longer one. -/
def conforms : List Event → List Event → Bool
  | [], [] => true
  | _ :: _, [] => false
  | [], e :: impl => isDelay e && conforms [] impl
  | r :: rule, e :: impl =>
    (match r, e with
      | .delay t, .delay u => decide (t ≤ u)
      | r, e => decide (r = e)) && conforms rule impl ||
    isDelay e && conforms (r :: rule) impl

/-- The same relation as R30 words it: DELAY events inserted anywhere, and any DELAY replaced by a longer one. -/
inductive Delayed (rule : List Event) : List Event → Prop
  | same : Delayed rule rule
  | inserted (pre post : List Event) (t : Nat) : Delayed rule (pre ++ post) → Delayed rule (pre ++ .delay t :: post)
  | longer (pre post : List Event) (t u : Nat) : t ≤ u → Delayed rule (pre ++ .delay t :: post) →
      Delayed rule (pre ++ .delay u :: post)

/-- The time a history takes at least, in microseconds: the sum of its delays (R210). -/
def minDuration : List Event → Nat
  | [] => 0
  | .delay t :: es => t + minDuration es
  | _ :: es => minDuration es

/-- How many clocks a slave counts: the SCL_SET(1) events (R113). -/
def clockCount (es : List Event) : Nat := es.countP (· == .sclSet true)

/-- How many times SDA is sampled (R115). -/
def sampleCount (es : List Event) : Nat := es.countP fun e => e == .getSda true || e == .getSda false

/-! ### Safe states -/

/-- The parts of the state that no operation changes: the configuration (R204) and the environment's own, but for the
error callback's, which TRANSFER takes from. -/
structure SameSetting (s t : State) : Prop where
  par : t.par = s.par
  cap : t.cap = s.cap
  us : t.us = s.us
  refused : t.refused = s.refused
  port : t.port = s.port
  mutexOther : t.mutexOther = s.mutexOther
  callsLeft : t.callsLeft = s.callsLeft

/-- The levels R102 and R157 give between operations: SCL low while the bus is held; SCL and SDA high and SDA an output
while it is idle. -/
def linesOk (s : State) : Prop :=
  (s.bus = .busHeld → s.pins.sclOut = false) ∧ (s.bus = .idle → s.pins = Pins.reset)

/-- The datapath counts fit their registers (R16, R159). -/
def countsFit (s : State) : Prop :=
  s.dp.bytes < 2 ^ s.par.lenWidth ∧ s.dp.remain < 2 ^ s.par.lenWidth ∧
    s.dp.i < 2 ^ s.par.countWidth ∧ s.dp.result < 2 ^ s.par.countWidth

/-- The sequencer between steps (R24): at `Ready`, or at the LOCK_ACQUIRE of a TRANSFER or a wrapper whose operands are in
range. -/
def seqOk (s : State) : Prop :=
  match s.seq with
  | .ready => True
  | .lockWait i => i.wf s.par = true ∧ (apiList s.par i).isSome = true
  | .running _ _ => False

/-- A TRANSFER at its error callback: its messages are in range and its count is short (R152, R161). -/
def frameOk (p : Params) (f : Frame) : Prop := listInRange p f.ms = true ∧ f.result < f.ms.length

/-- The invariant of the states between the steps of a run. -/
structure BlockInv (s : State) : Prop where
  /-- The parameters are within the limits of R7 and R8. -/
  params : s.par.wf = true
  /-- The delay unit is within the limit of R96. -/
  us : usInRange s.par s.us = true
  /-- The levels of R102 and R157. -/
  lines : linesOk s
  /-- "`ENG = Idle` outside XFER" (R21). -/
  eng : s.eng = .idle
  /-- The lock is held only inside a TRANSFER (R22). -/
  locked : s.locked = false
  /-- The sequencer is inside no operation but for one that waits for the lock (R24). -/
  seq : seqOk s
  /-- The TRANSFERs at their error callback are short (R185). -/
  frames : ∀ f ∈ s.frames, frameOk s.par f
  /-- No refused state is reached by a step that answers a next state (R178). -/
  refused : s.refused = false
  /-- Buffer space is in its canonical form. -/
  mem : Memory.wf s.mem = true
  /-- The counts fit their registers. -/
  counts : countsFit s

end Sys2Proof.Machine
end

