-- ==== Sys2Proof/Certificates/Slice0/Obligations.lean ====
section
/-! DEFINITION. The statements about the block, for the provers. -/

open Sys2Proof Sys2Proof.Machine

/-! ### Encoding -/

/-- Decoding the encoding of an instruction whose operands can be written gives it back, for every choice of the
parameters (R79 to R85). -/
def Obligations.DecodeOfEncodeIsTheInstruction : Prop :=
  ∀ (p : Params) (i : Instr), i.wf p = true → decode p (encode i) = .ok i

/-- A command that decodes is the encoding of what it decodes to: no bit of the word is ignored, and each command has
one reading (R79 to R85). -/
def Obligations.DecodedCommandIsItsEncoding : Prop :=
  ∀ (p : Params) (c : Command) (i : Instr), decode p c = .ok i → i.wf p = true ∧ encode i = c

/-- The worked encodings of R92, and further words of R89 and R91, decode as written there. -/
def Obligations.WorkedWordsDecode : Prop :=
  decode .default { word := 0xA005#16, record := .none } = .ok (.writeByte 0xA0#8) ∧
  decode .default { word := 0x0005#16, record := .none } = .ok (.writeByte 0x00#8) ∧
  decode .default { word := 0x0027#16, record := .none } = .ok (.sendAckOrNack true) ∧
  decode .default { word := 0xA028#16, record := .none } = .ok (.sendAddr 0xA0#8 1#1) ∧
  decode .default { word := 0x4108#16, record := .none } = .ok (.sendAddr 0x41#8 0#1) ∧
  decode .default { word := 0x0002#16, record := .none } = .ok .restart ∧
  decode .default { word := 0x0025#16, record := .none } = .error .bNonzero ∧
  decode .default { word := 0x00C1#16, record := .none } = .error .rsvNonzero ∧
  decode .default { word := 0x0012#16, record := .none } = .error .illegalOp ∧
  decode .default { word := 0x0007#16, record := .none } = .ok (.sendAckOrNack false) ∧
  decode .default { word := 0x0010#16, record := .wrRd 7 0x20 (some ⟨0x100, 1⟩) 1 (some ⟨0x200, 2⟩) 2 } =
    .ok (.sendThenRecv 7 0x20 (some ⟨0x100, 1⟩) 1 (some ⟨0x200, 2⟩) 2)

/-- The decoder refuses every word that spells no operation, for every record, with the reason of the first check it
fails, the checks in the order of R85. The fields are read here as numbers: RSV is bits 7:6, OP bits 4:0, IMM8 bits 15:8,
B bit 5 (R79). -/
def Obligations.WordsThatSpellNoOperationAreRefused : Prop :=
  ∀ (p : Params) (w : BitVec 16) (rec : Record),
    let op := w.toNat % 32
    let b := w.toNat / 32 % 2
    let rsv := w.toNat / 64 % 4
    let imm := w.toNat / 256
    (rsv ≠ 0 → decode p ⟨w, rec⟩ = .error .rsvNonzero) ∧
    (rsv = 0 → (op = 0 ∨ 0x12 ≤ op) → decode p ⟨w, rec⟩ = .error .illegalOp) ∧
    (rsv = 0 → 0 < op → op < 0x12 → op ≠ 0x05 → op ≠ 0x08 → imm ≠ 0 → decode p ⟨w, rec⟩ = .error .immNonzero) ∧
    (rsv = 0 → 0 < op → op < 0x12 → (op = 0x05 ∨ op = 0x08 ∨ imm = 0) → op ≠ 0x07 → op ≠ 0x08 → b ≠ 0 →
      decode p ⟨w, rec⟩ = .error .bNonzero)

/-- An instruction's word with a record of another kind, or with none where one is needed, is refused with BAD_OPERANDS
(R80). -/
def Obligations.WrongRecordKindIsRefused : Prop :=
  ∀ (p : Params) (i : Instr) (rec : Record), rec.kind ≠ i.op.recordKind →
    decode p { word := (encode i).word, record := rec } = .error .badOperands

/-- Every number in the record of a command the decoder accepts is in the range of R78. -/
def Obligations.DecodedOperandsAreInRange : Prop :=
  ∀ (p : Params) (c : Command) (i : Instr), decode p c = .ok i →
    match c.record with
    | .none => True
    | .msg m => m.addr < 2 ^ p.addrWidth ∧ m.flags < 2 ^ p.flagsWidth ∧ m.len < 2 ^ p.lenWidth
    | .list ms => ms.length < 2 ^ p.countWidth ∧
        ∀ m ∈ ms, m.addr < 2 ^ p.addrWidth ∧ m.flags < 2 ^ p.flagsWidth ∧ m.len < 2 ^ p.lenWidth
    | .xfer _ ms => ms.length < 2 ^ p.countWidth ∧
        ∀ m ∈ ms, m.addr < 2 ^ p.addrWidth ∧ m.flags < 2 ^ p.flagsWidth ∧ m.len < 2 ^ p.lenWidth
    | .single _ addr flags _ len => addr < 2 ^ p.addrWidth ∧ flags < 2 ^ p.flagsWidth ∧ len < 2 ^ p.lenWidth
    | .wrRd _ addr _ txlen _ rxlen => addr < 2 ^ p.addrWidth ∧ txlen < 2 ^ p.lenWidth ∧ rxlen < 2 ^ p.lenWidth
    | .wrWr _ addr _ len1 _ len2 => addr < 2 ^ p.addrWidth ∧ len1 < 2 ^ p.lenWidth ∧ len2 < 2 ^ p.lenWidth

/-! ### Reset, boot and the step -/

/-- A block instance just created, with any parameters, CAP and US, has the reset values R200 gives, has emitted no event,
holds no command and has no operation open; `reset` is one such instance. -/
def Obligations.ResetValues : Prop :=
  (∀ (par : Params) (cap : CapHandle) (us : Nat),
    let s := State.created par cap us
    s.pins.sclOut = true ∧ s.pins.sdaOut = true ∧ s.pins.sdaDir = .out ∧ s.bus = .idle ∧ s.eng = .idle ∧
      s.locked = false ∧ s.seq = .ready ∧ s.refused = false ∧ s.trace = [] ∧ s.port = [] ∧ s.frames = [] ∧ s.mem = []) ∧
  ∃ (par : Params) (cap : CapHandle) (us : Nat), State.reset = State.created par cap us

/-- The platform creates the instance when every boot duty is done and US fits (R203), and a larger US is refused with
BAD_US (R96). THE MODEL'S CHOICE (log entry 24; R203 says only that no rule holds): with no delay unit set, or with one
that fits and another duty left undone, the instance is not created, for the model's own reason `bootIncomplete`. -/
def Obligations.CreationNeedsBootAndDelayUnit : Prop :=
  ∀ (p : Params) (cap : CapHandle) (b : Boot),
    (∀ us, b.delayUnit = some us → us + 2 ≤ 2 ^ p.usWidth →
      b.capabilitySet = true → b.mutex = true → b.linesIdle = true → b.errorCallback = true →
      createBlock p cap b = .next (State.created p cap us)) ∧
    (∀ us, b.delayUnit = some us → 2 ^ p.usWidth < us + 2 → createBlock p cap b = .refused (.notCreated .badUs)) ∧
    (b.delayUnit = none → createBlock p cap b = .refused (.notCreated .bootIncomplete)) ∧
    (∀ us, b.delayUnit = some us → us + 2 ≤ 2 ^ p.usWidth →
      (b.capabilitySet = false ∨ b.mutex = false ∨ b.linesIdle = false ∨ b.errorCallback = false) →
      createBlock p cap b = .refused (.notCreated .bootIncomplete))

/-- HALF is (US + 1) div 2, that is US / 2 rounded up, and a US above 2^US_WIDTH - 2 is refused when the block is
configured (R96). -/
def Obligations.HalfDelayRoundsUp : Prop :=
  (∀ us : Nat, half us = (us + 1) / 2 ∧ us ≤ 2 * half us ∧ 2 * half us ≤ us + 1) ∧
    [0, 1, 2, 3, 4, 5, 10, 100].map half = [0, 1, 1, 2, 2, 3, 5, 50] ∧
    ∀ (p : Params) (cap : CapHandle) (us : Nat) (b : Boot), b.delayUnit = some us → 2 ^ p.usWidth < us + 2 →
      createBlock p cap b = .refused (.notCreated .badUs)

/-- A step of a block that is not refused runs exactly the operation that is next, at the state with its command taken
(`NextUp`): between operations the one the oldest command delivered decodes to (R24, R76), or, while an error callback runs,
the one its next call decodes to (R185); and at the LOCK_ACQUIRE of a TRANSFER or a wrapper that operation, never another
command (R24, R180). THE MODEL'S CHOICES: the port is a queue (log entry 8); a wait for the lock is a next state and not the
absence of a step (log entry 11); a platform that stops returning calls is a budget of calls (R180 case 2, log entry 16). Under
a budget, an operation that completes, waits or is refused within it does as ever and the budget shrinks by the calls that returned; one
that needs more is stuck, in its own sequencer position, with the history up to and including the first call that does not
return (a GET_SDA with the answer it would have drawn). -/
def Obligations.StepRunsTheDecodedOperation : Prop :=
  ∀ (s u : State) (i : Instr), s.refused = false → NextUp s i u →
    (s.callsLeft = none → step s = exec i u) ∧
    (∀ n, s.callsLeft = some n →
      (∀ t, exec i u = .next t →
        let returned := callCount t.trace - callCount s.trace - (t.frames.length - u.frames.length)
        (returned ≤ n → step s = .next { t with callsLeft := some (n - returned) }) ∧
        (n < returned → ∃ h, step s = .fault (.capabilityCallNeverReturns h (.running i.op s.trace.length)) ∧
          h <+: t.trace ∧ callCount h = callCount s.trace + n + 1)) ∧
      (∀ why t, exec i u = .refused (.refuse why t) →
        let made := callCount t.trace - callCount s.trace
        (made ≤ n → step s = .refused (.refuse why t)) ∧
        (n < made → ∃ h, step s = .fault (.capabilityCallNeverReturns h (.running i.op s.trace.length)) ∧
          h <+: t.trace ∧ callCount h = callCount s.trace + n + 1)))

/-- With nothing delivered and no error callback running, a step changes nothing (log entry 8: the model's choice); a command
that does not decode is refused, and but for the command taken and REFUSED set nothing changes (R178; log entry 10); a refused
state takes no further step (R178), and none is taken inside an operation, since "an operation starts only when
`seq = Ready`" (R24). -/
def Obligations.StepWithoutAnOperation : Prop :=
  ∀ s : State,
    (s.refused = true → step s = .refused .alreadyRefused) ∧
    (s.refused = false → ∀ op n, s.seq = .running op n → step s = .fault .sequencerNotReady) ∧
    (s.refused = false → s.seq = .ready → s.frames = [] → s.port = [] → step s = .next s) ∧
    (∀ c u r, s.refused = false → s.seq = .ready →
      ((∃ rest, s.frames = [] ∧ s.port = c :: rest ∧ u = { s with port := rest }) ∨
        (∃ f fs rest, s.frames = f :: fs ∧ f.calls = c :: rest ∧
          u = { s with frames := { f with calls := rest } :: fs })) →
      decode s.par c = .error r → step s = .refused (.refuse r { u with refused := true }))

/-- The sequencer position (R24; that the step within an operation is counted in events and buffer accesses is the model's
choice, log entry 7): an operation enters at step 0 and each event moves it on by one. The message index is `I` while XFER
counts messages, that is while ENG is not Idle (R21), and there is none outside. When an operation returns the position is
`Ready` again, but for a TRANSFER or a wrapper that waits at its LOCK_ACQUIRE, under the name it was issued by; one that is
refused with the lock held keeps that name as well. -/
def Obligations.PositionFollowsTheOperation : Prop :=
  ∀ s : State,
    (s.position = none ↔ s.seq = .ready) ∧
    let index := if s.eng = .idle then none else some s.dp.i
    (∀ op, (enter op s).position = some { op := op, done := 0, message := index }) ∧
    (∀ op start es, s.seq = .running op start → start ≤ s.trace.length →
      (emits es s).position = some { op := op, done := s.trace.length - start + es.length, message := index }) ∧
    (∀ i t, exec i s = .next t → t.position = none ∨
      (t.seq = .lockWait i ∧ (apiList s.par i).isSome = true ∧
        t.position = some { op := i.op, done := 0, message := none })) ∧
    (∀ i why t, exec i s = .refused (.refuse why t) → t.position = s.position ∨
      ((apiList s.par i).isSome = true ∧ t.position = some { op := i.op, done := 1, message := index }))

/-- Every operation that answers a next state only adds to the history, and the pins and LOCKED are what its events write, the
"state written" column of R28: a SDA_SET the latch, a SCL_SET the clock, SDA_DIR_OUT and SDA_DIR_IN the direction, LOCK_ACQUIRE
and LOCK_RELEASE the lock, and no other event any of them. -/
def Obligations.PinsFollowTheHistory : Prop :=
  (∀ (i : Instr) (s t : State), exec i s = .next t →
    ∃ es, t.trace = s.trace ++ es ∧ t.pins = pinsAfter es s.pins ∧ t.locked = lockedAfter es s.locked) ∧
  (∀ (e : Event) (es : List Event) (p : Pins) (l : Bool),
    pinsAfter (e :: es) p = pinsAfter es
      { sclOut := (match e with | .sclSet v => v | _ => p.sclOut)
        sdaOut := (match e with | .sdaSet v => v | _ => p.sdaOut)
        sdaDir := (match e with | .sdaDirOut => .out | .sdaDirIn => .input | _ => p.sdaDir) } ∧
    lockedAfter (e :: es) l = lockedAfter es (match e with | .lockAcquire => true | .lockRelease => false | _ => l))

/-- The invariant of Safety.lean holds at reset. -/
def Obligations.ResetMeetsInv : Prop := BlockInv State.reset

/-- Every step keeps the invariant: the levels of R102 and R157 (SCL low while the bus is held; the lines high and SDA an
output while it is idle), ENG idle and the lock free between operations (R21, R22), the counts within their registers
(R159), the sequencer at `Ready` or at the LOCK_ACQUIRE of a TRANSFER or a wrapper (R24), every TRANSFER at its error callback short (R161),
buffer space canonical, the parameters and the delay unit within their limits. -/
def Obligations.EveryStepKeepsInv : Prop := ∀ s t : State, BlockInv s → step s = .next t → BlockInv t

/-- The capability set, the delay unit and the parameters stay the same for the whole life of the instance (R23, R204), no
step answers a next state with REFUSED newly set (R178), and none takes or frees the mutex for another agent (R190; that the
other agent acts between steps only is log entry 23). A step takes at most the oldest command of the port (R76, log entry 8)
and the next of the callbacks to come (log entry 18), and delivers none. -/
def Obligations.SettingNeverChanges : Prop :=
  ∀ s t : State, step s = .next t →
    t.par = s.par ∧ t.cap = s.cap ∧ t.us = s.us ∧ t.refused = s.refused ∧ t.mutexOther = s.mutexOther ∧
      (t.port = s.port ∨ t.port = s.port.tail) ∧ (t.callbacks = s.callbacks ∨ t.callbacks = s.callbacks.tail)

/-- What the world outside can do between two steps (R66, R207; log entries 8, 18 and 23) never reaches into an operation that
has begun: its descriptors, its position and every cell of its buffers stay as they are, for a TRANSFER that waits for the
lock and for one at its error callback, and inside a running operation no buffer can be written at all. Nor does it touch the
configuration, the pins, the history or the results, and it keeps the invariant. Between operations a caller can write any
cell. -/
def Obligations.HostMovesSpareOpenOperations : Prop :=
  (∀ s t : State, HostMove s t →
    t.par = s.par ∧ t.cap = s.cap ∧ t.us = s.us ∧ t.pins = s.pins ∧ t.bus = s.bus ∧ t.eng = s.eng ∧ t.locked = s.locked ∧
      t.refused = s.refused ∧ t.dp = s.dp ∧ t.trace = s.trace ∧ t.results = s.results ∧
      t.seq = s.seq ∧ t.frames = s.frames ∧
      (∀ op n, s.seq = .running op n → t.mem = s.mem) ∧
      (∀ i cap ms m j, s.seq = .lockWait i → apiList s.par i = some (cap, ms) → m ∈ ms → j < m.len →
        Memory.read t.mem (cellAddr m j) = Memory.read s.mem (cellAddr m j)) ∧
      (∀ f m j, f ∈ s.frames → m ∈ f.ms → j < m.len →
        Memory.read t.mem (cellAddr m j) = Memory.read s.mem (cellAddr m j)) ∧
      (BlockInv s → BlockInv t)) ∧
  (∀ (s : State) (a : Nat) (v : Byte), s.seq = .ready → s.frames = [] →
    hostWrite a v s = some { s with mem := Memory.write s.mem a v })

/-- A refused operation emits no event, writes no buffer and returns nothing: the final state is the one it was issued in
with REFUSED set. The one exception is the BUS_STATE refusal inside a TRANSFER (or a wrapper), after its LOCK_ACQUIRE
(R160, R178), where the sequencer still names that operation (R24). -/
def Obligations.RefusalChangesNothing : Prop :=
  ∀ (i : Instr) (s t : State) (why : Reason), exec i s = .refused (.refuse why t) →
    t = { s with refused := true } ∨
    (why = .busState ∧ (i.op = .transfer ∨ i.op = .send ∨ i.op = .recv ∨ i.op = .sendThenRecv ∨ i.op = .sendThenSend) ∧
      t = { s with
        refused := true, locked := true, seq := .running i.op s.trace.length, trace := s.trace ++ [.lockAcquire] })

/-! ### The bus conditions and the byte engine -/

/-- START has the word 0x0001 and no record. On an idle bus it completes: it emits SDA_DIR_OUT, SDA_SET(0), DELAY(HALF),
SCL_SET(0), leaves SCL_OUT and SDA_OUT at 0, SDA_DIR at Out and BUS at BusHeld, returns no value and changes nothing else. On
a held bus it is refused with BUS_STATE, and nothing but REFUSED changes (R99). -/
def Obligations.StartTakesTheBus : Prop :=
  encode .start = { word := 0x0001#16, record := .none } ∧
  ∀ s : State,
    (s.bus = .idle → exec .start s = .next { s with
      pins := { sclOut := false, sdaOut := false, sdaDir := .out }
      bus := .busHeld
      seq := .ready
      trace := s.trace ++ [.sdaDirOut, .sdaSet false, .delay (half s.us), .sclSet false] }) ∧
    (s.bus = .busHeld → exec .start s = .refused (.refuse .busState { s with refused := true }))

/-- RESTART has the word 0x0002 and no record. On a held bus it completes: it emits SDA_DIR_OUT, SDA_SET(1), SCL_SET(1),
SDA_SET(0), DELAY(HALF), SCL_SET(0), leaves SCL_OUT and SDA_OUT at 0 and SDA_DIR at Out, returns no value and changes nothing
else; BUS stays BusHeld. On an idle bus it is refused with BUS_STATE, and nothing but REFUSED changes (R100). -/
def Obligations.RestartKeepsTheBus : Prop :=
  encode .restart = { word := 0x0002#16, record := .none } ∧
  ∀ s : State,
    (s.bus = .busHeld → exec .restart s = .next { s with
      pins := { sclOut := false, sdaOut := false, sdaDir := .out }
      seq := .ready
      trace := s.trace ++
        [.sdaDirOut, .sdaSet true, .sclSet true, .sdaSet false, .delay (half s.us), .sclSet false] }) ∧
    (s.bus = .idle → exec .restart s = .refused (.refuse .busState { s with refused := true }))

/-- STOP has the word 0x0003 and no record. On a held bus it completes: it emits SDA_DIR_OUT, SDA_SET(0), SCL_SET(1),
SDA_SET(1), DELAY(US), leaves SCL_OUT and SDA_OUT at 1, SDA_DIR at Out and BUS at Idle, returns no value and changes nothing
else. On an idle bus it is refused with BUS_STATE, and nothing but REFUSED changes (R101). -/
def Obligations.StopReleasesTheBus : Prop :=
  encode .stop = { word := 0x0003#16, record := .none } ∧
  ∀ s : State,
    (s.bus = .busHeld → exec .stop s = .next { s with
      pins := { sclOut := true, sdaOut := true, sdaDir := .out }
      bus := .idle
      seq := .ready
      trace := s.trace ++ [.sdaDirOut, .sdaSet false, .sclSet true, .sdaSet true, .delay s.us] }) ∧
    (s.bus = .idle → exec .stop s = .refused (.refuse .busState { s with refused := true }))

/-- WAIT_ACK has the word 0x0004 and no record. On a held bus it completes: it emits SDA_DIR_IN, SDA_SET(1), SCL_SET(1),
GET_SDA, SCL_SET(0), draws one answer, sets ACKF and returns true exactly when that answer is 0, leaves SDA_DIR at In, SDA_OUT
at 1 and SCL_OUT at 0, and changes nothing else. On an idle bus it is refused with BUS_STATE (R107). -/
def Obligations.WaitAckSamplesTheNinthClock : Prop :=
  encode .waitAck = { word := 0x0004#16, record := .none } ∧
  ∀ (s : State) (v : Level), answerAt s 0 = v →
    (s.bus = .busHeld → exec .waitAck s = .next { drawn 1 s with
      pins := { sclOut := false, sdaOut := true, sdaDir := .input }
      dp := { s.dp with ackf := decide (v = false) }
      seq := .ready
      trace := s.trace ++ [.sdaDirIn, .sdaSet true, .sclSet true, .getSda v, .sclSet false]
      results := s.results ++ [.flag (decide (v = false))] }) ∧
    (s.bus = .idle → exec .waitAck s = .refused (.refuse .busState { s with refused := true }))

/-- WRITE_BYTE of any byte has the word byte * 256 + 5. On a held bus it completes with the events of R108 (the eight bits,
bit 7 first, then WAIT_ACK), returns true exactly when its one sample is 0, whatever the byte (R111), and writes SHIFT, BITCNT,
ACKF and the pins and nothing else. On an idle bus it is refused with BUS_STATE. -/
def Obligations.WriteByteShiftsOutAndReturnsAck : Prop :=
  ∀ (s : State) (byte : Byte) (v : Level), answerAt s 0 = v →
    (encode (.writeByte byte)).word = BitVec.ofNat 16 (byte.toNat * 256 + 5) ∧
    (s.bus = .busHeld → exec (.writeByte byte) s = .next { drawn 1 s with
      pins := { sclOut := false, sdaOut := true, sdaDir := .input }
      dp := { s.dp with shift := byte, bitcnt := 0#4, ackf := decide (v = false) }
      seq := .ready
      trace := s.trace ++ writeByteEvents (half s.us) byte v
      results := s.results ++ [.flag (decide (v = false))] }) ∧
    (s.bus = .idle → exec (.writeByte byte) s = .refused (.refuse .busState { s with refused := true }))

/-- READ_BYTE has the word 0x0006 and no record. On a held bus it completes with the events of R109, draws eight answers,
returns s0*128 + s1*64 + s2*32 + s3*16 + s4*8 + s5*4 + s6*2 + s7 of them (R112), writes SHIFT, BITCNT and the pins and nothing
else, ACKF not touched. On an idle bus it is refused with BUS_STATE. -/
def Obligations.ReadByteShiftsIn : Prop :=
  encode .readByte = { word := 0x0006#16, record := .none } ∧
  ∀ (s : State) (a b c d e f g h : Level), answersFrom s 0 8 = [a, b, c, d, e, f, g, h] →
    let v : Byte := BitVec.ofNat 8 (a.toNat * 128 + b.toNat * 64 + c.toNat * 32 + d.toNat * 16 + e.toNat * 8 +
      f.toNat * 4 + g.toNat * 2 + h.toNat)
    (s.bus = .busHeld → exec .readByte s = .next { drawn 8 s with
      pins := { sclOut := false, sdaOut := true, sdaDir := .input }
      dp := { s.dp with shift := v, bitcnt := 8#4 }
      seq := .ready
      trace := s.trace ++ (.sdaDirIn :: .sdaSet true :: [a, b, c, d, e, f, g, h].flatMap fun x =>
        [.sclSet true, .getSda x, .sclSet false, .delay s.us])
      results := s.results ++ [.byte v] }) ∧
    (s.bus = .idle → exec .readByte s = .refused (.refuse .busState { s with refused := true }))

/-- SEND_ACK_OR_NACK has the word 0x0027 for ACK and 0x0007 for NACK. On a held bus it completes: SDA_DIR_OUT, SDA_SET(0)
only for ACK, DELAY(HALF), SCL_SET(1), SCL_SET(0); a NACK leaves SDA_OUT as it finds it, so after SDA_OUT = 0 the wire shows
ACK. It returns no value and changes nothing else. On an idle bus it is refused with BUS_STATE (R110). -/
def Obligations.SendAckDrivesTheNinthClock : Prop :=
  encode (.sendAckOrNack true) = { word := 0x0027#16, record := .none } ∧
  encode (.sendAckOrNack false) = { word := 0x0007#16, record := .none } ∧
  ∀ s : State,
    (s.bus = .busHeld → exec (.sendAckOrNack true) s = .next { s with
      pins := { sclOut := false, sdaOut := false, sdaDir := .out }
      seq := .ready
      trace := s.trace ++ [.sdaDirOut, .sdaSet false, .delay (half s.us), .sclSet true, .sclSet false] }) ∧
    (s.bus = .busHeld → exec (.sendAckOrNack false) s = .next { s with
      pins := { sclOut := false, sdaOut := s.pins.sdaOut, sdaDir := .out }
      seq := .ready
      trace := s.trace ++ [.sdaDirOut, .delay (half s.us), .sclSet true, .sclSet false] }) ∧
    (s.bus = .idle → ∀ ack, exec (.sendAckOrNack ack) s = .refused (.refuse .busState { s with refused := true }))

/-- The clocks (R113), the events (R114) and the samples (R115) of the primitives, in each state that lets them run. -/
def Obligations.PrimitiveCounts : Prop :=
  ∀ (i : Instr) (s t : State) (byte : Byte) (ack : Bool), exec i s = .next t →
    ∃ es, t.trace = s.trace ++ es ∧
      (i = .start → clockCount es = 0 ∧ callCount es = 4 ∧ sampleCount es = 0) ∧
      (i = .restart → clockCount es = 1 ∧ callCount es = 6 ∧ sampleCount es = 0) ∧
      (i = .stop → clockCount es = 1 ∧ callCount es = 5 ∧ sampleCount es = 0) ∧
      (i = .waitAck → clockCount es = 1 ∧ callCount es = 5 ∧ sampleCount es = 1) ∧
      (i = .writeByte byte → clockCount es = 9 ∧ callCount es = 48 ∧ sampleCount es = 1) ∧
      (i = .readByte → clockCount es = 8 ∧ callCount es = 34 ∧ sampleCount es = 8) ∧
      (i = .sendAckOrNack ack → clockCount es = 1 ∧ callCount es = (if ack then 5 else 4) ∧ sampleCount es = 0)

/-- The least durations R210 gives the primitives and SEND_ADDR, as the sums of their delays. -/
def Obligations.PrimitiveDurations : Prop :=
  ∀ (i : Instr) (s t : State) (byte : Byte) (ack : Bool) (rlim : BitVec 1), exec i s = .next t →
    ∃ es, t.trace = s.trace ++ es ∧
      (i = .start → minDuration es = half s.us) ∧
      (i = .restart → minDuration es = half s.us) ∧
      (i = .stop → minDuration es = s.us) ∧
      (i = .waitAck → minDuration es = 0) ∧
      (i = .writeByte byte → minDuration es = 17 * half s.us) ∧
      (i = .readByte → minDuration es = 8 * s.us) ∧
      (i = .sendAckOrNack ack → minDuration es = half s.us) ∧
      (i = .sendAddr byte rlim → (rlim = 0#1 ∨ answerAt s 0 = false) → minDuration es = 17 * half s.us) ∧
      (i = .sendAddr byte rlim → rlim = 1#1 → answerAt s 0 = true → minDuration es = 35 * half s.us + 2 * s.us)

/-- What each primitive puts on the bus (R104), by the definitions of R43, which the spec marks as general knowledge, when SCL
and SDA stand as R102 and R157 leave them and whatever DIR_SWITCH_EFFECTIVE is: START and RESTART one START condition, STOP one
STOP condition, the byte engine none. That the slave releases SDA throughout is R103's premise ("with the slave releasing
SDA"), which R104 is derived from and does not repeat; that it is R104's as well is the model's reading (DEDUCED, log entry
21). -/
def Obligations.PrimitiveBusConditions : Prop :=
  ∀ (eff : Bool) (i : Instr) (s t : State) (byte : Byte) (ack : Bool), linesOk s → exec i s = .next t →
    ∃ es, t.trace = s.trace ++ es ∧
      (i = .start → conditions eff s.pins es = [.startCondition]) ∧
      (i = .restart → conditions eff s.pins es = [.startCondition]) ∧
      (i = .stop → conditions eff s.pins es = [.stopCondition]) ∧
      (i = .waitAck → conditions eff s.pins es = []) ∧
      (i = .writeByte byte → conditions eff s.pins es = []) ∧
      (i = .readByte → conditions eff s.pins es = []) ∧
      (i = .sendAckOrNack ack → conditions eff s.pins es = [])

/-- The definitions of R43 (which the spec marks as general knowledge), for every level the slave drives (R41, R42): between
two moments with SCL at 1 there is a START condition exactly when SDA falls, a STOP condition exactly when it rises, and
none exactly when it does not change; with SCL at 0 at either moment there is none. A rise of SCL gives one data bit, the
SDA line level, and no other move does. -/
def Obligations.LineChangesAreConditions : Prop :=
  ∀ (eff : Bool) (a b : Bus) (x : BusMove),
    (b.sda eff = (b.slave && (b.pins.sdaOut || (eff && decide (b.pins.sdaDir = .input))))) ∧
    (conditionBetween eff a b = [.startCondition] ↔
      a.pins.sclOut = true ∧ b.pins.sclOut = true ∧ a.sda eff = true ∧ b.sda eff = false) ∧
    (conditionBetween eff a b = [.stopCondition] ↔
      a.pins.sclOut = true ∧ b.pins.sclOut = true ∧ a.sda eff = false ∧ b.sda eff = true) ∧
    (conditionBetween eff a b = [] ↔
      (a.pins.sclOut = true → b.pins.sclOut = true → a.sda eff = b.sda eff)) ∧
    (dataBits eff a [x] = if x = .block (.sclSet true) ∧ a.pins.sclOut = false then [a.sda eff] else [])

/-- The data bits on the wire (R51, R107 to R110, R115), on a held bus with SCL low, whatever DIR_SWITCH_EFFECTIVE is, by the
definitions of R43, which the spec marks as general knowledge. THE MODEL'S CHOICE (log entry 21) is the timing of the slave
(`answered`): it drives each answer before its clock rises and releases SDA after that clock falls, so it moves SDA only while
SCL is 0. With such a slave WRITE_BYTE shows the byte, bit 7 first, and then the acknowledge; READ_BYTE the eight samples;
WAIT_ACK its sample; SEND_ACK_OR_NACK a 0 for ACK and the latch for NACK. That no bit changes while SCL is 1, so that there is
no condition, and that every sample is the SDA line level, hold of that slave only; R31 leaves the answers free. -/
def Obligations.DataBitsOnTheWire : Prop :=
  ∀ (eff : Bool) (i : Instr) (s t : State), linesOk s → exec i s = .next t →
    ∃ es, t.trace = s.trace ++ es ∧
      let bits := dataBits eff ⟨s.pins, true⟩ (answered es)
      let steady := conditionsOn eff ⟨s.pins, true⟩ (answered es) = [] ∧
        samplesLine eff ⟨s.pins, true⟩ (answered es) = true
      (∀ byte, i = .writeByte byte → bits = msbFirst byte ++ [answerAt s 0] ∧ steady) ∧
      (i = .readByte → bits = answersFrom s 0 8 ∧ steady) ∧
      (i = .waitAck → bits = [answerAt s 0] ∧ steady) ∧
      (∀ ack, i = .sendAckOrNack ack → bits = [if ack then false else s.pins.sdaOut] ∧ steady)

/-! ### The address phase -/

/-- The address bytes on the wire (R69, R70, R71): a 7-bit address and R/W; the prefix 11110, address bits 9 and 8, and
R/W 0; address bits 7 to 0. -/
def Obligations.AddressBytesOnTheWire : Prop :=
  ∀ (p : Params) (m : Msg),
    (m.addr ≤ 0x7F → (addrByte7 p m).toNat = 2 * m.addr + (if isRead p m then 1 else 0)) ∧
    (addrByteHi m).toNat = 0xF0 + 2 * (m.addr / 256 % 4) ∧
    ((addrByteHi m) ||| 0x01#8).toNat = 0xF0 + 2 * (m.addr / 256 % 4) + 1 ∧
    (addrByteLo m).toNat = m.addr % 256

/-- SEND_ADDR (R121, R122): one attempt when there is no retry left or the first attempt is acknowledged; after a NACK
with a retry left, Stop, one delay unit, Start, and the second and last attempt. -/
def Obligations.SendAddrRetriesOnce : Prop :=
  ∀ (s : State) (byte : Byte) (rlim : BitVec 1),
    (encode (.sendAddr byte rlim)).word = BitVec.ofNat 16 (byte.toNat * 256 + 8 + rlim.toNat * 32) ∧
    (s.bus = .busHeld → (rlim = 0#1 ∨ answerAt s 0 = false) → exec (.sendAddr byte rlim) s = .next { drawn 1 s with
      pins := { sclOut := false, sdaOut := true, sdaDir := .input }
      dp := { s.dp with shift := byte, bitcnt := 0#4, ackf := !answerAt s 0, tries := 0#1 }
      seq := .ready
      trace := s.trace ++ writeByteEvents (half s.us) byte (answerAt s 0)
      results := s.results ++ [.flag (!answerAt s 0)] }) ∧
    (s.bus = .busHeld → rlim = 1#1 → answerAt s 0 = true → exec (.sendAddr byte rlim) s = .next { drawn 2 s with
      pins := { sclOut := false, sdaOut := true, sdaDir := .input }
      dp := { s.dp with shift := byte, bitcnt := 0#4, ackf := !answerAt s 1, tries := 1#1 }
      seq := .ready
      trace := s.trace ++ writeByteEvents (half s.us) byte true ++ stopEvents s.us ++ [.delay s.us] ++
        startEvents (half s.us) ++ writeByteEvents (half s.us) byte (answerAt s 1)
      results := s.results ++ [.flag (!answerAt s 1)] }) ∧
    (s.bus = .idle → exec (.sendAddr byte rlim) s = .refused (.refuse .busState { s with refused := true }))

/-- ADDR_PHASE of a well-formed descriptor on a held bus completes (R125 to R127): the 7-bit form sends one address byte;
the 10-bit form sends the first byte, then, unless its NACK is unmasked, the second, then for a READ and unless the second's
NACK is unmasked, a Restart and the first byte with its low bit set. The result is false on the first unmasked NACK and
true otherwise. With IGNORE_NACK the retry limit is 0 (R37), so each byte is tried once. -/
def Obligations.AddrPhaseSendsTheAddress : Prop :=
  ∀ (s : State) (m : Msg), s.bus = .busHeld → checkMsg s.par m = none →
    let ign := ignoreNack s.par m
    let r : BitVec 1 := if ign then 0#1 else 1#1
    ∃ (t : State) (ok : Bool) (es : List Event), exec (.addrPhase m) s = .next t ∧
      t.trace = s.trace ++ es ∧ t.results = s.results ++ [.flag ok] ∧ t.seq = .ready ∧
      (is10bit s.par m = false →
        es = sendAddrEvents s 0 (addrByte7 s.par m) r ∧ ok = (addrAck s 0 r || ign)) ∧
      (is10bit s.par m = true → addrAck s 0 r = false → ign = false →
        es = sendAddrEvents s 0 (addrByteHi m) r ∧ ok = false) ∧
      (is10bit s.par m = true → (addrAck s 0 r || ign) = true →
        let k := attempts s 0 r
        let es2 := sendAddrEvents s 0 (addrByteHi m) r ++ writeByteEvents (half s.us) (addrByteLo m) (answerAt s k)
        let ok2 := !answerAt s k || ign
        (ok2 = false → es = es2 ∧ ok = false) ∧
        (ok2 = true → isRead s.par m = false → es = es2 ∧ ok = true) ∧
        (ok2 = true → isRead s.par m = true →
          es = es2 ++ restartEvents (half s.us) ++ sendAddrEvents s (k + 1) (addrByteHi m ||| 0x01#8) r ∧
          ok = (addrAck s (k + 1) r || ign)))

/-- What ADDR_PHASE leaves unchanged: buffers, bus, engine state, lock, the byte counts, `I` and `RESULT`, the setting;
SCL is low at its end (R102, R125). -/
def Obligations.AddrPhaseFrame : Prop :=
  ∀ (s t : State) (m : Msg), exec (.addrPhase m) s = .next t →
    SameSetting s t ∧ t.callbacks = s.callbacks ∧ t.frames = s.frames ∧ t.mem = s.mem ∧ t.bus = s.bus ∧ t.eng = s.eng ∧
      t.locked = s.locked ∧ t.pins.sclOut = false ∧
      t.dp.bytes = s.dp.bytes ∧ t.dp.remain = s.dp.remain ∧ t.dp.i = s.dp.i ∧ t.dp.result = s.dp.result ∧
      (∀ a, Memory.read t.mem a = Memory.read s.mem a)

/-! ### Descriptor checks -/

/-- An operation that takes descriptors refuses before its first event when one of them is ill-formed (R38): a flags bit
outside the named flags, a 7-bit address above 0x7F, or a length above 0 with a null or too short buffer. A list operation
checks every descriptor of its list. TRANSFER, and so each wrapper (R162 to R165), does so on a held bus as well, before
BUS_STATE: that is the model's reading (log entry 13) of R160's pseudocode, which checks before XFER, against the general order
of R183. -/
def Obligations.IllFormedDescriptorIsRefused : Prop :=
  ∀ (s : State) (m : Msg) (ms : List Msg) (cap : CapHandle),
    ((∃ k, m.flags.testBit k = true ∧ s.par.allFlags.testBit k = false) ∨
      (is10bit s.par m = false ∧ 0x7F < m.addr) ∨
      (0 < m.len ∧ (m.buf = none ∨ ∃ b, m.buf = some b ∧ b.size < m.len))) →
    m ∈ ms →
    ∃ r1 r2, (r1 = .badFlags ∨ r1 = .badAddr7 ∨ r1 = .badBuf) ∧ (r2 = .badFlags ∨ r2 = .badAddr7 ∨ r2 = .badBuf) ∧
      (s.bus = .busHeld →
        exec (.addrPhase m) s = .refused (.refuse r1 { s with refused := true }) ∧
        exec (.sendBytes m) s = .refused (.refuse r1 { s with refused := true }) ∧
        exec (.recvBytes m) s = .refused (.refuse r1 { s with refused := true })) ∧
      (s.bus = .idle → exec (.xfer ms) s = .refused (.refuse r2 { s with refused := true })) ∧
      exec (.transfer cap ms) s = .refused (.refuse r2 { s with refused := true })

/-- The order of the refusals of an operation that takes one descriptor (R183): BUS_STATE, then BAD_FLAGS, BAD_ADDR7,
BAD_BUF, then DIR_MISMATCH. A descriptor that fails none of the three tests of R38 passes the check; so does a list of which
every descriptor passes; and the first of a list to fail gives the list's reason (R38, R183). -/
def Obligations.RefusalOrder : Prop :=
  ∀ (s : State) (m : Msg),
    let refused (r : Reason) : Host.Outcome State Fault Refusal := .refused (.refuse r { s with refused := true })
    let namedOnly := ∀ k, m.flags.testBit k = true → s.par.allFlags.testBit k = true
    let addrOk := is10bit s.par m = true ∨ m.addr ≤ 0x7F
    (s.bus = .idle →
      exec (.addrPhase m) s = refused .busState ∧ exec (.sendBytes m) s = refused .busState ∧
        exec (.recvBytes m) s = refused .busState) ∧
    (s.bus = .busHeld → ∀ r, checkMsg s.par m = some r →
      exec (.addrPhase m) s = refused r ∧ exec (.sendBytes m) s = refused r ∧ exec (.recvBytes m) s = refused r) ∧
    (s.bus = .busHeld → checkMsg s.par m = none → isRead s.par m = true → exec (.sendBytes m) s = refused .dirMismatch) ∧
    (s.bus = .busHeld → checkMsg s.par m = none → isRead s.par m = false → exec (.recvBytes m) s = refused .dirMismatch) ∧
    ((∃ k, m.flags.testBit k = true ∧ s.par.allFlags.testBit k = false) → checkMsg s.par m = some .badFlags) ∧
    (namedOnly → is10bit s.par m = false → 0x7F < m.addr → checkMsg s.par m = some .badAddr7) ∧
    (namedOnly → addrOk → 0 < m.len → (m.buf = none ∨ ∃ b, m.buf = some b ∧ b.size < m.len) →
      checkMsg s.par m = some .badBuf) ∧
    (namedOnly → addrOk → (m.len = 0 ∨ ∃ b, m.buf = some b ∧ m.len ≤ b.size) → checkMsg s.par m = none) ∧
    (∀ ms, (∀ x ∈ ms, checkMsg s.par x = none) → checkMsgs s.par ms = none) ∧
    (∀ pre post r, (∀ x ∈ pre, checkMsg s.par x = none) → checkMsg s.par m = some r →
      checkMsgs s.par (pre ++ m :: post) = some r)

/-! ### The data phases -/

/-- SEND_BYTES of a WRITE descriptor (R143, R144) when no unmasked NACK comes: every byte is read, sent and counted, in
ascending order, and the result is LEN. Nothing else changes but SDA, SCL and the byte engine's registers. -/
def Obligations.SendBytesSendsAll : Prop :=
  ∀ (s : State) (m : Msg), s.bus = .busHeld → checkMsg s.par m = none → isRead s.par m = false →
    (ignoreNack s.par m = true ∨ ∀ j < m.len, answerAt s j = false) →
    ∃ t, exec (.sendBytes m) s = .next t ∧ SameSetting s t ∧ t.callbacks = s.callbacks ∧ t.frames = s.frames ∧
      t.trace = s.trace ++ (List.range m.len).flatMap (fun j =>
        .memRead (cellAddr m j) (Memory.read s.mem (cellAddr m j)) ::
          writeByteEvents (half s.us) (Memory.read s.mem (cellAddr m j)) (answerAt s j)) ∧
      t.results = s.results ++ [.count m.len] ∧ t.dp.bytes = m.len ∧ t.dp.remain = 0 ∧
      t.mem = s.mem ∧ t.bus = s.bus ∧ t.eng = s.eng ∧ t.locked = s.locked ∧ t.seq = .ready ∧
      t.sdaIn = s.sdaIn.drop m.len ∧ t.draws = s.draws + m.len ∧
      t.dp.addr1 = s.dp.addr1 ∧ t.dp.addr2 = s.dp.addr2 ∧ t.dp.rlim = s.dp.rlim ∧ t.dp.tries = s.dp.tries ∧
      t.dp.i = s.dp.i ∧ t.dp.result = s.dp.result

/-- SEND_BYTES of a WRITE descriptor without IGNORE_NACK when byte `j` is the first that is not acknowledged (R143, R144):
bytes 0 to `j` are read and sent and no later byte is, and the result is `j`. -/
def Obligations.SendBytesStopsAtNack : Prop :=
  ∀ (s : State) (m : Msg) (j : Nat), s.bus = .busHeld → checkMsg s.par m = none → isRead s.par m = false →
    ignoreNack s.par m = false → j < m.len → answerAt s j = true → (∀ d < j, answerAt s d = false) →
    ∃ t, exec (.sendBytes m) s = .next t ∧ SameSetting s t ∧ t.callbacks = s.callbacks ∧ t.frames = s.frames ∧
      t.trace = s.trace ++ (List.range (j + 1)).flatMap (fun d =>
        .memRead (cellAddr m d) (Memory.read s.mem (cellAddr m d)) ::
          writeByteEvents (half s.us) (Memory.read s.mem (cellAddr m d)) (answerAt s d)) ∧
      t.results = s.results ++ [.count j] ∧ t.dp.ackf = false ∧
      t.mem = s.mem ∧ t.bus = s.bus ∧ t.eng = s.eng ∧ t.locked = s.locked ∧ t.seq = .ready ∧
      t.sdaIn = s.sdaIn.drop (j + 1) ∧ t.draws = s.draws + (j + 1) ∧
      t.dp.addr1 = s.dp.addr1 ∧ t.dp.addr2 = s.dp.addr2 ∧ t.dp.rlim = s.dp.rlim ∧ t.dp.tries = s.dp.tries ∧
      t.dp.i = s.dp.i ∧ t.dp.result = s.dp.result

/-- RECV_BYTES of a READ descriptor (R145 to R148): it always receives LEN bytes and returns LEN; the byte of index `j`
has the value of its eight samples and is stored in cell `BUF + j`, before its acknowledge; ACK follows every byte but the
last and NACK the last, or nothing follows any byte with NO_READ_ACK. Every other cell reads as before, and the
acknowledge bit and the address registers are untouched. -/
def Obligations.RecvBytesStoresAll : Prop :=
  ∀ (s : State) (m : Msg), s.bus = .busHeld → checkMsg s.par m = none → isRead s.par m = true →
    Memory.wf s.mem = true →
    ∃ t, exec (.recvBytes m) s = .next t ∧ SameSetting s t ∧ t.callbacks = s.callbacks ∧ t.frames = s.frames ∧
      t.trace = s.trace ++ (List.range m.len).flatMap (fun j =>
        readByteEvents s.us (answersFrom s (8 * j) 8) ++
          (.memWrite (cellAddr m j) (sampledByte s (8 * j)) ::
            if noReadAck s.par m then [] else sendAckEvents (half s.us) (decide (j < m.len - 1)))) ∧
      t.results = s.results ++ [.count m.len] ∧
      (∀ j < m.len, Memory.read t.mem (cellAddr m j) = sampledByte s (8 * j)) ∧
      (∀ a, (∀ j < m.len, a ≠ cellAddr m j) → Memory.read t.mem a = Memory.read s.mem a) ∧
      Memory.wf t.mem = true ∧ t.bus = s.bus ∧ t.eng = s.eng ∧ t.locked = s.locked ∧ t.seq = .ready ∧
      t.sdaIn = s.sdaIn.drop (8 * m.len) ∧ t.draws = s.draws + 8 * m.len ∧
      t.dp.ackf = s.dp.ackf ∧ t.dp.addr1 = s.dp.addr1 ∧ t.dp.addr2 = s.dp.addr2 ∧ t.dp.rlim = s.dp.rlim ∧
      t.dp.tries = s.dp.tries ∧ t.dp.i = s.dp.i ∧ t.dp.result = s.dp.result

/-! ### Buffer space -/

/-- `MemRead` returns the byte of its cell and changes nothing, `MemWrite` sets that cell and no other, and both are
recorded in the history (R46); the canonical form is kept. -/
def Obligations.BufferReadAndWrite : Prop :=
  ∀ (s : State) (a : Nat) (v : Byte),
    memRead a s = { s with trace := s.trace ++ [.memRead a (Memory.read s.mem a)] } ∧
    (memWrite a v s).trace = s.trace ++ [.memWrite a v] ∧
    (Memory.wf s.mem = true →
      Memory.wf (memWrite a v s).mem = true ∧ Memory.read (memWrite a v s).mem a = v) ∧
    (∀ c, c ≠ a → Memory.read (memWrite a v s).mem c = Memory.read s.mem c)

/-- Only the buffers of READ messages are ever written (R47): after any operation, every cell that lies in no READ
message's first LEN cells reads as before. The READ messages are RECV_BYTES' descriptor, those of a list, and those the
wrappers build. -/
def Obligations.OnlyReadBuffersAreWritten : Prop :=
  ∀ (i : Instr) (s t : State) (a : Nat), exec i s = .next t →
    (∀ m j, isRead s.par m = true → j < m.len →
      (i = .recvBytes m ∨ (∃ ms, i = .xfer ms ∧ m ∈ ms) ∨ (∃ cap ms, i = .transfer cap ms ∧ m ∈ ms) ∨
        (∃ cap addr flags buf len, i = .send cap addr flags buf len ∧ m = sendMsg addr flags buf len) ∨
        (∃ cap addr flags buf len, i = .recv cap addr flags buf len ∧ m = recvMsg s.par addr flags buf len) ∨
        (∃ cap addr tx txlen rx rxlen, i = .sendThenRecv cap addr tx txlen rx rxlen ∧
          m ∈ sendThenRecvMsgs s.par addr tx txlen rx rxlen) ∨
        (∃ cap addr tx1 len1 tx2 len2, i = .sendThenSend cap addr tx1 len1 tx2 len2 ∧
          m ∈ sendThenSendMsgs s.par addr tx1 len1 tx2 len2)) → a ≠ cellAddr m j) →
    Memory.read t.mem a = Memory.read s.mem a

/-! ### XFER -/

/-- XFER of well-formed messages on an idle bus completes, and whichever path it takes it leaves the bus idle, ENG idle,
both lines high and SDA an output (R157); its events begin with those of the opening START and end with those of the
closing STOP (R151, R154); its result is at most N (R152). The lock, the setting and the answers already given are
untouched. -/
def Obligations.XferLeavesTheBusIdle : Prop :=
  ∀ (s : State) (ms : List Msg), s.bus = .idle → checkMsgs s.par ms = none →
    ∃ (t : State) (mid : List Event) (n : Nat), exec (.xfer ms) s = .next t ∧ SameSetting s t ∧
      t.callbacks = s.callbacks ∧ t.frames = s.frames ∧
      t.bus = .idle ∧ t.eng = .idle ∧ t.pins = { sclOut := true, sdaOut := true, sdaDir := .out } ∧
      t.locked = s.locked ∧ t.seq = .ready ∧
      t.trace = s.trace ++ (startEvents (half s.us) ++ mid ++ stopEvents s.us) ∧
      t.results = s.results ++ [.count n] ∧ n ≤ ms.length

/-- XFER of no message is the opening START and the closing STOP, with result 0 (R141); on a held bus XFER is refused. -/
def Obligations.XferOfNothing : Prop :=
  ∀ s : State,
    (s.bus = .idle → ∃ t, exec (.xfer []) s = .next t ∧
      t.trace = s.trace ++ startEvents (half s.us) ++ stopEvents s.us ∧ t.results = s.results ++ [.count 0]) ∧
    (s.bus = .busHeld → ∀ ms, exec (.xfer ms) s = .refused (.refuse .busState { s with refused := true }))

/-- XFER of well-formed messages on an idle bus, for every sequence of answers (R141 to R149, R151, R152, R158): its history
is the opening START, the events of the ledger `xferRun`, and the closing STOP; its result is the number of messages fully
serviced; the buffers hold what the READ messages serviced received, and nothing else is written; and it draws exactly the
ledger's answers. The ledger takes the messages in order, each from its own answers, up to and including the first that is not
fully serviced, and no later message adds an event or touches a buffer. -/
def Obligations.XferFollowsItsLedger : Prop :=
  ∀ (s : State) (ms : List Msg), s.bus = .idle → checkMsgs s.par ms = none →
    let r := xferRun s 0 true s.mem ms
    ∃ t, exec (.xfer ms) s = .next t ∧
      t.trace = s.trace ++ (startEvents (half s.us) ++ r.events ++ stopEvents s.us) ∧
      t.results = s.results ++ [.count r.served] ∧ t.mem = r.mem ∧
      ∀ n, answerAt t n = answerAt s (r.answers + n)

/-- An unmasked NACK of an address byte ends the transaction, in a message of any index whose predecessors were acknowledged
(R126, R149, R151, R152, R158, R184): in the one byte of a 7-bit address, NACKed twice; in the first byte of a 10-bit address,
NACKed twice; in its second byte, which has no retry; and in the re-sent first byte of a 10-bit READ, NACKed twice. The result
is the index of the message, the closing STOP follows the NACK at once, the buffers hold what the messages before it
received, and the history has no event of its data phase or of any later message. -/
def Obligations.AddressNackAborts : Prop :=
  ∀ (s : State) (pre post : List Msg) (m : Msg), s.bus = .idle → checkMsgs s.par (pre ++ m :: post) = none →
    ackedFrom s 0 pre → noStart s.par m = false → ignoreNack s.par m = false →
    let k := listAnswers s.par pre
    let h := half s.us
    let twice (b : Byte) : List Event := writeByteEvents h b true ++ stopEvents s.us ++ [.delay s.us] ++ startEvents h ++
      writeByteEvents h b true
    let aborted (es : List Event) : Prop := ∃ t, exec (.xfer (pre ++ m :: post)) s = .next t ∧
      t.results = s.results ++ [.count pre.length] ∧ t.mem = ackedMems s 0 s.mem pre ∧
      t.trace = s.trace ++ (startEvents h ++ ackedEvents s 0 true s.mem pre ++
        ((if pre.isEmpty then [] else restartEvents h) ++ es) ++ stopEvents s.us)
    (is10bit s.par m = false → answerAt s k = true → answerAt s (k + 1) = true → aborted (twice (addrByte7 s.par m))) ∧
    (is10bit s.par m = true → answerAt s k = true → answerAt s (k + 1) = true → aborted (twice (addrByteHi m))) ∧
    (is10bit s.par m = true → answerAt s k = false → answerAt s (k + 1) = true →
      aborted (writeByteEvents h (addrByteHi m) false ++ writeByteEvents h (addrByteLo m) true)) ∧
    (is10bit s.par m = true → isRead s.par m = true → answerAt s k = false → answerAt s (k + 1) = false →
      answerAt s (k + 2) = true → answerAt s (k + 3) = true →
      aborted (writeByteEvents h (addrByteHi m) false ++ writeByteEvents h (addrByteLo m) false ++ restartEvents h ++
        twice (addrByteHi m ||| 0x01#8)))

/-- An unmasked NACK of byte `j` of a WRITE message ends the transaction, in a message of any index whose predecessors and
whose address were acknowledged (R143, R149, R151, R152, R158, R184): its buffer is read up to and including byte `j`, the
closing STOP follows the NACK at once, the result is the index of the message, the buffers hold what the messages before it
received, and the history has no event of any later message. -/
def Obligations.DataNackAborts : Prop :=
  ∀ (s : State) (pre post : List Msg) (m : Msg) (j : Nat), s.bus = .idle → checkMsgs s.par (pre ++ m :: post) = none →
    ackedFrom s 0 pre → isRead s.par m = false → ignoreNack s.par m = false →
    (∀ d < addrAnswers s.par m, answerAt s (listAnswers s.par pre + d) = false) →
    let k := listAnswers s.par pre + addrAnswers s.par m
    let mem := ackedMems s 0 s.mem pre
    j < m.len → answerAt s (k + j) = true → (∀ d < j, answerAt s (k + d) = false) →
    ∃ t, exec (.xfer (pre ++ m :: post)) s = .next t ∧
      t.results = s.results ++ [.count pre.length] ∧ t.mem = mem ∧
      t.trace = s.trace ++ (startEvents (half s.us) ++ ackedEvents s 0 true s.mem pre ++
        (ackedAddress s pre.isEmpty m ++ (List.range (j + 1)).flatMap fun d =>
          .memRead (cellAddr m d) (Memory.read mem (cellAddr m d)) ::
            writeByteEvents (half s.us) (Memory.read mem (cellAddr m d)) (decide (d = j))) ++ stopEvents s.us)

/-- A list whose messages all have IGNORE_NACK set is fully serviced whatever the slave answers (R156). -/
def Obligations.IgnoreNackCompletes : Prop :=
  ∀ (s : State) (ms : List Msg), s.bus = .idle → checkMsgs s.par ms = none →
    (∀ m ∈ ms, ignoreNack s.par m = true) →
    ∃ t, exec (.xfer ms) s = .next t ∧ t.results = s.results ++ [.count ms.length]

/-- A transaction that is acknowledged throughout (R73, R128, R142 to R147, R155): the history of XFER is the opening START,
for each message its Restart and address bytes (none with NO_START) and its data frames, and the closing STOP; every message
is serviced, and the buffers hold what the READ messages received. -/
def Obligations.AcknowledgedTransaction : Prop :=
  ∀ (s : State) (ms : List Msg), s.bus = .idle → checkMsgs s.par ms = none → ackedFrom s 0 ms →
    ∃ t, exec (.xfer ms) s = .next t ∧
      t.trace = s.trace ++ (startEvents (half s.us) ++ ackedEvents s 0 true s.mem ms ++ stopEvents s.us) ∧
      t.mem = ackedMems s 0 s.mem ms ∧ t.results = s.results ++ [.count ms.length]

/-- Whatever the slave answers, and as the bus shows it while the slave releases SDA (the premise of R103; log entry 21), the
conditions of an XFER begin with the opening START and end with the closing STOP, and every STOP before that one is an address
retry's: a START follows it at once (R129, R151, R153). -/
def Obligations.EveryStopBeforeTheLastIsARetrys : Prop :=
  ∀ (eff : Bool) (s t : State) (ms : List Msg), linesOk s → exec (.xfer ms) s = .next t →
    ∃ es c, t.trace = s.trace ++ es ∧ retaken c = true ∧
      conditions eff s.pins es = .startCondition :: (c ++ [.stopCondition])

/-- The condition counts of R153, for every sequence of answers, while the slave releases SDA (log entry 21): with `r` the
address retries taken, an XFER puts `1 + r` STOP conditions on the bus, and `1 + r` START conditions besides one for each
RESTART. -/
def Obligations.XferConditionCounts : Prop :=
  ∀ (eff : Bool) (s t : State) (ms : List Msg), linesOk s → exec (.xfer ms) s = .next t →
    let r := xferRun s 0 true s.mem ms
    ∃ es, t.trace = s.trace ++ es ∧
      (conditions eff s.pins es).count .stopCondition = 1 + r.retries ∧
      (conditions eff s.pins es).count .startCondition = 1 + r.retries + r.restarts

/-- In every XFER that takes no address retry there is exactly one STOP condition, and it is the last; every condition before
it is a START condition, of the opening START or of a RESTART (R153), whatever DIR_SWITCH_EFFECTIVE is and while the slave
releases SDA (log entry 21). No retry is taken when the list is acknowledged throughout, nor when every message has
IGNORE_NACK or NO_START set. -/
def Obligations.OneStopWithoutRetry : Prop :=
  ∀ (eff : Bool) (s t : State) (ms : List Msg), linesOk s → exec (.xfer ms) s = .next t →
    let r := xferRun s 0 true s.mem ms
    (r.retries = 0 → ∃ es, t.trace = s.trace ++ es ∧
      conditions eff s.pins es = List.replicate (1 + r.restarts) .startCondition ++ [.stopCondition]) ∧
    (ackedFrom s 0 ms → r.retries = 0) ∧
    ((∀ m ∈ ms, ignoreNack s.par m = true ∨ noStart s.par m = true) → r.retries = 0)

/-! ### TRANSFER and the wrappers -/

/-- TRANSFER of well-formed messages on an idle bus, when the lock is granted, is XFER between LOCK_ACQUIRE and
LOCK_RELEASE; one ERROR_CALLBACK, with the CAP given, follows exactly when XFER's result is not N, and XFER's own events hold
no lock event and no callback (R160, R161, R167). It returns XFER's result: at once when the callback is not invoked or calls
nothing. THE MODEL'S CHOICE (log entry 18, read from R185, which says only that a callback may call the block again) is the
form of what follows otherwise, and the list `callbacks` from which the callback's calls are taken: the TRANSFER stands at its
callback in a frame, its result withheld, the lock free and the sequencer ready for the callback's calls. -/
def Obligations.TransferIsLockedXfer : Prop :=
  ∀ (s : State) (cap : CapHandle) (ms : List Msg), s.bus = .idle → checkMsgs s.par ms = none →
    (s.par.mutexBlocks = false ∨ s.mutexOther = false) →
    ∃ (t : State) (es : List Event) (n : Nat), exec (.xfer ms) s = .next t ∧ t.trace = s.trace ++ es ∧
      (∀ e ∈ es, e ≠ .lockAcquire ∧ e ≠ .lockRelease ∧ ∀ c, e ≠ .errorCallback c) ∧
      t.results = s.results ++ [.count n] ∧
      (n = ms.length → exec (.transfer cap ms) s = .next { t with
        locked := false
        trace := s.trace ++ (.lockAcquire :: es ++ [.lockRelease]) }) ∧
      (n ≠ ms.length → (s.callbacks = [] ∨ ∃ rest, s.callbacks = [] :: rest) →
        exec (.transfer cap ms) s = .next { t with
          locked := false
          trace := s.trace ++ (.lockAcquire :: es ++ [.lockRelease, .errorCallback cap])
          callbacks := s.callbacks.tail }) ∧
      (n ≠ ms.length → ∀ c cs rest, s.callbacks = (c :: cs) :: rest →
        exec (.transfer cap ms) s = .next { t with
          locked := false
          trace := s.trace ++ (.lockAcquire :: es ++ [.lockRelease, .errorCallback cap])
          results := s.results
          callbacks := rest
          frames := { position := .running .transfer s.trace.length, ms := ms, result := n, calls := c :: cs } :: s.frames })

/-- When the error callback has made its calls, the TRANSFER that stands at it returns the count it had, whatever the
callback did, and nothing else changes (R160, R161, R185). Whenever it returns, the bus is idle, the lines are high, SDA is an
output, ENG is Idle, the lock free and the sequencer `Ready` (R102, R202). It does not return while the callback's calls leave
the bus held, which the host must not let happen (I-5; R206, point 2): that the step is then a fault is the model's reading
(log entry 18). A callback that never returns leaves the block stuck there (R180, log entry 16). -/
def Obligations.CallbackReturnsToItsTransfer : Prop :=
  ∀ (s : State) (f : Frame) (fs : List Frame), s.refused = false → s.seq = .ready → s.frames = f :: fs → f.calls = [] →
    (s.callsLeft ≠ some 0 → s.bus = .idle → step s = .next { s with
      frames := fs
      dp := { s.dp with result := f.result }
      results := s.results ++ [.count f.result]
      callsLeft := s.callsLeft.map (· - 1) }) ∧
    (s.callsLeft ≠ some 0 → s.bus = .busHeld → step s = .fault .callbackLeftBusHeld) ∧
    (s.callsLeft = some 0 → step s = .fault (.capabilityCallNeverReturns s.trace f.position)) ∧
    (∀ t, BlockInv s → step s = .next t →
      t.pins = { sclOut := true, sdaOut := true, sdaDir := .out } ∧ t.bus = .idle ∧ t.eng = .idle ∧ t.locked = false ∧
        t.seq = .ready)

/-- A TRANSFER that an error callback calls is a new transaction of its own, and it runs and returns before the TRANSFER that
invoked the callback (R185): from a block at a callback with one call left, a TRANSFER of well-formed messages, the next step
is that TRANSFER, whatever waits on the port, and the step after it is the outer return, with the inner count before the outer
one. What is left of the outer one's frame does not change the inner one's history. -/
def Obligations.CallbackTransferRunsInside : Prop :=
  ∀ (s : State) (f : Frame) (fs : List Frame) (c : Command) (cap : CapHandle) (ms : List Msg),
    s.refused = false → s.seq = .ready → s.frames = f :: fs → f.calls = [c] → decode s.par c = .ok (.transfer cap ms) →
    s.bus = .idle → checkMsgs s.par ms = none → (s.par.mutexBlocks = false ∨ s.mutexOther = false) →
    s.callbacks = [] → s.callsLeft = none →
    ∃ t u n es, step s = .next t ∧ step t = .next u ∧
      t.frames = { f with calls := [] } :: fs ∧ t.results = s.results ++ [.count n] ∧ n ≤ ms.length ∧
      t.trace = s.trace ++ (.lockAcquire :: es ++ (.lockRelease ::
        if n = ms.length then [] else [.errorCallback cap])) ∧
      (∃ x, exec (.xfer ms) s = .next x ∧ x.trace = s.trace ++ es) ∧
      u.frames = fs ∧ u.results = s.results ++ [.count n, .count f.result] ∧ u.trace = t.trace ∧
      u.port = s.port ∧ u.bus = .idle ∧ u.locked = false ∧ u.seq = .ready

/-- While another agent holds a mutex that blocks, a TRANSFER, or a wrapper with the list it hands to TRANSFER, waits at its
LOCK_ACQUIRE: nothing changes but the sequencer's position, which keeps the operation with its operands (R24), and a step at
that position changes nothing (R180, R190; that the wait is a next state and the call is recorded when it returns is the
model's choice, log entry 11). When the lock is granted and the bus is held, it is refused with BUS_STATE, the lock held
(R160). -/
def Obligations.TransferWaitsForTheLock : Prop :=
  ∀ (s : State) (i : Instr) (cap : CapHandle) (ms : List Msg), apiList s.par i = some (cap, ms) → checkMsgs s.par ms = none →
    (s.par.mutexBlocks = true → s.mutexOther = true →
      exec i s = .next { s with seq := .lockWait i } ∧
      (s.refused = false → s.seq = .lockWait i → step s = .next s)) ∧
    ((s.par.mutexBlocks = false ∨ s.mutexOther = false) → s.bus = .busHeld →
      exec i s = .refused (.refuse .busState { s with
        refused := true, locked := true, seq := .running i.op s.trace.length,
        trace := s.trace ++ [.lockAcquire] }))

/-- Each wrapper has the command word of its rule and is the TRANSFER of the list its rule builds (R162 to R165), in every part
of the state and the history, but that the sequencer names the wrapper, the operation in progress (R24): while it waits for the
lock, where it is refused after its LOCK_ACQUIRE, and in the frame it leaves at its callback (`issuedAs`; that position, wait
and frame have these forms is the model's choice, log entries 7, 11 and 18). -/
def Obligations.WrappersDelegateToTransfer : Prop :=
  ∀ (s : State) (cap : CapHandle) (addr flags len len' : Nat) (buf buf' : Option BufRef),
    ((encode (.send cap addr flags buf len)).word = 0x000E#16 ∧ (encode (.recv cap addr flags buf len)).word = 0x000F#16 ∧
      (encode (.sendThenRecv cap addr buf len buf' len')).word = 0x0010#16 ∧
      (encode (.sendThenSend cap addr buf len buf' len')).word = 0x0011#16) ∧
    exec (.send cap addr flags buf len) s =
      issuedAs (.send cap addr flags buf len) s (exec (.transfer cap [⟨addr, flags, len, buf⟩]) s) ∧
    exec (.recv cap addr flags buf len) s =
      issuedAs (.recv cap addr flags buf len) s (exec (.transfer cap [⟨addr, flags ||| s.par.flagRead, len, buf⟩]) s) ∧
    exec (.sendThenRecv cap addr buf len buf' len') s =
      issuedAs (.sendThenRecv cap addr buf len buf' len') s
        (exec (.transfer cap [⟨addr, 0, len, buf⟩, ⟨addr, s.par.flagRead, len', buf'⟩]) s) ∧
    exec (.sendThenSend cap addr buf len buf' len') s =
      issuedAs (.sendThenSend cap addr buf len buf' len') s
        (exec (.transfer cap [⟨addr, 0, len, buf⟩, ⟨addr, s.par.flagNoStart, len', buf'⟩]) s)

/-- Every API operation with well-formed descriptors on an idle bus, when the lock is granted, runs its whole transaction and
leaves the bus idle, the lock free and the sequencer ready (R167, R202). It returns its count, at most N for TRANSFER, 1 for
SEND and RECV, 2 for SEND_THEN_RECV and SEND_THEN_SEND (R170), unless the count is short and the error callback has calls to
make: then it stands at its callback with that count kept (R185), its position still naming it (R24), and returns the count
when the callback does (`CallbackReturnsToItsTransfer`). -/
def Obligations.ApiOperationsComplete : Prop :=
  ∀ (s : State) (cap : CapHandle) (i : Instr) (ms : List Msg),
    s.bus = .idle → (s.par.mutexBlocks = false ∨ s.mutexOther = false) → checkMsgs s.par ms = none →
    (i = .transfer cap ms ∨
      (∃ addr flags buf len, i = .send cap addr flags buf len ∧ ms = [⟨addr, flags, len, buf⟩]) ∨
      (∃ addr flags buf len, i = .recv cap addr flags buf len ∧ ms = [⟨addr, flags ||| s.par.flagRead, len, buf⟩]) ∨
      (∃ addr tx txlen rx rxlen, i = .sendThenRecv cap addr tx txlen rx rxlen ∧
        ms = [⟨addr, 0, txlen, tx⟩, ⟨addr, s.par.flagRead, rxlen, rx⟩]) ∨
      (∃ addr tx1 len1 tx2 len2, i = .sendThenSend cap addr tx1 len1 tx2 len2 ∧
        ms = [⟨addr, 0, len1, tx1⟩, ⟨addr, s.par.flagNoStart, len2, tx2⟩])) →
    ∃ t n, exec i s = .next t ∧ SameSetting s t ∧ t.bus = .idle ∧ t.eng = .idle ∧ t.locked = false ∧ t.seq = .ready ∧
      t.pins = { sclOut := true, sdaOut := true, sdaDir := .out } ∧ n ≤ ms.length ∧
      ((n = ms.length ∨ s.callbacks = [] ∨ ∃ rest, s.callbacks = [] :: rest) →
        t.results = s.results ++ [.count n] ∧ t.frames = s.frames) ∧
      (n < ms.length → ∀ c cs rest, s.callbacks = (c :: cs) :: rest →
        t.results = s.results ∧ t.callbacks = rest ∧
          ∃ f, t.frames = f :: s.frames ∧ f.position = .running i.op s.trace.length ∧ f.ms = ms ∧ f.result = n ∧
            f.calls = c :: cs)

/-! ### What a run can depend on -/

/-- No operation reads a datapath register it has not written itself (R17), and of the bus environment only its answers
matter (R31): two states that differ only in the datapath registers and in how the same answers are held run every
operation alike, what can be seen afterwards is the same, and so is the rest of the state, the answers to come included, but
for the datapath registers and how those answers are held. -/
def Obligations.DatapathLeftoversAreNeverRead : Prop :=
  ∀ (i : Instr) (s t : State) (d : Datapath) (ans : List Level) (n : Nat),
    (∀ k, answerAt { s with dp := d, sdaIn := ans, draws := n } k = answerAt s k) → exec i s = .next t →
    ∃ t', exec i { s with dp := d, sdaIn := ans, draws := n } = .next t' ∧ observe t' = observe t ∧
      t' = { t with dp := t'.dp, sdaIn := t'.sdaIn, draws := t'.draws } ∧ ∀ k, answerAt t' k = answerAt t k

/-- Conformance modulo delays (R30). A history conforms to a rule exactly when it is the rule's after any number of DELAY
events are inserted anywhere and any DELAY is replaced by a longer one; a conforming history differs from the rule's in delays
only and takes at least as long. So, for every operation that completes, an implementation whose history conforms to the
operation's leaves the same levels, makes the same clocks, samples and capability calls other than DELAY, and puts the same
conditions on the bus. -/
def Obligations.ConformanceIgnoresDelays : Prop :=
  (∀ rule impl, conforms rule impl = true ↔ Delayed rule impl) ∧
  (∀ rule impl, conforms rule impl = true →
    impl.filter (fun e => !isDelay e) = rule.filter (fun e => !isDelay e) ∧ minDuration rule ≤ minDuration impl) ∧
  (∀ (i : Instr) (s t : State), exec i s = .next t →
    ∃ es, t.trace = s.trace ++ es ∧ ∀ impl, conforms es impl = true →
      pinsAfter impl s.pins = t.pins ∧ clockCount impl = clockCount es ∧ sampleCount impl = sampleCount es ∧
        ∀ eff, conditions eff s.pins impl = conditions eff s.pins es)

/-! ### The message index -/

/-- XFER's message index (R24, R141, R149, R152), in whichever operation XFER runs. `loopStates` are the states where its
messages are begun and the one that EXIT takes: at each of them the position names the operation, with the events it has made
(the model's count, log entry 7) and the index. The index starts at 0, advances by exactly 1 for each message fully serviced
and never exceeds N; at an abort it stays at the message that raised it. XFER's result is the last index, and after EXIT the
position has none. -/
def Obligations.MessageIndexCountsTheMessages : Prop :=
  ∀ (s : State) (op : Op) (start : Nat) (ms : List Msg), s.seq = .running op start →
    let states := loopStates ms (openLoop (startOp s))
    (∀ v ∈ states, v.position =
      some { op := op, done := v.trace.length - start, message := some v.dp.i }) ∧
    ∃ n last, n ≤ ms.length ∧
      states.map (fun v => v.dp.i) = List.range (n + 1) ++ (if n = ms.length then [] else [n]) ∧
      states.getLast? = some last ∧ xferOp ms s = exitOp last ∧ (xferOp ms s).dp.result = n ∧
      (xferOp ms s).position =
        some { op := op, done := (xferOp ms s).trace.length - start, message := none }
end

