-- ==== Sys2Proof/Laws/State.lean ====
section
/-! SUPPORT. One lemma per field of the state and per update of it, true by computation: what each basic operation
writes and what it leaves. -/

namespace Sys2Proof.Machine

section
variable (es : List Event) (s : State)

@[simp] theorem emits_par : (emits es s).par = s.par := rfl
@[simp] theorem emits_cap : (emits es s).cap = s.cap := rfl
@[simp] theorem emits_us : (emits es s).us = s.us := rfl
@[simp] theorem emits_pins : (emits es s).pins = pinsAfter es s.pins := rfl
@[simp] theorem emits_bus : (emits es s).bus = s.bus := rfl
@[simp] theorem emits_eng : (emits es s).eng = s.eng := rfl
@[simp] theorem emits_locked : (emits es s).locked = lockedAfter es s.locked := rfl
@[simp] theorem emits_seq : (emits es s).seq = s.seq := rfl
@[simp] theorem emits_refused : (emits es s).refused = s.refused := rfl
@[simp] theorem emits_dp : (emits es s).dp = s.dp := rfl
@[simp] theorem emits_mem : (emits es s).mem = s.mem := rfl
@[simp] theorem emits_trace : (emits es s).trace = s.trace ++ es := rfl
@[simp] theorem emits_results : (emits es s).results = s.results := rfl
@[simp] theorem emits_port : (emits es s).port = s.port := rfl
@[simp] theorem emits_frames : (emits es s).frames = s.frames := rfl
@[simp] theorem emits_callbacks : (emits es s).callbacks = s.callbacks := rfl
@[simp] theorem emits_mutexOther : (emits es s).mutexOther = s.mutexOther := rfl
@[simp] theorem emits_sdaIn : (emits es s).sdaIn = s.sdaIn := rfl
@[simp] theorem emits_draws : (emits es s).draws = s.draws := rfl
@[simp] theorem emits_callsLeft : (emits es s).callsLeft = s.callsLeft := rfl
@[simp] theorem answerAt_emits (k : Nat) : answerAt (emits es s) k = answerAt s k := rfl

end

section
variable (op : Op) (s : State)

@[simp] theorem enter_par : (enter op s).par = s.par := rfl
@[simp] theorem enter_cap : (enter op s).cap = s.cap := rfl
@[simp] theorem enter_us : (enter op s).us = s.us := rfl
@[simp] theorem enter_pins : (enter op s).pins = s.pins := rfl
@[simp] theorem enter_bus : (enter op s).bus = s.bus := rfl
@[simp] theorem enter_eng : (enter op s).eng = s.eng := rfl
@[simp] theorem enter_locked : (enter op s).locked = s.locked := rfl
@[simp] theorem enter_seq : (enter op s).seq = .running op s.trace.length := rfl
@[simp] theorem enter_refused : (enter op s).refused = s.refused := rfl
@[simp] theorem enter_dp : (enter op s).dp = s.dp := rfl
@[simp] theorem enter_mem : (enter op s).mem = s.mem := rfl
@[simp] theorem enter_trace : (enter op s).trace = s.trace := rfl
@[simp] theorem enter_results : (enter op s).results = s.results := rfl
@[simp] theorem enter_port : (enter op s).port = s.port := rfl
@[simp] theorem enter_frames : (enter op s).frames = s.frames := rfl
@[simp] theorem enter_callbacks : (enter op s).callbacks = s.callbacks := rfl
@[simp] theorem enter_mutexOther : (enter op s).mutexOther = s.mutexOther := rfl
@[simp] theorem enter_sdaIn : (enter op s).sdaIn = s.sdaIn := rfl
@[simp] theorem enter_draws : (enter op s).draws = s.draws := rfl
@[simp] theorem enter_callsLeft : (enter op s).callsLeft = s.callsLeft := rfl
@[simp] theorem answerAt_enter (k : Nat) : answerAt (enter op s) k = answerAt s k := rfl

end

section
variable (s : State)

@[simp] theorem finish_par : (finish s).par = s.par := rfl
@[simp] theorem finish_cap : (finish s).cap = s.cap := rfl
@[simp] theorem finish_us : (finish s).us = s.us := rfl
@[simp] theorem finish_pins : (finish s).pins = s.pins := rfl
@[simp] theorem finish_bus : (finish s).bus = s.bus := rfl
@[simp] theorem finish_eng : (finish s).eng = s.eng := rfl
@[simp] theorem finish_locked : (finish s).locked = s.locked := rfl
@[simp] theorem finish_seq : (finish s).seq = .ready := rfl
@[simp] theorem finish_refused : (finish s).refused = s.refused := rfl
@[simp] theorem finish_dp : (finish s).dp = s.dp := rfl
@[simp] theorem finish_mem : (finish s).mem = s.mem := rfl
@[simp] theorem finish_trace : (finish s).trace = s.trace := rfl
@[simp] theorem finish_results : (finish s).results = s.results := rfl
@[simp] theorem finish_port : (finish s).port = s.port := rfl
@[simp] theorem finish_frames : (finish s).frames = s.frames := rfl
@[simp] theorem finish_callbacks : (finish s).callbacks = s.callbacks := rfl
@[simp] theorem finish_mutexOther : (finish s).mutexOther = s.mutexOther := rfl
@[simp] theorem finish_sdaIn : (finish s).sdaIn = s.sdaIn := rfl
@[simp] theorem finish_draws : (finish s).draws = s.draws := rfl
@[simp] theorem finish_callsLeft : (finish s).callsLeft = s.callsLeft := rfl
@[simp] theorem answerAt_finish (k : Nat) : answerAt (finish s) k = answerAt s k := rfl

end

section
variable (r : Result) (s : State)

@[simp] theorem leave_par : (leave r s).par = s.par := rfl
@[simp] theorem leave_cap : (leave r s).cap = s.cap := rfl
@[simp] theorem leave_us : (leave r s).us = s.us := rfl
@[simp] theorem leave_pins : (leave r s).pins = s.pins := rfl
@[simp] theorem leave_bus : (leave r s).bus = s.bus := rfl
@[simp] theorem leave_eng : (leave r s).eng = s.eng := rfl
@[simp] theorem leave_locked : (leave r s).locked = s.locked := rfl
@[simp] theorem leave_seq : (leave r s).seq = .ready := rfl
@[simp] theorem leave_refused : (leave r s).refused = s.refused := rfl
@[simp] theorem leave_dp : (leave r s).dp = s.dp := rfl
@[simp] theorem leave_mem : (leave r s).mem = s.mem := rfl
@[simp] theorem leave_trace : (leave r s).trace = s.trace := rfl
@[simp] theorem leave_results : (leave r s).results = s.results ++ [r] := rfl
@[simp] theorem leave_port : (leave r s).port = s.port := rfl
@[simp] theorem leave_frames : (leave r s).frames = s.frames := rfl
@[simp] theorem leave_callbacks : (leave r s).callbacks = s.callbacks := rfl
@[simp] theorem leave_mutexOther : (leave r s).mutexOther = s.mutexOther := rfl
@[simp] theorem leave_sdaIn : (leave r s).sdaIn = s.sdaIn := rfl
@[simp] theorem leave_draws : (leave r s).draws = s.draws := rfl
@[simp] theorem leave_callsLeft : (leave r s).callsLeft = s.callsLeft := rfl
@[simp] theorem answerAt_leave (k : Nat) : answerAt (leave r s) k = answerAt s k := rfl

end

section
variable (v : Level) (s : State)

@[simp] theorem setAck_par : (setAck v s).par = s.par := rfl
@[simp] theorem setAck_cap : (setAck v s).cap = s.cap := rfl
@[simp] theorem setAck_us : (setAck v s).us = s.us := rfl
@[simp] theorem setAck_pins : (setAck v s).pins = s.pins := rfl
@[simp] theorem setAck_bus : (setAck v s).bus = s.bus := rfl
@[simp] theorem setAck_eng : (setAck v s).eng = s.eng := rfl
@[simp] theorem setAck_locked : (setAck v s).locked = s.locked := rfl
@[simp] theorem setAck_seq : (setAck v s).seq = s.seq := rfl
@[simp] theorem setAck_refused : (setAck v s).refused = s.refused := rfl
@[simp] theorem setAck_dp : (setAck v s).dp = { s.dp with ackf := ackOf v } := rfl
@[simp] theorem setAck_mem : (setAck v s).mem = s.mem := rfl
@[simp] theorem setAck_trace : (setAck v s).trace = s.trace := rfl
@[simp] theorem setAck_results : (setAck v s).results = s.results := rfl
@[simp] theorem setAck_port : (setAck v s).port = s.port := rfl
@[simp] theorem setAck_frames : (setAck v s).frames = s.frames := rfl
@[simp] theorem setAck_callbacks : (setAck v s).callbacks = s.callbacks := rfl
@[simp] theorem setAck_mutexOther : (setAck v s).mutexOther = s.mutexOther := rfl
@[simp] theorem setAck_sdaIn : (setAck v s).sdaIn = s.sdaIn := rfl
@[simp] theorem setAck_draws : (setAck v s).draws = s.draws := rfl
@[simp] theorem setAck_callsLeft : (setAck v s).callsLeft = s.callsLeft := rfl
@[simp] theorem answerAt_setAck (k : Nat) : answerAt (setAck v s) k = answerAt s k := rfl

end

section
variable (v : Byte) (s : State)

@[simp] theorem setShift_par : (setShift v s).par = s.par := rfl
@[simp] theorem setShift_cap : (setShift v s).cap = s.cap := rfl
@[simp] theorem setShift_us : (setShift v s).us = s.us := rfl
@[simp] theorem setShift_pins : (setShift v s).pins = s.pins := rfl
@[simp] theorem setShift_bus : (setShift v s).bus = s.bus := rfl
@[simp] theorem setShift_eng : (setShift v s).eng = s.eng := rfl
@[simp] theorem setShift_locked : (setShift v s).locked = s.locked := rfl
@[simp] theorem setShift_seq : (setShift v s).seq = s.seq := rfl
@[simp] theorem setShift_refused : (setShift v s).refused = s.refused := rfl
@[simp] theorem setShift_dp : (setShift v s).dp = { s.dp with shift := v } := rfl
@[simp] theorem setShift_mem : (setShift v s).mem = s.mem := rfl
@[simp] theorem setShift_trace : (setShift v s).trace = s.trace := rfl
@[simp] theorem setShift_results : (setShift v s).results = s.results := rfl
@[simp] theorem setShift_port : (setShift v s).port = s.port := rfl
@[simp] theorem setShift_frames : (setShift v s).frames = s.frames := rfl
@[simp] theorem setShift_callbacks : (setShift v s).callbacks = s.callbacks := rfl
@[simp] theorem setShift_mutexOther : (setShift v s).mutexOther = s.mutexOther := rfl
@[simp] theorem setShift_sdaIn : (setShift v s).sdaIn = s.sdaIn := rfl
@[simp] theorem setShift_draws : (setShift v s).draws = s.draws := rfl
@[simp] theorem setShift_callsLeft : (setShift v s).callsLeft = s.callsLeft := rfl
@[simp] theorem answerAt_setShift (k : Nat) : answerAt (setShift v s) k = answerAt s k := rfl

end

section
variable (n : BitVec 4) (s : State)

@[simp] theorem setBitcnt_par : (setBitcnt n s).par = s.par := rfl
@[simp] theorem setBitcnt_cap : (setBitcnt n s).cap = s.cap := rfl
@[simp] theorem setBitcnt_us : (setBitcnt n s).us = s.us := rfl
@[simp] theorem setBitcnt_pins : (setBitcnt n s).pins = s.pins := rfl
@[simp] theorem setBitcnt_bus : (setBitcnt n s).bus = s.bus := rfl
@[simp] theorem setBitcnt_eng : (setBitcnt n s).eng = s.eng := rfl
@[simp] theorem setBitcnt_locked : (setBitcnt n s).locked = s.locked := rfl
@[simp] theorem setBitcnt_seq : (setBitcnt n s).seq = s.seq := rfl
@[simp] theorem setBitcnt_refused : (setBitcnt n s).refused = s.refused := rfl
@[simp] theorem setBitcnt_dp : (setBitcnt n s).dp = { s.dp with bitcnt := n } := rfl
@[simp] theorem setBitcnt_mem : (setBitcnt n s).mem = s.mem := rfl
@[simp] theorem setBitcnt_trace : (setBitcnt n s).trace = s.trace := rfl
@[simp] theorem setBitcnt_results : (setBitcnt n s).results = s.results := rfl
@[simp] theorem setBitcnt_port : (setBitcnt n s).port = s.port := rfl
@[simp] theorem setBitcnt_frames : (setBitcnt n s).frames = s.frames := rfl
@[simp] theorem setBitcnt_callbacks : (setBitcnt n s).callbacks = s.callbacks := rfl
@[simp] theorem setBitcnt_mutexOther : (setBitcnt n s).mutexOther = s.mutexOther := rfl
@[simp] theorem setBitcnt_sdaIn : (setBitcnt n s).sdaIn = s.sdaIn := rfl
@[simp] theorem setBitcnt_draws : (setBitcnt n s).draws = s.draws := rfl
@[simp] theorem setBitcnt_callsLeft : (setBitcnt n s).callsLeft = s.callsLeft := rfl
@[simp] theorem answerAt_setBitcnt (k : Nat) : answerAt (setBitcnt n s) k = answerAt s k := rfl

end

section
variable (v : Byte) (s : State)

@[simp] theorem setAddr1_par : (setAddr1 v s).par = s.par := rfl
@[simp] theorem setAddr1_cap : (setAddr1 v s).cap = s.cap := rfl
@[simp] theorem setAddr1_us : (setAddr1 v s).us = s.us := rfl
@[simp] theorem setAddr1_pins : (setAddr1 v s).pins = s.pins := rfl
@[simp] theorem setAddr1_bus : (setAddr1 v s).bus = s.bus := rfl
@[simp] theorem setAddr1_eng : (setAddr1 v s).eng = s.eng := rfl
@[simp] theorem setAddr1_locked : (setAddr1 v s).locked = s.locked := rfl
@[simp] theorem setAddr1_seq : (setAddr1 v s).seq = s.seq := rfl
@[simp] theorem setAddr1_refused : (setAddr1 v s).refused = s.refused := rfl
@[simp] theorem setAddr1_dp : (setAddr1 v s).dp = { s.dp with addr1 := v } := rfl
@[simp] theorem setAddr1_mem : (setAddr1 v s).mem = s.mem := rfl
@[simp] theorem setAddr1_trace : (setAddr1 v s).trace = s.trace := rfl
@[simp] theorem setAddr1_results : (setAddr1 v s).results = s.results := rfl
@[simp] theorem setAddr1_port : (setAddr1 v s).port = s.port := rfl
@[simp] theorem setAddr1_frames : (setAddr1 v s).frames = s.frames := rfl
@[simp] theorem setAddr1_callbacks : (setAddr1 v s).callbacks = s.callbacks := rfl
@[simp] theorem setAddr1_mutexOther : (setAddr1 v s).mutexOther = s.mutexOther := rfl
@[simp] theorem setAddr1_sdaIn : (setAddr1 v s).sdaIn = s.sdaIn := rfl
@[simp] theorem setAddr1_draws : (setAddr1 v s).draws = s.draws := rfl
@[simp] theorem setAddr1_callsLeft : (setAddr1 v s).callsLeft = s.callsLeft := rfl
@[simp] theorem answerAt_setAddr1 (k : Nat) : answerAt (setAddr1 v s) k = answerAt s k := rfl

end

section
variable (v : Byte) (s : State)

@[simp] theorem setAddr2_par : (setAddr2 v s).par = s.par := rfl
@[simp] theorem setAddr2_cap : (setAddr2 v s).cap = s.cap := rfl
@[simp] theorem setAddr2_us : (setAddr2 v s).us = s.us := rfl
@[simp] theorem setAddr2_pins : (setAddr2 v s).pins = s.pins := rfl
@[simp] theorem setAddr2_bus : (setAddr2 v s).bus = s.bus := rfl
@[simp] theorem setAddr2_eng : (setAddr2 v s).eng = s.eng := rfl
@[simp] theorem setAddr2_locked : (setAddr2 v s).locked = s.locked := rfl
@[simp] theorem setAddr2_seq : (setAddr2 v s).seq = s.seq := rfl
@[simp] theorem setAddr2_refused : (setAddr2 v s).refused = s.refused := rfl
@[simp] theorem setAddr2_dp : (setAddr2 v s).dp = { s.dp with addr2 := v } := rfl
@[simp] theorem setAddr2_mem : (setAddr2 v s).mem = s.mem := rfl
@[simp] theorem setAddr2_trace : (setAddr2 v s).trace = s.trace := rfl
@[simp] theorem setAddr2_results : (setAddr2 v s).results = s.results := rfl
@[simp] theorem setAddr2_port : (setAddr2 v s).port = s.port := rfl
@[simp] theorem setAddr2_frames : (setAddr2 v s).frames = s.frames := rfl
@[simp] theorem setAddr2_callbacks : (setAddr2 v s).callbacks = s.callbacks := rfl
@[simp] theorem setAddr2_mutexOther : (setAddr2 v s).mutexOther = s.mutexOther := rfl
@[simp] theorem setAddr2_sdaIn : (setAddr2 v s).sdaIn = s.sdaIn := rfl
@[simp] theorem setAddr2_draws : (setAddr2 v s).draws = s.draws := rfl
@[simp] theorem setAddr2_callsLeft : (setAddr2 v s).callsLeft = s.callsLeft := rfl
@[simp] theorem answerAt_setAddr2 (k : Nat) : answerAt (setAddr2 v s) k = answerAt s k := rfl

end

section
variable (r : BitVec 1) (s : State)

@[simp] theorem setRlim_par : (setRlim r s).par = s.par := rfl
@[simp] theorem setRlim_cap : (setRlim r s).cap = s.cap := rfl
@[simp] theorem setRlim_us : (setRlim r s).us = s.us := rfl
@[simp] theorem setRlim_pins : (setRlim r s).pins = s.pins := rfl
@[simp] theorem setRlim_bus : (setRlim r s).bus = s.bus := rfl
@[simp] theorem setRlim_eng : (setRlim r s).eng = s.eng := rfl
@[simp] theorem setRlim_locked : (setRlim r s).locked = s.locked := rfl
@[simp] theorem setRlim_seq : (setRlim r s).seq = s.seq := rfl
@[simp] theorem setRlim_refused : (setRlim r s).refused = s.refused := rfl
@[simp] theorem setRlim_dp : (setRlim r s).dp = { s.dp with rlim := r } := rfl
@[simp] theorem setRlim_mem : (setRlim r s).mem = s.mem := rfl
@[simp] theorem setRlim_trace : (setRlim r s).trace = s.trace := rfl
@[simp] theorem setRlim_results : (setRlim r s).results = s.results := rfl
@[simp] theorem setRlim_port : (setRlim r s).port = s.port := rfl
@[simp] theorem setRlim_frames : (setRlim r s).frames = s.frames := rfl
@[simp] theorem setRlim_callbacks : (setRlim r s).callbacks = s.callbacks := rfl
@[simp] theorem setRlim_mutexOther : (setRlim r s).mutexOther = s.mutexOther := rfl
@[simp] theorem setRlim_sdaIn : (setRlim r s).sdaIn = s.sdaIn := rfl
@[simp] theorem setRlim_draws : (setRlim r s).draws = s.draws := rfl
@[simp] theorem setRlim_callsLeft : (setRlim r s).callsLeft = s.callsLeft := rfl
@[simp] theorem answerAt_setRlim (k : Nat) : answerAt (setRlim r s) k = answerAt s k := rfl

end

section
variable (n : BitVec 1) (s : State)

@[simp] theorem setTries_par : (setTries n s).par = s.par := rfl
@[simp] theorem setTries_cap : (setTries n s).cap = s.cap := rfl
@[simp] theorem setTries_us : (setTries n s).us = s.us := rfl
@[simp] theorem setTries_pins : (setTries n s).pins = s.pins := rfl
@[simp] theorem setTries_bus : (setTries n s).bus = s.bus := rfl
@[simp] theorem setTries_eng : (setTries n s).eng = s.eng := rfl
@[simp] theorem setTries_locked : (setTries n s).locked = s.locked := rfl
@[simp] theorem setTries_seq : (setTries n s).seq = s.seq := rfl
@[simp] theorem setTries_refused : (setTries n s).refused = s.refused := rfl
@[simp] theorem setTries_dp : (setTries n s).dp = { s.dp with tries := n } := rfl
@[simp] theorem setTries_mem : (setTries n s).mem = s.mem := rfl
@[simp] theorem setTries_trace : (setTries n s).trace = s.trace := rfl
@[simp] theorem setTries_results : (setTries n s).results = s.results := rfl
@[simp] theorem setTries_port : (setTries n s).port = s.port := rfl
@[simp] theorem setTries_frames : (setTries n s).frames = s.frames := rfl
@[simp] theorem setTries_callbacks : (setTries n s).callbacks = s.callbacks := rfl
@[simp] theorem setTries_mutexOther : (setTries n s).mutexOther = s.mutexOther := rfl
@[simp] theorem setTries_sdaIn : (setTries n s).sdaIn = s.sdaIn := rfl
@[simp] theorem setTries_draws : (setTries n s).draws = s.draws := rfl
@[simp] theorem setTries_callsLeft : (setTries n s).callsLeft = s.callsLeft := rfl
@[simp] theorem answerAt_setTries (k : Nat) : answerAt (setTries n s) k = answerAt s k := rfl

end

section
variable (n : Nat) (s : State)

@[simp] theorem setI_par : (setI n s).par = s.par := rfl
@[simp] theorem setI_cap : (setI n s).cap = s.cap := rfl
@[simp] theorem setI_us : (setI n s).us = s.us := rfl
@[simp] theorem setI_pins : (setI n s).pins = s.pins := rfl
@[simp] theorem setI_bus : (setI n s).bus = s.bus := rfl
@[simp] theorem setI_eng : (setI n s).eng = s.eng := rfl
@[simp] theorem setI_locked : (setI n s).locked = s.locked := rfl
@[simp] theorem setI_seq : (setI n s).seq = s.seq := rfl
@[simp] theorem setI_refused : (setI n s).refused = s.refused := rfl
@[simp] theorem setI_dp : (setI n s).dp = { s.dp with i := n } := rfl
@[simp] theorem setI_mem : (setI n s).mem = s.mem := rfl
@[simp] theorem setI_trace : (setI n s).trace = s.trace := rfl
@[simp] theorem setI_results : (setI n s).results = s.results := rfl
@[simp] theorem setI_port : (setI n s).port = s.port := rfl
@[simp] theorem setI_frames : (setI n s).frames = s.frames := rfl
@[simp] theorem setI_callbacks : (setI n s).callbacks = s.callbacks := rfl
@[simp] theorem setI_mutexOther : (setI n s).mutexOther = s.mutexOther := rfl
@[simp] theorem setI_sdaIn : (setI n s).sdaIn = s.sdaIn := rfl
@[simp] theorem setI_draws : (setI n s).draws = s.draws := rfl
@[simp] theorem setI_callsLeft : (setI n s).callsLeft = s.callsLeft := rfl
@[simp] theorem answerAt_setI (k : Nat) : answerAt (setI n s) k = answerAt s k := rfl

end

section
variable (n : Nat) (s : State)

@[simp] theorem setResult_par : (setResult n s).par = s.par := rfl
@[simp] theorem setResult_cap : (setResult n s).cap = s.cap := rfl
@[simp] theorem setResult_us : (setResult n s).us = s.us := rfl
@[simp] theorem setResult_pins : (setResult n s).pins = s.pins := rfl
@[simp] theorem setResult_bus : (setResult n s).bus = s.bus := rfl
@[simp] theorem setResult_eng : (setResult n s).eng = s.eng := rfl
@[simp] theorem setResult_locked : (setResult n s).locked = s.locked := rfl
@[simp] theorem setResult_seq : (setResult n s).seq = s.seq := rfl
@[simp] theorem setResult_refused : (setResult n s).refused = s.refused := rfl
@[simp] theorem setResult_dp : (setResult n s).dp = { s.dp with result := n } := rfl
@[simp] theorem setResult_mem : (setResult n s).mem = s.mem := rfl
@[simp] theorem setResult_trace : (setResult n s).trace = s.trace := rfl
@[simp] theorem setResult_results : (setResult n s).results = s.results := rfl
@[simp] theorem setResult_port : (setResult n s).port = s.port := rfl
@[simp] theorem setResult_frames : (setResult n s).frames = s.frames := rfl
@[simp] theorem setResult_callbacks : (setResult n s).callbacks = s.callbacks := rfl
@[simp] theorem setResult_mutexOther : (setResult n s).mutexOther = s.mutexOther := rfl
@[simp] theorem setResult_sdaIn : (setResult n s).sdaIn = s.sdaIn := rfl
@[simp] theorem setResult_draws : (setResult n s).draws = s.draws := rfl
@[simp] theorem setResult_callsLeft : (setResult n s).callsLeft = s.callsLeft := rfl
@[simp] theorem answerAt_setResult (k : Nat) : answerAt (setResult n s) k = answerAt s k := rfl

end

section
variable (e : EngState) (s : State)

@[simp] theorem setEng_par : (setEng e s).par = s.par := rfl
@[simp] theorem setEng_cap : (setEng e s).cap = s.cap := rfl
@[simp] theorem setEng_us : (setEng e s).us = s.us := rfl
@[simp] theorem setEng_pins : (setEng e s).pins = s.pins := rfl
@[simp] theorem setEng_bus : (setEng e s).bus = s.bus := rfl
@[simp] theorem setEng_eng : (setEng e s).eng = e := rfl
@[simp] theorem setEng_locked : (setEng e s).locked = s.locked := rfl
@[simp] theorem setEng_seq : (setEng e s).seq = s.seq := rfl
@[simp] theorem setEng_refused : (setEng e s).refused = s.refused := rfl
@[simp] theorem setEng_dp : (setEng e s).dp = s.dp := rfl
@[simp] theorem setEng_mem : (setEng e s).mem = s.mem := rfl
@[simp] theorem setEng_trace : (setEng e s).trace = s.trace := rfl
@[simp] theorem setEng_results : (setEng e s).results = s.results := rfl
@[simp] theorem setEng_port : (setEng e s).port = s.port := rfl
@[simp] theorem setEng_frames : (setEng e s).frames = s.frames := rfl
@[simp] theorem setEng_callbacks : (setEng e s).callbacks = s.callbacks := rfl
@[simp] theorem setEng_mutexOther : (setEng e s).mutexOther = s.mutexOther := rfl
@[simp] theorem setEng_sdaIn : (setEng e s).sdaIn = s.sdaIn := rfl
@[simp] theorem setEng_draws : (setEng e s).draws = s.draws := rfl
@[simp] theorem setEng_callsLeft : (setEng e s).callsLeft = s.callsLeft := rfl
@[simp] theorem answerAt_setEng (k : Nat) : answerAt (setEng e s) k = answerAt s k := rfl

end

section
variable (s : State)

@[simp] theorem openLoop_par : (openLoop s).par = s.par := rfl
@[simp] theorem openLoop_cap : (openLoop s).cap = s.cap := rfl
@[simp] theorem openLoop_us : (openLoop s).us = s.us := rfl
@[simp] theorem openLoop_pins : (openLoop s).pins = s.pins := rfl
@[simp] theorem openLoop_bus : (openLoop s).bus = s.bus := rfl
@[simp] theorem openLoop_eng : (openLoop s).eng = .busHeld := rfl
@[simp] theorem openLoop_locked : (openLoop s).locked = s.locked := rfl
@[simp] theorem openLoop_seq : (openLoop s).seq = s.seq := rfl
@[simp] theorem openLoop_refused : (openLoop s).refused = s.refused := rfl
@[simp] theorem openLoop_dp : (openLoop s).dp = { s.dp with i := 0 } := rfl
@[simp] theorem openLoop_mem : (openLoop s).mem = s.mem := rfl
@[simp] theorem openLoop_trace : (openLoop s).trace = s.trace := rfl
@[simp] theorem openLoop_results : (openLoop s).results = s.results := rfl
@[simp] theorem openLoop_port : (openLoop s).port = s.port := rfl
@[simp] theorem openLoop_frames : (openLoop s).frames = s.frames := rfl
@[simp] theorem openLoop_callbacks : (openLoop s).callbacks = s.callbacks := rfl
@[simp] theorem openLoop_mutexOther : (openLoop s).mutexOther = s.mutexOther := rfl
@[simp] theorem openLoop_sdaIn : (openLoop s).sdaIn = s.sdaIn := rfl
@[simp] theorem openLoop_draws : (openLoop s).draws = s.draws := rfl
@[simp] theorem openLoop_callsLeft : (openLoop s).callsLeft = s.callsLeft := rfl
@[simp] theorem answerAt_openLoop (k : Nat) : answerAt (openLoop s) k = answerAt s k := rfl

end

section
variable (s : State)

@[simp] theorem countByte_par : (countByte s).par = s.par := rfl
@[simp] theorem countByte_cap : (countByte s).cap = s.cap := rfl
@[simp] theorem countByte_us : (countByte s).us = s.us := rfl
@[simp] theorem countByte_pins : (countByte s).pins = s.pins := rfl
@[simp] theorem countByte_bus : (countByte s).bus = s.bus := rfl
@[simp] theorem countByte_eng : (countByte s).eng = s.eng := rfl
@[simp] theorem countByte_locked : (countByte s).locked = s.locked := rfl
@[simp] theorem countByte_seq : (countByte s).seq = s.seq := rfl
@[simp] theorem countByte_refused : (countByte s).refused = s.refused := rfl
@[simp] theorem countByte_dp : (countByte s).dp = { s.dp with bytes := s.dp.bytes + 1, remain := s.dp.remain - 1 } := rfl
@[simp] theorem countByte_mem : (countByte s).mem = s.mem := rfl
@[simp] theorem countByte_trace : (countByte s).trace = s.trace := rfl
@[simp] theorem countByte_results : (countByte s).results = s.results := rfl
@[simp] theorem countByte_port : (countByte s).port = s.port := rfl
@[simp] theorem countByte_frames : (countByte s).frames = s.frames := rfl
@[simp] theorem countByte_callbacks : (countByte s).callbacks = s.callbacks := rfl
@[simp] theorem countByte_mutexOther : (countByte s).mutexOther = s.mutexOther := rfl
@[simp] theorem countByte_sdaIn : (countByte s).sdaIn = s.sdaIn := rfl
@[simp] theorem countByte_draws : (countByte s).draws = s.draws := rfl
@[simp] theorem countByte_callsLeft : (countByte s).callsLeft = s.callsLeft := rfl
@[simp] theorem answerAt_countByte (k : Nat) : answerAt (countByte s) k = answerAt s k := rfl

end

section
variable (m : Msg) (s : State)

@[simp] theorem initCounts_par : (initCounts m s).par = s.par := rfl
@[simp] theorem initCounts_cap : (initCounts m s).cap = s.cap := rfl
@[simp] theorem initCounts_us : (initCounts m s).us = s.us := rfl
@[simp] theorem initCounts_pins : (initCounts m s).pins = s.pins := rfl
@[simp] theorem initCounts_bus : (initCounts m s).bus = s.bus := rfl
@[simp] theorem initCounts_eng : (initCounts m s).eng = s.eng := rfl
@[simp] theorem initCounts_locked : (initCounts m s).locked = s.locked := rfl
@[simp] theorem initCounts_seq : (initCounts m s).seq = s.seq := rfl
@[simp] theorem initCounts_refused : (initCounts m s).refused = s.refused := rfl
@[simp] theorem initCounts_dp : (initCounts m s).dp = { s.dp with bytes := 0, remain := m.len } := rfl
@[simp] theorem initCounts_mem : (initCounts m s).mem = s.mem := rfl
@[simp] theorem initCounts_trace : (initCounts m s).trace = s.trace := rfl
@[simp] theorem initCounts_results : (initCounts m s).results = s.results := rfl
@[simp] theorem initCounts_port : (initCounts m s).port = s.port := rfl
@[simp] theorem initCounts_frames : (initCounts m s).frames = s.frames := rfl
@[simp] theorem initCounts_callbacks : (initCounts m s).callbacks = s.callbacks := rfl
@[simp] theorem initCounts_mutexOther : (initCounts m s).mutexOther = s.mutexOther := rfl
@[simp] theorem initCounts_sdaIn : (initCounts m s).sdaIn = s.sdaIn := rfl
@[simp] theorem initCounts_draws : (initCounts m s).draws = s.draws := rfl
@[simp] theorem initCounts_callsLeft : (initCounts m s).callsLeft = s.callsLeft := rfl
@[simp] theorem answerAt_initCounts (k : Nat) : answerAt (initCounts m s) k = answerAt s k := rfl

end

section
variable (a : Nat) (v : Byte) (s : State)

@[simp] theorem memWrite_par : (memWrite a v s).par = s.par := rfl
@[simp] theorem memWrite_cap : (memWrite a v s).cap = s.cap := rfl
@[simp] theorem memWrite_us : (memWrite a v s).us = s.us := rfl
@[simp] theorem memWrite_pins : (memWrite a v s).pins = s.pins := rfl
@[simp] theorem memWrite_bus : (memWrite a v s).bus = s.bus := rfl
@[simp] theorem memWrite_eng : (memWrite a v s).eng = s.eng := rfl
@[simp] theorem memWrite_locked : (memWrite a v s).locked = s.locked := rfl
@[simp] theorem memWrite_seq : (memWrite a v s).seq = s.seq := rfl
@[simp] theorem memWrite_refused : (memWrite a v s).refused = s.refused := rfl
@[simp] theorem memWrite_dp : (memWrite a v s).dp = s.dp := rfl
@[simp] theorem memWrite_mem : (memWrite a v s).mem = Memory.write s.mem a v := rfl
@[simp] theorem memWrite_trace : (memWrite a v s).trace = s.trace ++ [.memWrite a v] := rfl
@[simp] theorem memWrite_results : (memWrite a v s).results = s.results := rfl
@[simp] theorem memWrite_port : (memWrite a v s).port = s.port := rfl
@[simp] theorem memWrite_frames : (memWrite a v s).frames = s.frames := rfl
@[simp] theorem memWrite_callbacks : (memWrite a v s).callbacks = s.callbacks := rfl
@[simp] theorem memWrite_mutexOther : (memWrite a v s).mutexOther = s.mutexOther := rfl
@[simp] theorem memWrite_sdaIn : (memWrite a v s).sdaIn = s.sdaIn := rfl
@[simp] theorem memWrite_draws : (memWrite a v s).draws = s.draws := rfl
@[simp] theorem memWrite_callsLeft : (memWrite a v s).callsLeft = s.callsLeft := rfl
@[simp] theorem answerAt_memWrite (k : Nat) : answerAt (memWrite a v s) k = answerAt s k := rfl

end

section
variable (a : Nat) (s : State)

@[simp] theorem memRead_par : (memRead a s).par = s.par := rfl
@[simp] theorem memRead_cap : (memRead a s).cap = s.cap := rfl
@[simp] theorem memRead_us : (memRead a s).us = s.us := rfl
@[simp] theorem memRead_pins : (memRead a s).pins = s.pins := rfl
@[simp] theorem memRead_bus : (memRead a s).bus = s.bus := rfl
@[simp] theorem memRead_eng : (memRead a s).eng = s.eng := rfl
@[simp] theorem memRead_locked : (memRead a s).locked = s.locked := rfl
@[simp] theorem memRead_seq : (memRead a s).seq = s.seq := rfl
@[simp] theorem memRead_refused : (memRead a s).refused = s.refused := rfl
@[simp] theorem memRead_dp : (memRead a s).dp = s.dp := rfl
@[simp] theorem memRead_mem : (memRead a s).mem = s.mem := rfl
@[simp] theorem memRead_trace : (memRead a s).trace = s.trace ++ [.memRead a (Memory.read s.mem a)] := rfl
@[simp] theorem memRead_results : (memRead a s).results = s.results := rfl
@[simp] theorem memRead_port : (memRead a s).port = s.port := rfl
@[simp] theorem memRead_frames : (memRead a s).frames = s.frames := rfl
@[simp] theorem memRead_callbacks : (memRead a s).callbacks = s.callbacks := rfl
@[simp] theorem memRead_mutexOther : (memRead a s).mutexOther = s.mutexOther := rfl
@[simp] theorem memRead_sdaIn : (memRead a s).sdaIn = s.sdaIn := rfl
@[simp] theorem memRead_draws : (memRead a s).draws = s.draws := rfl
@[simp] theorem memRead_callsLeft : (memRead a s).callsLeft = s.callsLeft := rfl
@[simp] theorem answerAt_memRead (k : Nat) : answerAt (memRead a s) k = answerAt s k := rfl

end

section
variable (s : State)

@[simp] theorem getSda_par : (getSda s).par = s.par := rfl
@[simp] theorem getSda_cap : (getSda s).cap = s.cap := rfl
@[simp] theorem getSda_us : (getSda s).us = s.us := rfl
@[simp] theorem getSda_pins : (getSda s).pins = s.pins := rfl
@[simp] theorem getSda_bus : (getSda s).bus = s.bus := rfl
@[simp] theorem getSda_eng : (getSda s).eng = s.eng := rfl
@[simp] theorem getSda_locked : (getSda s).locked = s.locked := rfl
@[simp] theorem getSda_seq : (getSda s).seq = s.seq := rfl
@[simp] theorem getSda_refused : (getSda s).refused = s.refused := rfl
@[simp] theorem getSda_dp : (getSda s).dp = s.dp := rfl
@[simp] theorem getSda_mem : (getSda s).mem = s.mem := rfl
@[simp] theorem getSda_trace : (getSda s).trace = s.trace ++ [.getSda (answerAt s 0)] := rfl
@[simp] theorem getSda_results : (getSda s).results = s.results := rfl
@[simp] theorem getSda_port : (getSda s).port = s.port := rfl
@[simp] theorem getSda_frames : (getSda s).frames = s.frames := rfl
@[simp] theorem getSda_callbacks : (getSda s).callbacks = s.callbacks := rfl
@[simp] theorem getSda_mutexOther : (getSda s).mutexOther = s.mutexOther := rfl
@[simp] theorem getSda_sdaIn : (getSda s).sdaIn = s.sdaIn.tail := rfl
@[simp] theorem getSda_draws : (getSda s).draws = s.draws + 1 := rfl
@[simp] theorem getSda_callsLeft : (getSda s).callsLeft = s.callsLeft := rfl

end

section
variable (s : State)

@[simp] theorem startOp_par : (startOp s).par = s.par := rfl
@[simp] theorem startOp_cap : (startOp s).cap = s.cap := rfl
@[simp] theorem startOp_us : (startOp s).us = s.us := rfl
@[simp] theorem startOp_pins : (startOp s).pins = { sclOut := false, sdaOut := false, sdaDir := .out } := rfl
@[simp] theorem startOp_bus : (startOp s).bus = .busHeld := rfl
@[simp] theorem startOp_eng : (startOp s).eng = s.eng := rfl
@[simp] theorem startOp_locked : (startOp s).locked = s.locked := rfl
@[simp] theorem startOp_seq : (startOp s).seq = s.seq := rfl
@[simp] theorem startOp_refused : (startOp s).refused = s.refused := rfl
@[simp] theorem startOp_dp : (startOp s).dp = s.dp := rfl
@[simp] theorem startOp_mem : (startOp s).mem = s.mem := rfl
@[simp] theorem startOp_trace : (startOp s).trace = s.trace ++ startEvents (half s.us) := rfl
@[simp] theorem startOp_results : (startOp s).results = s.results := rfl
@[simp] theorem startOp_port : (startOp s).port = s.port := rfl
@[simp] theorem startOp_frames : (startOp s).frames = s.frames := rfl
@[simp] theorem startOp_callbacks : (startOp s).callbacks = s.callbacks := rfl
@[simp] theorem startOp_mutexOther : (startOp s).mutexOther = s.mutexOther := rfl
@[simp] theorem startOp_sdaIn : (startOp s).sdaIn = s.sdaIn := rfl
@[simp] theorem startOp_draws : (startOp s).draws = s.draws := rfl
@[simp] theorem startOp_callsLeft : (startOp s).callsLeft = s.callsLeft := rfl
@[simp] theorem answerAt_startOp (k : Nat) : answerAt (startOp s) k = answerAt s k := rfl

end

section
variable (s : State)

@[simp] theorem restartOp_par : (restartOp s).par = s.par := rfl
@[simp] theorem restartOp_cap : (restartOp s).cap = s.cap := rfl
@[simp] theorem restartOp_us : (restartOp s).us = s.us := rfl
@[simp] theorem restartOp_pins : (restartOp s).pins = { sclOut := false, sdaOut := false, sdaDir := .out } := rfl
@[simp] theorem restartOp_bus : (restartOp s).bus = s.bus := rfl
@[simp] theorem restartOp_eng : (restartOp s).eng = s.eng := rfl
@[simp] theorem restartOp_locked : (restartOp s).locked = s.locked := rfl
@[simp] theorem restartOp_seq : (restartOp s).seq = s.seq := rfl
@[simp] theorem restartOp_refused : (restartOp s).refused = s.refused := rfl
@[simp] theorem restartOp_dp : (restartOp s).dp = s.dp := rfl
@[simp] theorem restartOp_mem : (restartOp s).mem = s.mem := rfl
@[simp] theorem restartOp_trace : (restartOp s).trace = s.trace ++ restartEvents (half s.us) := rfl
@[simp] theorem restartOp_results : (restartOp s).results = s.results := rfl
@[simp] theorem restartOp_port : (restartOp s).port = s.port := rfl
@[simp] theorem restartOp_frames : (restartOp s).frames = s.frames := rfl
@[simp] theorem restartOp_callbacks : (restartOp s).callbacks = s.callbacks := rfl
@[simp] theorem restartOp_mutexOther : (restartOp s).mutexOther = s.mutexOther := rfl
@[simp] theorem restartOp_sdaIn : (restartOp s).sdaIn = s.sdaIn := rfl
@[simp] theorem restartOp_draws : (restartOp s).draws = s.draws := rfl
@[simp] theorem restartOp_callsLeft : (restartOp s).callsLeft = s.callsLeft := rfl
@[simp] theorem answerAt_restartOp (k : Nat) : answerAt (restartOp s) k = answerAt s k := rfl

end

section
variable (s : State)

@[simp] theorem stopOp_par : (stopOp s).par = s.par := rfl
@[simp] theorem stopOp_cap : (stopOp s).cap = s.cap := rfl
@[simp] theorem stopOp_us : (stopOp s).us = s.us := rfl
@[simp] theorem stopOp_pins : (stopOp s).pins = Pins.reset := rfl
@[simp] theorem stopOp_bus : (stopOp s).bus = .idle := rfl
@[simp] theorem stopOp_eng : (stopOp s).eng = s.eng := rfl
@[simp] theorem stopOp_locked : (stopOp s).locked = s.locked := rfl
@[simp] theorem stopOp_seq : (stopOp s).seq = s.seq := rfl
@[simp] theorem stopOp_refused : (stopOp s).refused = s.refused := rfl
@[simp] theorem stopOp_dp : (stopOp s).dp = s.dp := rfl
@[simp] theorem stopOp_mem : (stopOp s).mem = s.mem := rfl
@[simp] theorem stopOp_trace : (stopOp s).trace = s.trace ++ stopEvents s.us := rfl
@[simp] theorem stopOp_results : (stopOp s).results = s.results := rfl
@[simp] theorem stopOp_port : (stopOp s).port = s.port := rfl
@[simp] theorem stopOp_frames : (stopOp s).frames = s.frames := rfl
@[simp] theorem stopOp_callbacks : (stopOp s).callbacks = s.callbacks := rfl
@[simp] theorem stopOp_mutexOther : (stopOp s).mutexOther = s.mutexOther := rfl
@[simp] theorem stopOp_sdaIn : (stopOp s).sdaIn = s.sdaIn := rfl
@[simp] theorem stopOp_draws : (stopOp s).draws = s.draws := rfl
@[simp] theorem stopOp_callsLeft : (stopOp s).callsLeft = s.callsLeft := rfl
@[simp] theorem answerAt_stopOp (k : Nat) : answerAt (stopOp s) k = answerAt s k := rfl

end

section
variable (n : Nat) (s : State)

@[simp] theorem drawn_par : (drawn n s).par = s.par := rfl
@[simp] theorem drawn_cap : (drawn n s).cap = s.cap := rfl
@[simp] theorem drawn_us : (drawn n s).us = s.us := rfl
@[simp] theorem drawn_pins : (drawn n s).pins = s.pins := rfl
@[simp] theorem drawn_bus : (drawn n s).bus = s.bus := rfl
@[simp] theorem drawn_eng : (drawn n s).eng = s.eng := rfl
@[simp] theorem drawn_locked : (drawn n s).locked = s.locked := rfl
@[simp] theorem drawn_seq : (drawn n s).seq = s.seq := rfl
@[simp] theorem drawn_refused : (drawn n s).refused = s.refused := rfl
@[simp] theorem drawn_dp : (drawn n s).dp = s.dp := rfl
@[simp] theorem drawn_mem : (drawn n s).mem = s.mem := rfl
@[simp] theorem drawn_trace : (drawn n s).trace = s.trace := rfl
@[simp] theorem drawn_results : (drawn n s).results = s.results := rfl
@[simp] theorem drawn_port : (drawn n s).port = s.port := rfl
@[simp] theorem drawn_frames : (drawn n s).frames = s.frames := rfl
@[simp] theorem drawn_callbacks : (drawn n s).callbacks = s.callbacks := rfl
@[simp] theorem drawn_mutexOther : (drawn n s).mutexOther = s.mutexOther := rfl
@[simp] theorem drawn_sdaIn : (drawn n s).sdaIn = s.sdaIn.drop n := rfl
@[simp] theorem drawn_draws : (drawn n s).draws = s.draws + n := rfl
@[simp] theorem drawn_callsLeft : (drawn n s).callsLeft = s.callsLeft := rfl

end

end Sys2Proof.Machine
end

