-- ==== Sys2Proof/Laws/Primitives.lean ====
section
/-! SUPPORT. What each primitive does, as one closed form: the state written, the answers drawn, the events emitted. -/

namespace Sys2Proof.Machine

/-! ### Events in sequence -/

theorem pinsAfter_append (es fs : List Event) (p : Pins) : pinsAfter (es ++ fs) p = pinsAfter fs (pinsAfter es p) := by
  simp [pinsAfter]

theorem lockedAfter_append (es fs : List Event) (l : Bool) :
    lockedAfter (es ++ fs) l = lockedAfter fs (lockedAfter es l) := by
  simp [lockedAfter]

theorem emits_append (es fs : List Event) (s : State) : emits fs (emits es s) = emits (es ++ fs) s := by
  simp [emits, pinsAfter_append, lockedAfter_append]

/-! ### Answers -/

@[simp] theorem answerAt_drawn (s : State) (k n : Nat) : answerAt (drawn k s) n = answerAt s (k + n) := by
  simp [answerAt, drawn, Nat.add_assoc]

theorem answerAt_congr {s t : State} (hi : t.sdaIn = s.sdaIn) (hd : t.draws = s.draws) (n : Nat) :
    answerAt t n = answerAt s n := by
  simp [answerAt, hi, hd]

theorem drawn_drawn (j k : Nat) (s : State) : drawn j (drawn k s) = drawn (k + j) s := by
  simp [drawn, Nat.add_assoc]

@[simp] theorem drawn_zero (s : State) : drawn 0 s = s := by
  simp [drawn]

/-! ### The byte engine -/

theorem waitAckOp_eq (s : State) :
    waitAckOp s = { drawn 1 s with
      pins := { sclOut := false, sdaOut := true, sdaDir := .input }
      dp := { s.dp with ackf := !answerAt s 0 }
      trace := s.trace ++ waitAckEvents (answerAt s 0) } := by
  simp [waitAckOp, setAck, emit, emits, getSda, drawn, pinsAfter, lockedAfter, Event.onPins, Event.onLocked,
    waitAckEvents, answerAt, ackOf]

theorem shiftOutBits_eq (s : State) :
    shiftOutBits 8 s = { s with
      pins := { s.pins with sclOut := true, sdaOut := s.dp.shift.getLsbD 0 }
      dp := { s.dp with bitcnt := 0#4 }
      trace := s.trace ++ (msbFirst s.dp.shift).flatMap (bitOutEvents (half s.us)) } := by
  simp [shiftOutBits, shiftOutBit, emits, pinsAfter, lockedAfter, Event.onPins, Event.onLocked, msbFirst, bitOutEvents]

theorem writeByteOp_eq (b : Byte) (s : State) :
    writeByteOp b s = { drawn 1 s with
      pins := { sclOut := false, sdaOut := true, sdaDir := .input }
      dp := { s.dp with shift := b, bitcnt := 0#4, ackf := !answerAt s 0 }
      trace := s.trace ++ writeByteEvents (half s.us) b (answerAt s 0) } := by
  simp [writeByteOp, waitAckOp_eq, shiftOutBits_eq, halfDelay, emit, emits, drawn, pinsAfter, lockedAfter, Event.onPins,
    Event.onLocked, writeByteEvents, answerAt]

theorem shiftIn_eq (s : State) :
    [0, 1, 2, 3, 4, 5, 6, 7].foldl (fun acc k => shiftIn acc (answerAt s k)) 0#8 = sampledByte s 0 := by
  simp only [List.foldl, sampledByte]
  cases answerAt s 0 <;> cases answerAt s 1 <;> cases answerAt s 2 <;> cases answerAt s 3 <;> cases answerAt s 4 <;>
    cases answerAt s 5 <;> cases answerAt s 6 <;> cases answerAt s 7 <;> rfl

theorem shiftInBit_eq (n : Nat) (s : State) :
    shiftInBit n s = { drawn 1 s with
      pins := { s.pins with sclOut := false }
      dp := { s.dp with bitcnt := BitVec.ofNat 4 n, shift := shiftIn s.dp.shift (answerAt s 0) }
      trace := s.trace ++ bitInEvents s.us (answerAt s 0) } := by
  simp [shiftInBit, fullDelay, emit, emits, getSda, drawn, pinsAfter, lockedAfter, Event.onPins, Event.onLocked,
    bitInEvents, answerAt]

theorem readByteOp_eq (s : State) :
    readByteOp s = { drawn 8 s with
      pins := { sclOut := false, sdaOut := true, sdaDir := .input }
      dp := { s.dp with shift := sampledByte s 0, bitcnt := 8#4 }
      trace := s.trace ++ readByteEvents s.us (answersFrom s 0 8) } := by
  rw [← shiftIn_eq]
  simp [readByteOp, shiftInBits, shiftInBit_eq, emits, drawn, pinsAfter, lockedAfter, Event.onPins, Event.onLocked,
    readByteEvents, answersFrom, List.range_succ, bitInEvents, answerAt, Nat.add_assoc]

theorem sendAckOp_eq (ack : Bool) (s : State) :
    sendAckOp ack s = { s with
      pins := { sclOut := false, sdaOut := if ack then false else s.pins.sdaOut, sdaDir := .out }
      trace := s.trace ++ sendAckEvents (half s.us) ack } := by
  cases ack <;> rfl

end Sys2Proof.Machine
end

