-- ==== Sys2Proof/Laws/Address.lean ====
section
/-! SUPPORT. What SEND_ADDR and ADDR_PHASE do, as closed forms over the answers of the bus environment. -/

namespace Sys2Proof.Machine

theorem bit_cases (r : BitVec 1) : r = 0#1 ∨ r = 1#1 := by
  revert r; decide

theorem writeByteOp_ackf (b : Byte) (s : State) : (writeByteOp b s).dp.ackf = !answerAt s 0 := by
  simp [writeByteOp_eq]

theorem retryOp_eq (s : State) :
    retryOp s = { s with
      pins := { sclOut := false, sdaOut := false, sdaDir := .out }
      bus := .busHeld
      dp := { s.dp with tries := s.dp.tries + 1#1 }
      trace := s.trace ++ retryEvents s.us } := by
  simp [retryOp, setTries, startOp, stopOp, fullDelay, emit, emits, pinsAfter, lockedAfter, Event.onPins, Event.onLocked,
    retryEvents, stopEvents, startEvents]

/-- SEND_ADDR, in the state it leaves: `tries` and `bus` show whether it retried. -/
theorem sendAddrOp_eq (b : Byte) (rlim : BitVec 1) (s : State) :
    sendAddrOp b rlim s = { drawn (attempts s 0 rlim) s with
      pins := { sclOut := false, sdaOut := true, sdaDir := .input }
      bus := if retried rlim (answerAt s 0) then .busHeld else s.bus
      dp := { s.dp with
        shift := b, bitcnt := 0#4, ackf := addrAck s 0 rlim
        tries := if retried rlim (answerAt s 0) then 1#1 else 0#1 }
      trace := s.trace ++ sendAddrEvents s 0 b rlim } := by
  have hc (t : State) (hi : t.sdaIn = s.sdaIn) (hd : t.draws = s.draws) : answerAt t 0 = answerAt s 0 :=
    answerAt_congr hi hd 0
  have h1 (t : State) (hi : t.sdaIn = s.sdaIn.drop 1) (hd : t.draws = s.draws + 1) : answerAt t 0 = answerAt s 1 := by
    simp [answerAt, hi, hd]
  obtain rfl | rfl := bit_cases rlim
  · simp [sendAddrOp, sendAddrTries, setTries, writeByteOp_eq, retried, attempts, addrAck, sendAddrEvents, drawn, answerAt]
  · cases h : answerAt s 0
    · simp [sendAddrOp, sendAddrTries, setTries, writeByteOp_eq, retried, attempts, addrAck, sendAddrEvents, drawn, hc, h]
    · simp [sendAddrOp, sendAddrTries, setTries, writeByteOp_eq, retryOp_eq, retried, attempts, addrAck, sendAddrEvents, drawn,
        hc, h1, h]

/-! ### Answers counted from a later state -/

section
variable {s t : State} {k : Nat} (h : ∀ n, answerAt t n = answerAt s (k + n))
include h

theorem attempts_shift (j : Nat) (r : BitVec 1) : attempts t j r = attempts s (k + j) r := by
  simp [attempts, h]

theorem addrAck_shift (j : Nat) (r : BitVec 1) : addrAck t j r = addrAck s (k + j) r := by
  simp [addrAck, h, Nat.add_assoc]

theorem sendAddrEvents_shift (hu : t.us = s.us) (j : Nat) (b : Byte) (r : BitVec 1) :
    sendAddrEvents t j b r = sendAddrEvents s (k + j) b r := by
  simp [sendAddrEvents, h, hu, Nat.add_assoc]

end

/-! ### A first attempt that is acknowledged -/

@[simp] theorem retried_ack (r : BitVec 1) : retried r false = false := by simp [retried]

section
variable {s : State} {k : Nat} (h : answerAt s k = false) (r : BitVec 1)
include h

theorem attempts_ack : attempts s k r = 1 := by simp [attempts, h]

theorem addrAck_ack : addrAck s k r = true := by simp [addrAck, h]

theorem sendAddrEvents_ack (b : Byte) : sendAddrEvents s k b r = writeByteEvents (half s.us) b false := by
  simp [sendAddrEvents, h]

end

/-! ### ADDR_PHASE -/

/-- The 7-bit address phase: one SEND_ADDR of the address byte (R123, R125). -/
theorem addrPhaseOp_7bit (m : Msg) (s : State) (h7 : is10bit s.par m = false) :
    (addrPhaseOp m s).1 = (addrAck s 0 (retryLimit s.par m) || ignoreNack s.par m) ∧
    (addrPhaseOp m s).2 =
      sendAddrOp (addrByte7 s.par m) (retryLimit s.par m)
        (setAddr1 (addrByte7 s.par m) (setRlim (retryLimit s.par m) s)) := by
  have ha : (sendAddrOp (addrByte7 s.par m) (retryLimit s.par m)
      (setAddr1 (addrByte7 s.par m) (setRlim (retryLimit s.par m) s))).dp.ackf =
      addrAck s 0 (retryLimit s.par m) := by
    simp only [sendAddrOp_eq]
    exact addrAck_shift (s := s) (k := 0) (fun n => by simp [answerAt]) 0 _
  simp only [addrPhaseOp, h7, addrPhase7, Bool.false_eq_true, if_false, setRlim_par, setRlim_dp, ha]
  split <;> rename_i hc <;> revert hc <;> cases addrAck s 0 (retryLimit s.par m) <;> cases ignoreNack s.par m <;> simp

/-- The 10-bit address phase (R126, R127): what it returns and what it puts on the wire, from the answers alone. -/
theorem addrPhaseOp_10bit (m : Msg) (s : State) (h10 : is10bit s.par m = true) {r : BitVec 1} {ign ok1 ok2 : Bool} {k : Nat}
    (hr : retryLimit s.par m = r)
    (hign : ignoreNack s.par m = ign)
    (hok1 : (addrAck s 0 r || ign) = ok1)
    (hk : attempts s 0 r = k)
    (hok2 : (!answerAt s k || ign) = ok2) :
    (addrPhaseOp m s).1 = (ok1 && ok2 && (!isRead s.par m || (addrAck s (k + 1) r || ign))) ∧
    (addrPhaseOp m s).2.trace = s.trace ++ (sendAddrEvents s 0 (addrByteHi m) r ++
      if ok1 then writeByteEvents (half s.us) (addrByteLo m) (answerAt s k) ++
        (if ok2 && isRead s.par m then restartEvents (half s.us) ++ sendAddrEvents s (k + 1) (addrByteHi m ||| 0x01#8) r else [])
      else []) ∧
    ∀ n, answerAt (addrPhaseOp m s).2 n =
      answerAt s (k + (if ok1 then 1 + (if ok2 && isRead s.par m then attempts s (k + 1) r else 0) else 0) + n) := by
  simp only [addrPhaseOp, h10, if_true, addrPhase10, setRlim_par, setRlim_dp, hr, hign]
  generalize hs0 : setAddr2 (addrByteLo m) (setAddr1 (addrByteHi m) (setRlim r s)) = s0
  have z (n) : answerAt s0 n = answerAt s (0 + n) := by subst hs0; simp [answerAt]
  have us0 : s0.us = s.us := by subst hs0; rfl
  have q1 : s0.dp.rlim = r := by subst hs0; rfl
  have q2 : s0.dp.addr1 = addrByteHi m := by subst hs0; rfl
  have q3 : s0.dp.addr2 = addrByteLo m := by subst hs0; rfl
  have q4 : s0.trace = s.trace := by subst hs0; rfl
  clear hs0
  generalize hs1 : sendAddrOp (addrByteHi m) r s0 = s1
  have f1 : s1.dp.ackf = addrAck s 0 r := by simp only [← hs1, sendAddrOp_eq]; exact addrAck_shift z 0 r
  have f2 : s1.dp.rlim = r := by simp only [← hs1, sendAddrOp_eq]; exact q1
  have f3 : s1.dp.addr1 = addrByteHi m := by simp only [← hs1, sendAddrOp_eq]; exact q2
  have f4 : s1.dp.addr2 = addrByteLo m := by simp only [← hs1, sendAddrOp_eq]; exact q3
  have f5 : s1.trace = s.trace ++ sendAddrEvents s 0 (addrByteHi m) r := by
    simp only [← hs1, sendAddrOp_eq, q4]; rw [sendAddrEvents_shift z us0]
  have f6 (n) : answerAt s1 n = answerAt s (k + n) := by
    simp only [← hs1, sendAddrOp_eq]
    show answerAt (drawn _ s0) n = _
    rw [answerAt_drawn, attempts_shift z, z]; simp [hk]
  have f7 : s1.us = s.us := by simp only [← hs1, sendAddrOp_eq]; exact us0
  generalize hs2 : writeByteOp s1.dp.addr2 s1 = s2
  have g1 : s2.dp.ackf = !answerAt s k := by rw [← hs2, writeByteOp_ackf, f6]; rfl
  have g2 : s2.dp.rlim = r := by rw [← hs2, writeByteOp_eq]; exact f2
  have g3 : s2.dp.addr1 = addrByteHi m := by rw [← hs2, writeByteOp_eq]; exact f3
  have g5 : s2.trace = s.trace ++ sendAddrEvents s 0 (addrByteHi m) r ++ writeByteEvents (half s.us) (addrByteLo m) (answerAt s k) := by
    rw [← hs2, writeByteOp_eq]; simp [f5, f4, f7, f6]
  have g6 (n) : answerAt s2 n = answerAt s (k + 1 + n) := by
    rw [← hs2, writeByteOp_eq]
    show answerAt (drawn _ s1) n = _
    rw [answerAt_drawn, f6, Nat.add_assoc]
  have g7 : s2.us = s.us := by rw [← hs2, writeByteOp_eq]; exact f7
  have h1 : (restartOp s2).dp.addr1 = addrByteHi m := g3
  have h2 : (restartOp s2).dp.rlim = r := g2
  generalize hs4 : setAddr1 ((restartOp s2).dp.addr1 ||| 0x01#8) (restartOp s2) = s4
  have i1 : s4.dp.addr1 = addrByteHi m ||| 1#8 := by rw [← hs4, ← h1]; rfl
  have i2 : s4.dp.rlim = r := by rw [← hs4]; exact h2
  have i6 (n) : answerAt s4 n = answerAt s (k + 1 + n) := by rw [← g6, ← hs4]; rfl
  have i7 : s4.us = s.us := by rw [← hs4]; exact g7
  have i5 : s4.trace = s2.trace ++ restartEvents (half s.us) := by rw [← hs4, ← g7]; rfl
  generalize hs5 : sendAddrOp s4.dp.addr1 s4.dp.rlim s4 = s5
  have j1 : s5.dp.ackf = addrAck s (k + 1) r := by simp only [← hs5, i2, sendAddrOp_eq]; exact addrAck_shift i6 0 r
  have j2 : s5.trace = s2.trace ++ restartEvents (half s.us) ++ sendAddrEvents s (k + 1) (addrByteHi m ||| 1#8) r := by
    simp only [← hs5, i2, sendAddrOp_eq, i5, i1]; rw [sendAddrEvents_shift i6 i7]
  have j6 (n) : answerAt s5 n = answerAt s (k + 1 + attempts s (k + 1) r + n) := by
    simp only [← hs5, i2, sendAddrOp_eq]
    show answerAt (drawn _ s4) n = _
    rw [answerAt_drawn, attempts_shift i6, i6, Nat.add_zero, Nat.add_assoc (k + 1)]
  have l1 : (!s1.dp.ackf && !ign) = !ok1 := by rw [f1, ← hok1]; simp
  have l2 : (!s2.dp.ackf && !ign) = !ok2 := by rw [g1, ← hok2]; simp
  have l3 : (!s5.dp.ackf && !ign) = !(addrAck s (k+1) r || ign) := by rw [j1]; simp
  rw [l1, l2, l3]
  cases ok1 <;> cases ok2 <;> cases isRead s.par m <;> cases (addrAck s (k+1) r || ign) <;>
    simp [f5, g5, j2, f6, g6, j6, Nat.add_assoc]

end Sys2Proof.Machine
end

