-- ==== Sys2Proof/Laws/Frames.lean ====
section
/-! SUPPORT. What the operations on a held bus keep (the frame), said once for all of them. -/

namespace Sys2Proof.Machine

/-- What every operation that runs on a held bus keeps, and the levels it ends with (R102). -/
structure Held (s t : State) : Prop where
  par : t.par = s.par
  cap : t.cap = s.cap
  us : t.us = s.us
  refused : t.refused = s.refused
  port : t.port = s.port
  mutexOther : t.mutexOther = s.mutexOther
  callsLeft : t.callsLeft = s.callsLeft
  callbacks : t.callbacks = s.callbacks
  frames : t.frames = s.frames
  eng : t.eng = s.eng
  locked : t.locked = s.locked
  seq : t.seq = s.seq
  results : t.results = s.results
  bus : t.bus = .busHeld
  scl : t.pins.sclOut = false
  i : t.dp.i = s.dp.i
  result : t.dp.result = s.dp.result

theorem Held.refl {s : State} (hb : s.bus = .busHeld) (hc : s.pins.sclOut = false) : Held s s := by
  constructor <;> first | rfl | assumption

theorem Held.trans {s t u : State} (h1 : Held s t) (h2 : Held t u) : Held s u where
  par := h2.par.trans h1.par
  cap := h2.cap.trans h1.cap
  us := h2.us.trans h1.us
  refused := h2.refused.trans h1.refused
  port := h2.port.trans h1.port
  mutexOther := h2.mutexOther.trans h1.mutexOther
  callsLeft := h2.callsLeft.trans h1.callsLeft
  callbacks := h2.callbacks.trans h1.callbacks
  frames := h2.frames.trans h1.frames
  eng := h2.eng.trans h1.eng
  locked := h2.locked.trans h1.locked
  seq := h2.seq.trans h1.seq
  results := h2.results.trans h1.results
  bus := h2.bus
  scl := h2.scl
  i := h2.i.trans h1.i
  result := h2.result.trans h1.result

theorem Held.setting {s t : State} (h : Held s t) : SameSetting s t :=
  ⟨h.par, h.cap, h.us, h.refused, h.port, h.mutexOther, h.callsLeft⟩

theorem waitAckOp_held {s : State} (hb : s.bus = .busHeld) : Held s (waitAckOp s) := by
  rw [waitAckOp_eq]; constructor <;> first | rfl | exact hb

theorem writeByteOp_held (b : Byte) {s : State} (hb : s.bus = .busHeld) : Held s (writeByteOp b s) := by
  rw [writeByteOp_eq]; constructor <;> first | rfl | exact hb

theorem readByteOp_held {s : State} (hb : s.bus = .busHeld) : Held s (readByteOp s) := by
  rw [readByteOp_eq]; constructor <;> first | rfl | exact hb

theorem sendAckOp_held (ack : Bool) {s : State} (hb : s.bus = .busHeld) : Held s (sendAckOp ack s) := by
  rw [sendAckOp_eq]; constructor <;> first | rfl | exact hb

theorem restartOp_held {s : State} (hb : s.bus = .busHeld) : Held s (restartOp s) := by
  constructor <;> first | rfl | exact hb

theorem sendAddrOp_held (b : Byte) (r : BitVec 1) {s : State} (hb : s.bus = .busHeld) : Held s (sendAddrOp b r s) := by
  rw [sendAddrOp_eq]
  constructor <;> first | rfl | (simp [hb])

/-- A datapath register written before the operation runs, other than `I` and `RESULT`. -/
theorem Held.of_dp {s t : State} {d : Datapath} (h : Held { s with dp := d } t) (hi : d.i = s.dp.i)
    (hr : d.result = s.dp.result) : Held s t where
  par := h.par
  cap := h.cap
  us := h.us
  refused := h.refused
  port := h.port
  mutexOther := h.mutexOther
  callsLeft := h.callsLeft
  callbacks := h.callbacks
  frames := h.frames
  eng := h.eng
  locked := h.locked
  seq := h.seq
  results := h.results
  bus := h.bus
  scl := h.scl
  i := h.i.trans hi
  result := h.result.trans hr

theorem addrPhase7_held (m : Msg) {s : State} (hb : s.bus = .busHeld) : Held s (addrPhase7 m s).2 := by
  have h1 : Held s (sendAddrOp (addrByte7 s.par m) s.dp.rlim (setAddr1 (addrByte7 s.par m) s)) :=
    Held.of_dp (sendAddrOp_held _ _ (by exact hb)) rfl rfl
  simp only [addrPhase7]
  split <;> exact h1

theorem addrPhase10_held (m : Msg) {s : State} (hb : s.bus = .busHeld) : Held s (addrPhase10 m s).2 := by
  simp only [addrPhase10]
  generalize hs1 : sendAddrOp (addrByteHi m) s.dp.rlim
    (setAddr2 (addrByteLo m) (setAddr1 (addrByteHi m) s)) = s1
  have h1 : Held s s1 := hs1 ▸ Held.of_dp (sendAddrOp_held _ _ (by exact hb)) rfl rfl
  have h2 : Held s (writeByteOp s1.dp.addr2 s1) := h1.trans (writeByteOp_held _ h1.bus)
  have h3 : Held s (restartOp (writeByteOp s1.dp.addr2 s1)) := h2.trans (restartOp_held h2.bus)
  split
  · exact h1
  split
  · exact h2
  split
  · split <;> exact h3.trans (Held.of_dp (sendAddrOp_held _ _ (by exact h3.bus)) rfl rfl)
  · exact h2

theorem addrPhaseOp_held (m : Msg) {s : State} (hb : s.bus = .busHeld) : Held s (addrPhaseOp m s).2 := by
  simp only [addrPhaseOp]
  split
  · exact Held.of_dp (addrPhase10_held m (by exact hb)) rfl rfl
  · exact Held.of_dp (addrPhase7_held m (by exact hb)) rfl rfl

/-! ### What the address phase leaves alone -/

/-- The buffers and the byte counts, which no address phase touches. -/
structure Still (s t : State) : Prop where
  mem : t.mem = s.mem
  bytes : t.dp.bytes = s.dp.bytes
  remain : t.dp.remain = s.dp.remain

theorem Still.trans {s t u : State} (h1 : Still s t) (h2 : Still t u) : Still s u :=
  ⟨h2.mem.trans h1.mem, h2.bytes.trans h1.bytes, h2.remain.trans h1.remain⟩

theorem Still.of_dp {s t : State} {d : Datapath} (h : Still { s with dp := d } t) (hb : d.bytes = s.dp.bytes)
    (hr : d.remain = s.dp.remain) : Still s t :=
  ⟨h.mem, h.bytes.trans hb, h.remain.trans hr⟩

theorem writeByteOp_still (b : Byte) (s : State) : Still s (writeByteOp b s) := by
  rw [writeByteOp_eq]; constructor <;> rfl

theorem sendAddrOp_still (b : Byte) (r : BitVec 1) (s : State) : Still s (sendAddrOp b r s) := by
  rw [sendAddrOp_eq]; constructor <;> rfl

theorem restartOp_still (s : State) : Still s (restartOp s) := by constructor <;> rfl

theorem addrPhase10_still (m : Msg) (s : State) : Still s (addrPhase10 m s).2 := by
  simp only [addrPhase10]
  generalize hs1 : sendAddrOp (addrByteHi m) s.dp.rlim (setAddr2 (addrByteLo m) (setAddr1 (addrByteHi m) s)) = s1
  have h1 : Still s s1 := hs1 ▸ Still.of_dp (sendAddrOp_still _ _ (setAddr2 (addrByteLo m) (setAddr1 (addrByteHi m) s))) rfl rfl
  have h2 : Still s (writeByteOp s1.dp.addr2 s1) := h1.trans (writeByteOp_still _ _)
  have h3 : Still s (restartOp (writeByteOp s1.dp.addr2 s1)) := h2.trans (restartOp_still _)
  generalize restartOp (writeByteOp s1.dp.addr2 s1) = s3 at h3
  have h4 := h3.trans (Still.of_dp (sendAddrOp_still (setAddr1 (s3.dp.addr1 ||| 0x01#8) s3).dp.addr1
    (setAddr1 (s3.dp.addr1 ||| 0x01#8) s3).dp.rlim (setAddr1 (s3.dp.addr1 ||| 0x01#8) s3)) rfl rfl)
  split
  · exact h1
  split
  · exact h2
  split
  · split <;> exact h4
  · exact h2

theorem addrPhase7_still (m : Msg) (s : State) : Still s (addrPhase7 m s).2 := by
  have h := sendAddrOp_still (addrByte7 s.par m) s.dp.rlim (setAddr1 (addrByte7 s.par m) s)
  have h1 : Still s (sendAddrOp (addrByte7 s.par m) s.dp.rlim (setAddr1 (addrByte7 s.par m) s)) :=
    ⟨h.mem, h.bytes, h.remain⟩
  simp only [addrPhase7]
  split <;> exact h1

theorem addrPhaseOp_still (m : Msg) (s : State) : Still s (addrPhaseOp m s).2 := by
  simp only [addrPhaseOp]
  split
  · have h := addrPhase10_still m (setRlim (retryLimit s.par m) s)
    exact ⟨h.mem, h.bytes, h.remain⟩
  · have h := addrPhase7_still m (setRlim (retryLimit s.par m) s)
    exact ⟨h.mem, h.bytes, h.remain⟩

/-! ### The byte loops -/

theorem countByte_held {s : State} (hb : s.bus = .busHeld) (hc : s.pins.sclOut = false) : Held s (countByte s) := by
  constructor <;> first | rfl | assumption

theorem sendOne_held (m : Msg) {s : State} (hb : s.bus = .busHeld) : Held s (sendOne m s) := by
  have h := writeByteOp_held (Memory.read s.mem (cellAddr m s.dp.bytes)) (s := memRead (cellAddr m s.dp.bytes) s) hb
  constructor
  · exact h.par
  · exact h.cap
  · exact h.us
  · exact h.refused
  · exact h.port
  · exact h.mutexOther
  · exact h.callsLeft
  · exact h.callbacks
  · exact h.frames
  · exact h.eng
  · exact h.locked
  · exact h.seq
  · exact h.results
  · exact h.bus
  · exact h.scl
  · exact h.i
  · exact h.result

theorem sendLoop_held (m : Msg) (k : Nat) {s : State} (hb : s.bus = .busHeld) (hc : s.pins.sclOut = false) :
    Held s (sendLoop m k s) := by
  induction k generalizing s with
  | zero => exact Held.refl hb hc
  | succ k ih =>
    have h1 := sendOne_held m hb
    have h2 := h1.trans (countByte_held h1.bus h1.scl)
    simp only [sendLoop]
    split
    · exact h1
    · exact h2.trans (ih h2.bus h2.scl)

theorem sendBytesOp_held (m : Msg) {s : State} (hb : s.bus = .busHeld) (hc : s.pins.sclOut = false) :
    Held s (sendBytesOp m s) :=
  Held.of_dp (sendLoop_held m m.len (s := initCounts m s) hb hc) rfl rfl

theorem memWrite_held (a : Nat) (v : Byte) {s : State} (hb : s.bus = .busHeld) (hc : s.pins.sclOut = false) :
    Held s (memWrite a v s) := by
  constructor <;> first | rfl | assumption

theorem recvOne_held (m : Msg) {s : State} (hb : s.bus = .busHeld) : Held s (recvOne m s) := by
  have h1 := readByteOp_held hb
  have h2 := h1.trans (memWrite_held (cellAddr m (readByteOp s).dp.bytes) (readByteOp s).dp.shift h1.bus h1.scl)
  have h3 := h2.trans (countByte_held h2.bus h2.scl)
  simp only [recvOne]
  split
  · exact h3
  · exact h3.trans (sendAckOp_held _ h3.bus)

theorem recvLoop_held (m : Msg) (k : Nat) {s : State} (hb : s.bus = .busHeld) (hc : s.pins.sclOut = false) :
    Held s (recvLoop m k s) := by
  induction k generalizing s with
  | zero => exact Held.refl hb hc
  | succ k ih =>
    have h1 := recvOne_held m hb
    exact h1.trans (ih h1.bus h1.scl)

theorem recvBytesOp_held (m : Msg) {s : State} (hb : s.bus = .busHeld) (hc : s.pins.sclOut = false) :
    Held s (recvBytesOp m s) :=
  Held.of_dp (recvLoop_held m m.len (s := initCounts m s) hb hc) rfl rfl

end Sys2Proof.Machine
end

