-- ==== Sys2Proof/Laws/Memory.lean ====
section
/-! SUPPORT. Buffer space: a read after a write, and the canonical form kept. -/

namespace Sys2Proof.Machine

namespace Memory

theorem wf_cons {b : Nat} {w : Byte} {r : Memory} :
    Memory.wf ((b, w) :: r) = true ↔ w ≠ unlistedByte ∧ (∀ c ∈ r, b < c.1) ∧ Memory.wf r = true := by
  simp [Memory.wf, and_assoc]

/-- A cell below every listed address is not listed. -/
theorem read_below {r : Memory} {a : Nat} (h : ∀ c ∈ r, a < c.1) : Memory.read r a = unlistedByte := by
  induction r with
  | nil => rfl
  | cons c r ih =>
    obtain ⟨b, w⟩ := c
    have hb : a < b := h (b, w) (by simp)
    have : a ≠ b := by omega
    simp [Memory.read, this, ih fun c hc => h c (by simp [hc])]

theorem read_write_same {m : Memory} (h : Memory.wf m = true) (a : Nat) (v : Byte) :
    Memory.read (Memory.write m a v) a = v := by
  induction m with
  | nil => by_cases hv : v = unlistedByte <;> simp [Memory.write, Memory.read, hv]
  | cons c r ih =>
    obtain ⟨b, w⟩ := c
    obtain ⟨-, hr, hw⟩ := wf_cons.1 h
    by_cases h1 : a < b
    · have hne : a ≠ b := by omega
      by_cases hv : v = unlistedByte
      · simp [Memory.write, h1, hv, Memory.read, hne, read_below fun c hc => h1.trans (hr c hc)]
      · simp [Memory.write, h1, hv, Memory.read]
    · by_cases h2 : a = b
      · subst h2
        by_cases hv : v = unlistedByte
        · simp [Memory.write, hv, read_below hr]
        · simp [Memory.write, hv, Memory.read]
      · simp [Memory.write, h1, h2, Memory.read, ih hw]

theorem read_write_other {m : Memory} {a c : Nat} (v : Byte) (h : c ≠ a) :
    Memory.read (Memory.write m a v) c = Memory.read m c := by
  induction m with
  | nil => by_cases hv : v = unlistedByte <;> simp [Memory.write, Memory.read, hv, h]
  | cons x r ih =>
    obtain ⟨b, w⟩ := x
    by_cases h1 : a < b
    · by_cases hv : v = unlistedByte <;> simp [Memory.write, h1, hv, Memory.read, h]
    · by_cases h2 : a = b
      · subst h2
        by_cases hv : v = unlistedByte <;> simp [Memory.write, hv, Memory.read, h]
      · simp [Memory.write, h1, h2, Memory.read, ih]

theorem mem_write {m : Memory} {a : Nat} {v : Byte} {c : Host.Cell} (h : c ∈ Memory.write m a v) :
    c ∈ m ∨ c = (a, v) := by
  induction m with
  | nil => by_cases hv : v = unlistedByte <;> simp_all [Memory.write]
  | cons x r ih =>
    obtain ⟨b, w⟩ := x
    simp only [Memory.write] at h
    split at h
    · split at h
      · exact .inl h
      · rcases List.mem_cons.1 h with h | h
        · exact .inr h
        · exact .inl h
    · split at h
      · split at h
        · exact .inl (List.mem_cons_of_mem _ h)
        · rcases List.mem_cons.1 h with h | h
          · exact .inr h
          · exact .inl (List.mem_cons_of_mem _ h)
      · rcases List.mem_cons.1 h with h | h
        · exact .inl (h ▸ List.mem_cons_self)
        · exact (ih h).imp (List.mem_cons_of_mem _) id

theorem wf_write {m : Memory} (h : Memory.wf m = true) (a : Nat) (v : Byte) : Memory.wf (Memory.write m a v) = true := by
  induction m with
  | nil => by_cases hv : v = unlistedByte <;> simp [Memory.write, Memory.wf, hv]
  | cons x r ih =>
    obtain ⟨b, w⟩ := x
    obtain ⟨hn, hr, hw⟩ := wf_cons.1 h
    simp only [Memory.write]
    split
    · rename_i hab
      split
      · exact h
      · rename_i hv
        refine wf_cons.2 ⟨hv, ?_, h⟩
        simp only [List.forall_mem_cons]
        exact ⟨hab, fun c hc => hab.trans (hr c hc)⟩
    · rename_i hab
      split
      · rename_i he
        split
        · exact hw
        · rename_i hv
          exact wf_cons.2 ⟨hv, he ▸ hr, hw⟩
      · rename_i he
        refine wf_cons.2 ⟨hn, fun c hc => ?_, ih hw⟩
        rcases mem_write hc with hc | rfl
        · exact hr c hc
        · simp only; omega

end Memory

end Sys2Proof.Machine
end

