-- ==== Sys2Proof/Laws/Engine.lean ====
section
/-! SUPPORT. What the data phases do, exactly: the events, the bytes counted, the buffer cells. -/

namespace Sys2Proof.Machine

/-! ### SEND_BYTES -/

theorem sendOne_eq (m : Msg) (s : State) :
    sendOne m s = { drawn 1 s with
      pins := { sclOut := false, sdaOut := true, sdaDir := .input }
      dp := { s.dp with shift := sentByte s m s.dp.bytes, bitcnt := 0#4, ackf := !answerAt s 0 }
      trace := s.trace ++ (.memRead (cellAddr m s.dp.bytes) (sentByte s m s.dp.bytes) ::
        writeByteEvents (half s.us) (sentByte s m s.dp.bytes) (answerAt s 0)) } := by
  simp [sendOne, writeByteOp_eq, memRead, emit, emits, drawn, pinsAfter, lockedAfter, Event.onPins, Event.onLocked,
    sentByte, answerAt]

/-- What sending `n` bytes leaves, whatever is counted. -/
structure Sent (m : Msg) (n : Nat) (s t : State) : Prop where
  trace : t.trace = s.trace ++ sendEvents s m s.dp.bytes n
  mem : t.mem = s.mem
  sdaIn : t.sdaIn = s.sdaIn.drop n
  draws : t.draws = s.draws + n
  addr1 : t.dp.addr1 = s.dp.addr1
  addr2 : t.dp.addr2 = s.dp.addr2
  rlim : t.dp.rlim = s.dp.rlim
  tries : t.dp.tries = s.dp.tries
  pins : t.pins = if n = 0 then s.pins else { sclOut := false, sdaOut := true, sdaDir := .input }

theorem Sent.zero (m : Msg) (s : State) : Sent m 0 s s := by
  constructor <;> simp [sendEvents]

theorem sendEvents_succ (s : State) (m : Msg) (j n : Nat) {t : State} (hm : t.mem = s.mem) (hu : t.us = s.us)
    (ha : ∀ d, answerAt t d = answerAt s (1 + d)) :
    sendEvents s m j (n + 1) =
      (.memRead (cellAddr m j) (sentByte s m j) :: writeByteEvents (half s.us) (sentByte s m j) (answerAt s 0)) ++
        sendEvents t m (j + 1) n := by
  simp only [sendEvents, List.range_succ_eq_map, List.flatMap_cons, List.flatMap_map, sentByte, hm, hu, ha, Nat.add_zero]
  congr 2
  funext d
  simp [Nat.add_comm, Nat.add_left_comm]

theorem Sent.answers {m : Msg} {n : Nat} {s t : State} (h : Sent m n s t) (d : Nat) :
    answerAt t d = answerAt s (n + d) := by
  simp [answerAt, h.sdaIn, h.draws, Nat.add_assoc]

/-- The first byte sent, then the rest. -/
theorem Sent.cons {m : Msg} {n : Nat} {s u t : State} (hu : u.us = s.us) (hb : u.dp.bytes = s.dp.bytes + 1)
    (h1 : Sent m 1 s u) (h : Sent m n u t) : Sent m (n + 1) s t where
  trace := by
    rw [h.trace, h1.trace, hb, sendEvents_succ s m s.dp.bytes n h1.mem hu h1.answers,
      sendEvents_succ s m s.dp.bytes 0 h1.mem hu h1.answers]
    simp [sendEvents]
  mem := h.mem.trans h1.mem
  sdaIn := by simp [h.sdaIn, h1.sdaIn]
  draws := by rw [h.draws, h1.draws]; omega
  addr1 := h.addr1.trans h1.addr1
  addr2 := h.addr2.trans h1.addr2
  rlim := h.rlim.trans h1.rlim
  tries := h.tries.trans h1.tries
  pins := by rw [h.pins, h1.pins]; split <;> simp

theorem sendOne_sent (m : Msg) (s : State) : Sent m 1 s (sendOne m s) := by
  rw [sendOne_eq]
  constructor <;> rfl

theorem sendOne_counted (m : Msg) (s : State) : Sent m 1 s (countByte (sendOne m s)) := by
  have h := sendOne_sent m s
  exact ⟨h.trace, h.mem, h.sdaIn, h.draws, h.addr1, h.addr2, h.rlim, h.tries, h.pins⟩

theorem sendOne_us (m : Msg) (s : State) : (sendOne m s).us = s.us := by rw [sendOne_eq]; rfl

theorem sendOne_par (m : Msg) (s : State) : (sendOne m s).par = s.par := by rw [sendOne_eq]; rfl

theorem sendOne_bytes (m : Msg) (s : State) : (sendOne m s).dp.bytes = s.dp.bytes := by rw [sendOne_eq]

theorem sendOne_remain (m : Msg) (s : State) : (sendOne m s).dp.remain = s.dp.remain := by rw [sendOne_eq]

theorem sendOne_ackf (m : Msg) (s : State) : (sendOne m s).dp.ackf = !answerAt s 0 := by rw [sendOne_eq]

/-- Every byte acknowledged, or every NACK masked: all are sent and counted (R143). -/
theorem sendLoop_all (m : Msg) (k : Nat) (s : State)
    (h : ignoreNack s.par m = true ∨ ∀ j < k, answerAt s j = false) :
    Sent m k s (sendLoop m k s) ∧ (sendLoop m k s).dp.bytes = s.dp.bytes + k ∧
      (sendLoop m k s).dp.remain = s.dp.remain - k := by
  induction k generalizing s with
  | zero => exact ⟨Sent.zero m s, rfl, rfl⟩
  | succ k ih =>
    have hc : (!(sendOne m s).dp.ackf && !ignoreNack s.par m) = false := by
      rcases h with h | h
      · simp [h]
      · simp [sendOne_ackf, h 0 (by omega)]
    have h1 := sendOne_counted m s
    have hnext : ignoreNack (countByte (sendOne m s)).par m = true ∨
        ∀ j < k, answerAt (countByte (sendOne m s)) j = false := by
      rcases h with h | h
      · exact .inl (by rw [countByte_par, sendOne_par, h])
      · exact .inr fun j hj => by rw [h1.answers, h (1 + j) (by omega)]
    obtain ⟨h2, hb, hr⟩ := ih (countByte (sendOne m s)) hnext
    simp only [sendLoop, hc, Bool.false_eq_true, if_false]
    refine ⟨Sent.cons (by rw [countByte_us, sendOne_us]) (by simp [sendOne_bytes]) h1 h2, ?_, ?_⟩
    · rw [hb]; simp [sendOne_bytes]; omega
    · rw [hr]; simp [sendOne_remain]; omega

/-- The first unmasked NACK ends the loop: it and the bytes before it are sent, the bytes before it are counted
(R143, R144). -/
theorem sendLoop_nack (m : Msg) (k : Nat) (s : State) (hi : ignoreNack s.par m = false) (j : Nat) (hj : j < k)
    (hn : answerAt s j = true) (ha : ∀ d < j, answerAt s d = false) :
    Sent m (j + 1) s (sendLoop m k s) ∧ (sendLoop m k s).dp.bytes = s.dp.bytes + j ∧
      (sendLoop m k s).dp.remain = s.dp.remain - j ∧ (sendLoop m k s).dp.ackf = false := by
  induction k generalizing s j with
  | zero => omega
  | succ k ih =>
    have h1 := sendOne_counted m s
    rcases Nat.eq_zero_or_pos j with rfl | hpos
    · have hc : (!(sendOne m s).dp.ackf && !ignoreNack s.par m) = true := by simp [sendOne_ackf, hn, hi]
      simp only [sendLoop, hc, if_true]
      exact ⟨sendOne_sent m s, sendOne_bytes m s, sendOne_remain m s, by simp [sendOne_ackf, hn]⟩
    · have hc : (!(sendOne m s).dp.ackf && !ignoreNack s.par m) = false := by simp [sendOne_ackf, ha 0 hpos]
      obtain ⟨i, rfl⟩ : ∃ i, j = i + 1 := ⟨j - 1, by omega⟩
      obtain ⟨h2, hb, hr, hk⟩ := ih (countByte (sendOne m s)) (by rw [countByte_par, sendOne_par, hi]) i (by omega)
        (by rw [h1.answers, Nat.add_comm, hn]) (fun d hd => by rw [h1.answers, ha (1 + d) (by omega)])
      simp only [sendLoop, hc, Bool.false_eq_true, if_false]
      refine ⟨Sent.cons (by rw [countByte_us, sendOne_us]) (by simp [sendOne_bytes]) h1 h2, ?_, ?_, hk⟩
      · rw [hb]; simp [sendOne_bytes]; omega
      · rw [hr]; simp [sendOne_remain]; omega

/-- Either no unmasked NACK comes, or there is a first one. -/
theorem send_cases (m : Msg) (k : Nat) (s : State) :
    (ignoreNack s.par m = true ∨ ∀ j < k, answerAt s j = false) ∨
    (ignoreNack s.par m = false ∧ ∃ j < k, answerAt s j = true ∧ ∀ d < j, answerAt s d = false) := by
  cases hi : ignoreNack s.par m
  · by_cases h : ∃ j, j < k ∧ answerAt s j = true
    · refine .inr ⟨rfl, Nat.find h, (Nat.find_spec h).1, (Nat.find_spec h).2, fun d hd => ?_⟩
      have hlt : d < k := hd.trans (Nat.find_spec h).1
      have := Nat.find_min h hd
      simpa [hlt] using this
    · exact .inl (.inr fun j hj => by
        by_contra hc
        exact h ⟨j, hj, by simpa using hc⟩)
  · exact .inl (.inl rfl)

/-! ### RECV_BYTES -/

/-- One byte received (R145), exactly. -/
theorem recvOne_eq (m : Msg) (s : State) :
    recvOne m s = { drawn 8 s with
      pins := if noReadAck s.par m then { sclOut := false, sdaOut := true, sdaDir := .input }
        else { sclOut := false, sdaOut := !(s.dp.remain - 1 != 0), sdaDir := .out }
      dp := { s.dp with
        shift := sampledByte s 0, bitcnt := 8#4, bytes := s.dp.bytes + 1, remain := s.dp.remain - 1 }
      mem := Memory.write s.mem (cellAddr m s.dp.bytes) (sampledByte s 0)
      trace := s.trace ++ (readByteEvents s.us (answersFrom s 0 8) ++
        (.memWrite (cellAddr m s.dp.bytes) (sampledByte s 0) ::
          if noReadAck s.par m then [] else sendAckEvents (half s.us) (s.dp.remain - 1 != 0))) } := by
  cases h : noReadAck s.par m <;> cases hr : (s.dp.remain - 1 != 0) <;>
    simp [recvOne, readByteOp_eq, sendAckOp_eq, memWrite, countByte, emit, emits, drawn, pinsAfter, lockedAfter,
      Event.onPins, Event.onLocked, h, hr]

/-- The events of the last `k` bytes, the first of them of index `j`. -/
def recvEventsFrom (s : State) (m : Msg) (j k : Nat) : List Event :=
  (List.range k).flatMap fun d =>
    readByteEvents s.us (answersFrom s (8 * d) 8) ++
      (.memWrite (cellAddr m (j + d)) (sampledByte s (8 * d)) ::
        if noReadAck s.par m then [] else sendAckEvents (half s.us) (decide (d + 1 < k)))

theorem answersFrom_shift {s t : State} {k : Nat} (h : ∀ n, answerAt t n = answerAt s (k + n)) (j n : Nat) :
    answersFrom t j n = answersFrom s (k + j) n := by
  simp [answersFrom, h, Nat.add_assoc]

theorem sampledByte_shift {s t : State} {k : Nat} (h : ∀ n, answerAt t n = answerAt s (k + n)) (j : Nat) :
    sampledByte t j = sampledByte s (k + j) := by
  simp [sampledByte, h, Nat.add_assoc]

theorem recvEventsFrom_succ (s : State) (m : Msg) (j k : Nat) {t : State} (hp : t.par = s.par) (hu : t.us = s.us)
    (ha : ∀ d, answerAt t d = answerAt s (8 + d)) :
    recvEventsFrom s m j (k + 1) =
      (readByteEvents s.us (answersFrom s 0 8) ++
        (.memWrite (cellAddr m j) (sampledByte s 0) ::
          if noReadAck s.par m then [] else sendAckEvents (half s.us) (decide (1 < k + 1)))) ++
        recvEventsFrom t m (j + 1) k := by
  simp only [recvEventsFrom, List.range_succ_eq_map, List.flatMap_cons, List.flatMap_map, hp, hu, Nat.add_zero,
    Nat.mul_zero, Nat.zero_add]
  congr 1
  refine List.flatMap_congr fun d _ => ?_
  have e1 : 8 * (d + 1) = 8 + 8 * d := by omega
  have e2 : j + (d + 1) = j + 1 + d := by omega
  have e3 : (d + 1 + 1 < k + 1) = (d + 1 < k) := by simp
  simp only [answersFrom_shift ha, sampledByte_shift ha, Nat.succ_eq_add_one, e1, e2, e3]

/-- What receiving `k` bytes leaves, the first of them stored at index `s.dp.bytes`. -/
structure Received (m : Msg) (k : Nat) (s t : State) : Prop where
  trace : t.trace = s.trace ++ recvEventsFrom s m s.dp.bytes k
  mem : t.mem = (List.range k).foldl
    (fun mem d => Memory.write mem (cellAddr m (s.dp.bytes + d)) (sampledByte s (8 * d))) s.mem
  stored : Memory.wf s.mem = true → ∀ d < k, Memory.read t.mem (cellAddr m (s.dp.bytes + d)) = sampledByte s (8 * d)
  kept : ∀ a, (∀ d < k, a ≠ cellAddr m (s.dp.bytes + d)) → Memory.read t.mem a = Memory.read s.mem a
  wf : Memory.wf s.mem = true → Memory.wf t.mem = true
  sdaIn : t.sdaIn = s.sdaIn.drop (8 * k)
  draws : t.draws = s.draws + 8 * k
  ackf : t.dp.ackf = s.dp.ackf
  addr1 : t.dp.addr1 = s.dp.addr1
  addr2 : t.dp.addr2 = s.dp.addr2
  rlim : t.dp.rlim = s.dp.rlim
  tries : t.dp.tries = s.dp.tries
  bytes : t.dp.bytes = s.dp.bytes + k
  remain : t.dp.remain = s.dp.remain - k

theorem cellAddr_inj {m : Msg} {i j : Nat} (h : cellAddr m i = cellAddr m j) : i = j := by
  unfold cellAddr at h
  split at h <;> omega

theorem recvLoop_received (m : Msg) (k : Nat) (s : State) (hr : s.dp.remain = k) :
    Received m k s (recvLoop m k s) := by
  induction k generalizing s with
  | zero => constructor <;> simp [recvLoop, recvEventsFrom]
  | succ k ih =>
    generalize hu : recvOne m s = u
    have hu' := hu.symm
    rw [recvOne_eq] at hu'
    have ha : ∀ d, answerAt u d = answerAt s (8 + d) := fun d => by rw [hu']; simp [answerAt, Nat.add_assoc]
    have hb : u.dp.bytes = s.dp.bytes + 1 := by rw [hu']
    have hm : u.mem = Memory.write s.mem (cellAddr m s.dp.bytes) (sampledByte s 0) := by rw [hu']
    have h := ih u (by rw [hu', hr]; rfl)
    simp only [recvLoop, hu]
    refine ⟨?_, ?_, fun hw d hd => ?_, fun a hne => ?_, fun hw => ?_, ?_, ?_, ?_, ?_, ?_, ?_, ?_, ?_, ?_⟩
    · have hd : (k != 0) = decide (1 < k + 1) := by cases k <;> simp
      rw [h.trace, hb, recvEventsFrom_succ s m s.dp.bytes k (t := u) (by rw [hu']; rfl) (by rw [hu']; rfl) ha, hu', hr,
        Nat.add_sub_cancel, hd]
      simp
    · rw [h.mem, List.range_succ_eq_map, List.foldl_cons, List.foldl_map, hm, hb, Nat.add_zero, Nat.mul_zero]
      refine List.foldl_ext _ _ _ fun mem d _ => ?_
      rw [sampledByte_shift ha, Nat.succ_eq_add_one, show s.dp.bytes + (d + 1) = s.dp.bytes + 1 + d by omega,
        show 8 * (d + 1) = 8 + 8 * d by omega]
    · have hwu : Memory.wf u.mem = true := hm ▸ Memory.wf_write hw _ _
      rcases Nat.eq_zero_or_pos d with rfl | hpos
      · rw [h.kept _ fun d _ he => by have := cellAddr_inj he; omega, hm, Nat.add_zero, Memory.read_write_same hw]
      · obtain ⟨i, rfl⟩ : ∃ i, d = i + 1 := ⟨d - 1, by omega⟩
        have := h.stored hwu i (by omega)
        rw [hb, sampledByte_shift ha] at this
        rw [show s.dp.bytes + (i + 1) = s.dp.bytes + 1 + i by omega, this]
        congr 1; omega
    · rw [h.kept a fun d hd => by
        have := hne (d + 1) (by omega)
        rw [hb, show s.dp.bytes + 1 + d = s.dp.bytes + (d + 1) by omega]; exact this]
      have h0 := hne 0 (by omega)
      rw [Nat.add_zero] at h0
      rw [hm, Memory.read_write_other _ h0]
    · exact h.wf (hm ▸ Memory.wf_write hw _ _)
    · rw [h.sdaIn, hu']; simp [show 8 + 8 * k = 8 * (k + 1) by omega]
    · rw [h.draws, hu']; simp; omega
    · rw [h.ackf, hu']
    · rw [h.addr1, hu']
    · rw [h.addr2, hu']
    · rw [h.rlim, hu']
    · rw [h.tries, hu']
    · rw [h.bytes, hb]; omega
    · rw [h.remain, hu']; simp; omega

/-- RECV_BYTES, from its first event to its last (R145 to R148). -/
theorem recvBytesOp_received (m : Msg) (s : State) : Received m m.len (initCounts m s) (recvBytesOp m s) :=
  recvLoop_received m m.len (initCounts m s) rfl

theorem recvEvents_eq (m : Msg) (s : State) : recvEventsFrom s m 0 m.len = recvEvents s m := by
  simp [recvEventsFrom, recvEvents, readAckEvents]

end Sys2Proof.Machine
end

