-- ==== Sys2Proof/Laws/Transfer.lean ====
section
/-! SUPPORT. What one message, XFER and TRANSFER do: the frame, the count, the way out. -/

namespace Sys2Proof.Machine

/-- What serving messages keeps: `Held` but for ENG and `I`, which the message loop writes. -/
structure Serving (s t : State) : Prop where
  par : t.par = s.par
  cap : t.cap = s.cap
  us : t.us = s.us
  refused : t.refused = s.refused
  port : t.port = s.port
  mutexOther : t.mutexOther = s.mutexOther
  callsLeft : t.callsLeft = s.callsLeft
  callbacks : t.callbacks = s.callbacks
  frames : t.frames = s.frames
  locked : t.locked = s.locked
  seq : t.seq = s.seq
  results : t.results = s.results
  bus : t.bus = .busHeld
  scl : t.pins.sclOut = false

theorem Held.serving {s t : State} (h : Held s t) : Serving s t :=
  ⟨h.par, h.cap, h.us, h.refused, h.port, h.mutexOther, h.callsLeft, h.callbacks, h.frames, h.locked, h.seq, h.results, h.bus, h.scl⟩

theorem Serving.trans {s t u : State} (h1 : Serving s t) (h2 : Serving t u) : Serving s u where
  par := h2.par.trans h1.par
  cap := h2.cap.trans h1.cap
  us := h2.us.trans h1.us
  refused := h2.refused.trans h1.refused
  port := h2.port.trans h1.port
  mutexOther := h2.mutexOther.trans h1.mutexOther
  callsLeft := h2.callsLeft.trans h1.callsLeft
  callbacks := h2.callbacks.trans h1.callbacks
  frames := h2.frames.trans h1.frames
  locked := h2.locked.trans h1.locked
  seq := h2.seq.trans h1.seq
  results := h2.results.trans h1.results
  bus := h2.bus
  scl := h2.scl

/-- ENG or a datapath register written on a held bus. -/
theorem Serving.write {s : State} (hb : s.bus = .busHeld) (hc : s.pins.sclOut = false) (e : EngState) (d : Datapath) :
    Serving s { s with eng := e, dp := d } := by
  constructor <;> first | rfl | assumption

theorem addressMsg_serving (m : Msg) {s : State} (hb : s.bus = .busHeld) (hc : s.pins.sclOut = false) :
    Serving s (addressMsg m s).2 ∧ (addressMsg m s).2.dp.i = s.dp.i ∧ Still s (addressMsg m s).2 := by
  simp only [addressMsg]
  split
  · exact ⟨(Held.refl hb hc).serving, rfl, rfl, rfl, rfl⟩
  · generalize hu : (if s.dp.i ≠ 0 then restartOp s else s) = u
    have h1 : Held s u ∧ Still s u := by
      subst hu; split
      · exact ⟨restartOp_held hb, restartOp_still s⟩
      · exact ⟨Held.refl hb hc, rfl, rfl, rfl⟩
    have h2 : Serving s (setEng .addressing u) :=
      h1.1.serving.trans (Serving.write h1.1.bus h1.1.scl .addressing u.dp)
    have h3 := addrPhaseOp_held m (s := setEng .addressing u) h1.1.bus
    have h4 := addrPhaseOp_still m (setEng .addressing u)
    exact ⟨h2.trans h3.serving, h3.i.trans h1.1.i,
      h4.mem.trans h1.2.mem, h4.bytes.trans h1.2.bytes, h4.remain.trans h1.2.remain⟩

/-- The data phase of one message: it counts at most LEN bytes, and keeps the buffers canonical. -/
theorem dataMsg_serving (m : Msg) {s : State} (hb : s.bus = .busHeld) (hc : s.pins.sclOut = false) :
    Serving s (dataMsg m s) ∧ (dataMsg m s).dp.i = s.dp.i ∧ (dataMsg m s).dp.bytes ≤ m.len ∧
      (dataMsg m s).dp.remain ≤ m.len ∧ (Memory.wf s.mem = true → Memory.wf (dataMsg m s).mem = true) := by
  have hw := Serving.write hb hc .transferring s.dp
  simp only [dataMsg]
  split
  · have h1 := recvBytesOp_held m (s := setEng .transferring s) hb hc
    have h2 := recvBytesOp_received m (setEng .transferring s)
    refine ⟨hw.trans h1.serving, h1.i, ?_, ?_, fun h => h2.wf h⟩
    · rw [h2.bytes]; simp
    · rw [h2.remain]; simp
  · have h1 := sendBytesOp_held m (s := setEng .transferring s) hb hc
    refine ⟨hw.trans h1.serving, h1.i, ?_⟩
    simp only [sendBytesOp]
    rcases send_cases m m.len (initCounts m (setEng .transferring s)) with h | ⟨hi, j, hj, hn, ha⟩
    · obtain ⟨h2, h3, h4⟩ := sendLoop_all m m.len _ h
      exact ⟨by rw [h3]; simp, by rw [h4]; simp, fun h => by rw [h2.mem]; exact h⟩
    · obtain ⟨h2, h3, h4, -⟩ := sendLoop_nack m m.len _ hi j hj hn ha
      exact ⟨by rw [h3]; simp; omega, by rw [h4]; simp, fun h => by rw [h2.mem]; exact h⟩

/-- One message (R141): `I` counts it exactly when no abort is raised. -/
theorem serviceMsg_serving (m : Msg) {s : State} (hb : s.bus = .busHeld) (hc : s.pins.sclOut = false) :
    Serving s (serviceMsg m s).2 ∧
      (serviceMsg m s).2.dp.i = s.dp.i + (if (serviceMsg m s).1 = none then 1 else 0) ∧
      ((serviceMsg m s).2.dp.bytes ≤ max s.dp.bytes m.len ∧ (serviceMsg m s).2.dp.remain ≤ max s.dp.remain m.len) ∧
      (Memory.wf s.mem = true → Memory.wf (serviceMsg m s).2.mem = true) := by
  obtain ⟨h1, hi1, hs1⟩ := addressMsg_serving m hb hc
  obtain ⟨h2, hi2, hb2, hr2, hw2⟩ := dataMsg_serving m h1.bus h1.scl
  simp only [serviceMsg]
  split
  · exact ⟨h1, by simp [hi1], ⟨by simp [hs1.bytes], by simp [hs1.remain]⟩, fun h => by rw [hs1.mem]; exact h⟩
  · split
    · exact ⟨h1.trans h2, by simp [hi1, hi2], ⟨by simp [hb2], by simp [hr2]⟩, fun h => hw2 (by rw [hs1.mem]; exact h)⟩
    · have h3 := h1.trans (h2.trans (Serving.write h2.bus h2.scl .busHeld
        { (dataMsg m (addressMsg m s).2).dp with i := (dataMsg m (addressMsg m s).2).dp.i + 1 }))
      exact ⟨h3, by simp [hi1, hi2], ⟨by simp [hb2], by simp [hr2]⟩, fun h => hw2 (by rw [hs1.mem]; exact h)⟩

/-- What XFER leaves, whichever way it goes (R151, R152, R157), when `n` messages are still to be served. -/
structure Exited (n : Nat) (s t : State) : Prop where
  par : t.par = s.par
  cap : t.cap = s.cap
  us : t.us = s.us
  refused : t.refused = s.refused
  port : t.port = s.port
  mutexOther : t.mutexOther = s.mutexOther
  callsLeft : t.callsLeft = s.callsLeft
  callbacks : t.callbacks = s.callbacks
  frames : t.frames = s.frames
  locked : t.locked = s.locked
  seq : t.seq = s.seq
  results : t.results = s.results
  bus : t.bus = .idle
  pins : t.pins = Pins.reset
  eng : t.eng = .idle
  result : t.dp.result = t.dp.i
  lower : s.dp.i ≤ t.dp.i
  upper : t.dp.i ≤ s.dp.i + n
  wf : Memory.wf s.mem = true → Memory.wf t.mem = true

theorem exitOp_exited (s : State) (n : Nat) : Exited n s (exitOp s) := by
  constructor <;> first | rfl | exact id | exact Nat.le_refl _ | exact Nat.le_add_right _ _

theorem Exited.of_serving {n k : Nat} {s t u : State} (h1 : Serving s t) (hi : s.dp.i ≤ t.dp.i ∧ t.dp.i + k ≤ s.dp.i + n)
    (hw : Memory.wf s.mem = true → Memory.wf t.mem = true) (h2 : Exited k t u) : Exited n s u where
  par := h2.par.trans h1.par
  cap := h2.cap.trans h1.cap
  us := h2.us.trans h1.us
  refused := h2.refused.trans h1.refused
  port := h2.port.trans h1.port
  mutexOther := h2.mutexOther.trans h1.mutexOther
  callsLeft := h2.callsLeft.trans h1.callsLeft
  callbacks := h2.callbacks.trans h1.callbacks
  frames := h2.frames.trans h1.frames
  locked := h2.locked.trans h1.locked
  seq := h2.seq.trans h1.seq
  results := h2.results.trans h1.results
  bus := h2.bus
  pins := h2.pins
  eng := h2.eng
  result := h2.result
  lower := hi.1.trans h2.lower
  upper := h2.upper.trans hi.2
  wf := fun h => h2.wf (hw h)

theorem xferLoop_exited (ms : List Msg) {s : State} (hb : s.bus = .busHeld) (hc : s.pins.sclOut = false) :
    Exited ms.length s (xferLoop ms s) := by
  induction ms generalizing s with
  | nil => exact exitOp_exited s 0
  | cons m ms ih =>
    obtain ⟨h1, hi, -, hw⟩ := serviceMsg_serving m hb hc
    simp only [xferLoop]
    split <;> rename_i he
    · simp only [he] at h1 hi hw
      exact Exited.of_serving h1 (by simp [hi]) hw (exitOp_exited _ 0)
    · simp only [he] at h1 hi hw
      exact Exited.of_serving h1 (by simp [hi]; omega) hw (ih h1.bus h1.scl)

/-- The byte counts an XFER leaves fit the lengths of its messages, or are those it found. -/
theorem xferLoop_counts (ms : List Msg) {s : State} (hb : s.bus = .busHeld) (hc : s.pins.sclOut = false) (n : Nat)
    (hs : s.dp.bytes < n ∧ s.dp.remain < n) (hm : ∀ m ∈ ms, m.len < n) :
    (xferLoop ms s).dp.bytes < n ∧ (xferLoop ms s).dp.remain < n := by
  induction ms generalizing s with
  | nil => exact hs
  | cons m ms ih =>
    obtain ⟨h1, -, ⟨hby, hre⟩, -⟩ := serviceMsg_serving m hb hc
    have hl := hm m (by simp)
    have h2 : (serviceMsg m s).2.dp.bytes < n ∧ (serviceMsg m s).2.dp.remain < n := by omega
    simp only [xferLoop]
    split <;> rename_i he
    · rw [he] at h2; exact h2
    · rw [he] at h1 h2
      exact ih h1.bus h1.scl h2 fun x hx => hm x (by simp [hx])

/-- XFER from its first event to its return (R141). -/
theorem xferOp_exited (ms : List Msg) (s : State) :
    Exited ms.length { s with dp.i := 0 } (xferOp ms s) := by
  have h := xferLoop_exited ms (s := openLoop (startOp s)) rfl rfl
  exact ⟨h.par, h.cap, h.us, h.refused, h.port, h.mutexOther, h.callsLeft, h.callbacks, h.frames, h.locked, h.seq, h.results, h.bus, h.pins,
    h.eng, h.result, h.lower, h.upper, h.wf⟩

end Sys2Proof.Machine
end

