-- ==== Sys2Proof/Laws/Ledger.lean ====
section
/-! SUPPORT. The message loop of XFER follows its ledger (`xferRun` of Safety.lean), whatever the answers are. -/

namespace Sys2Proof.Machine

/-! ### One stretch after another -/

theorem Run.andThen_ok {a b : Run} {k : Nat} (h : (a k).ok = true) :
    (a.andThen b) k =
      { ok := (b (k + (a k).answers)).ok
        answers := (a k).answers + (b (k + (a k).answers)).answers
        retries := (a k).retries + (b (k + (a k).answers)).retries
        restarts := (a k).restarts + (b (k + (a k).answers)).restarts
        events := (a k).events ++ (b (k + (a k).answers)).events } := by
  simp [Run.andThen, h]

theorem Run.andThen_stop {a b : Run} {k : Nat} (h : (a k).ok = false) : (a.andThen b) k = a k := by
  simp [Run.andThen, h]

/-! ### Answers counted from a later state -/

/-- `u` has the setting of `s`, and its answers are those of `s` from number `k` on. -/
structure From (s : State) (k : Nat) (u : State) : Prop where
  ans : ∀ n, answerAt u n = answerAt s (k + n)
  us : u.us = s.us
  par : u.par = s.par

theorem acksFrom_all {s : State} {k n : Nat} (h : ∀ j < n, answerAt s (k + j) = false) : acksFrom s k n = n := by
  induction n generalizing k with
  | zero => rfl
  | succ n ih =>
    have h0 : answerAt s k = false := by simpa using h 0 (by omega)
    simp only [acksFrom, h0, Bool.false_eq_true, if_false]
    rw [ih fun j hj => by have := h (j + 1) (by omega); rwa [show k + 1 + j = k + (j + 1) by omega]]

theorem acksFrom_nack {s : State} {k n j : Nat} (hj : j < n) (hn : answerAt s (k + j) = true)
    (h : ∀ d < j, answerAt s (k + d) = false) : acksFrom s k n = j := by
  induction n generalizing k j with
  | zero => omega
  | succ n ih =>
    cases j with
    | zero => simp only [Nat.add_zero] at hn; simp [acksFrom, hn]
    | succ j =>
      have h0 : answerAt s k = false := by simpa using h 0 (by omega)
      simp only [acksFrom, h0, Bool.false_eq_true, if_false]
      rw [ih (j := j) (by omega) (by rwa [show k + 1 + j = k + (j + 1) by omega])
        fun d hd => by have := h (d + 1) (by omega); rwa [show k + 1 + d = k + (d + 1) by omega]]

/-! ### The address part -/

theorem addrPhaseOp_run (s u : State) (k : Nat) (m : Msg) (h : From s k u) :
    (addrPhaseOp m u).1 = (addrPhaseRun s m k).ok ∧
      (addrPhaseOp m u).2.trace = u.trace ++ (addrPhaseRun s m k).events ∧
      ∀ n, answerAt (addrPhaseOp m u).2 n = answerAt s (k + (addrPhaseRun s m k).answers + n) := by
  cases h10 : is10bit s.par m
  · obtain ⟨a1, a2⟩ := addrPhaseOp_7bit m u (by rw [h.par]; exact h10)
    simp only [addrPhaseRun, h10, Bool.false_eq_true, if_false, sendAddrRun]
    refine ⟨by rw [a1, addrAck_shift h.ans, h.par]; rfl, ?_, fun n => ?_⟩
    · rw [a2, sendAddrOp_eq]
      show u.trace ++ sendAddrEvents u 0 _ _ = _
      rw [sendAddrEvents_shift h.ans h.us, h.par]; rfl
    · rw [a2, sendAddrOp_eq]
      show answerAt (drawn (attempts u 0 _) (setAddr1 _ (setRlim _ u))) n = _
      rw [answerAt_drawn, attempts_shift h.ans, h.par]
      exact (h.ans _).trans (by rw [Nat.add_zero, Nat.add_assoc])
  · obtain ⟨a1, a2, a3⟩ := addrPhaseOp_10bit m u (by rw [h.par]; exact h10) rfl rfl rfl rfl rfl
    rw [a1, a2]
    simp only [a3]
    simp only [addrAck_shift h.ans, attempts_shift h.ans, sendAddrEvents_shift h.ans h.us, h.ans, h.us, h.par,
      addrPhaseRun, h10, if_true, Nat.add_zero, Run.andThen, sendAddrRun, directByteRun, Nat.add_assoc]
    cases addrAck s k (retryLimit s.par m) || ignoreNack s.par m <;>
      cases !answerAt s (k + attempts s k (retryLimit s.par m)) || ignoreNack s.par m <;> cases isRead s.par m
    all_goals
      refine ⟨by simp [Run.nil, Run.andThen, restartRun, sendAddrRun],
        by simp [Run.nil, Run.andThen, restartRun, sendAddrRun], fun n => ?_⟩
      congr 1
      simp [Run.nil, Run.andThen, restartRun, sendAddrRun, Nat.add_assoc]

theorem addressMsg_run (s u : State) (k : Nat) (m : Msg) (h : From s k u) (first : Bool)
    (hf : first = decide (u.dp.i = 0)) :
    (addressMsg m u).1 = (addressRun s first m k).ok ∧
      (addressMsg m u).2.trace = u.trace ++ (addressRun s first m k).events ∧
      ∀ n, answerAt (addressMsg m u).2 n = answerAt s (k + (addressRun s first m k).answers + n) := by
  unfold addressMsg addressRun
  rw [h.par]
  split
  · simp [Run.nil, h.ans]
  · dsimp only
    have hw : From s k (setEng .addressing (if u.dp.i ≠ 0 then restartOp u else u)) := by
      constructor
      · intro n; rw [← h.ans]; split <;> rfl
      · rw [← h.us]; split <;> rfl
      · rw [← h.par]; split <;> rfl
    obtain ⟨a1, a2, a3⟩ := addrPhaseOp_run s _ k m hw
    rw [a1, a2]
    simp only [a3, setEng_trace]
    by_cases hi : u.dp.i = 0
    · simp [hf, hi]
    · simp [hf, hi, Run.andThen, restartRun, h.us]

/-- With IGNORE_NACK no address part aborts (R127). -/
theorem addressRun_masked {s : State} {m : Msg} (h : ignoreNack s.par m = true) (first : Bool) (k : Nat) :
    (addressRun s first m k).ok = true := by
  unfold addressRun addrPhaseRun
  cases first <;> cases noStart s.par m <;> cases is10bit s.par m <;> cases isRead s.par m <;>
    simp [Run.nil, Run.andThen, sendAddrRun, directByteRun, restartRun, h]

/-! ### The data part -/

theorem dataMsg_run (s u : State) (k : Nat) (m : Msg) (h : From s k u) :
    decide (m.len ≤ (dataMsg m u).dp.bytes) = (dataRun s u.mem m k).ok ∧
      (dataMsg m u).trace = u.trace ++ (dataRun s u.mem m k).events ∧
      (∀ n, answerAt (dataMsg m u) n = answerAt s (k + (dataRun s u.mem m k).answers + n)) ∧
      (dataMsg m u).mem = ackedMem s k u.mem m := by
  unfold dataMsg dataRun ackedMem
  rw [h.par]
  dsimp only
  generalize hi : initCounts m (setEng .transferring u) = i
  have i1 : i.trace = u.trace := by rw [← hi]; rfl
  have i2 (n) : answerAt i n = answerAt s (k + n) := by rw [← h.ans, ← hi]; rfl
  have i3 : i.us = s.us := by rw [← hi, ← h.us]; rfl
  have i4 : i.par = s.par := by rw [← hi, ← h.par]; rfl
  have i5 : i.mem = u.mem := by rw [← hi]; rfl
  have i6 : i.dp.bytes = 0 := by rw [← hi]; rfl
  cases hr : isRead s.par m
  · simp only [Bool.false_eq_true, if_false, sendBytesOp, hi]
    have sent : ∀ {n t}, Sent m n i t → t.trace = u.trace ++ ((List.range n).flatMap fun j =>
        .memRead (cellAddr m j) (Memory.read u.mem (cellAddr m j)) ::
          writeByteEvents (half s.us) (Memory.read u.mem (cellAddr m j)) (answerAt s (k + j))) ∧
        (∀ d, answerAt t d = answerAt s (k + n + d)) ∧ t.mem = u.mem := by
      intro n t hs
      refine ⟨?_, fun d => by rw [hs.answers, i2, Nat.add_assoc], hs.mem.trans i5⟩
      rw [hs.trace, i1, sendEvents, i6]
      simp only [Nat.zero_add, sentByte, i5, i3, i2]
    rcases send_cases m m.len i with hall | ⟨hg, j, hj, hn, ha⟩
    · obtain ⟨h1, h2, -⟩ := sendLoop_all m m.len i hall
      have hb : bytesServed s m k = m.len := by
        unfold bytesServed
        rcases hall with hall | hall
        · rw [← i4, if_pos hall]
        · rw [acksFrom_all fun j hj => by rw [← i2]; exact hall j hj, ite_self]
      obtain ⟨e1, e2, e3⟩ := sent h1
      simp only [hb, Nat.min_eq_right (Nat.le_succ m.len)]
      exact ⟨by simp [h2, i6], e1, e2, e3⟩
    · obtain ⟨h1, h2, -⟩ := sendLoop_nack m m.len i hg j hj hn ha
      have hb : bytesServed s m k = j := by
        rw [bytesServed, ← i4, hg, acksFrom_nack hj (by rw [← i2]; exact hn) fun d hd => by rw [← i2]; exact ha d hd]; simp
      obtain ⟨e1, e2, e3⟩ := sent h1
      simp only [hb, Nat.min_eq_left (show j + 1 ≤ m.len from hj)]
      exact ⟨by simp [h2, i6], e1, e2, e3⟩
  · simp only [if_true]
    have hv := recvBytesOp_received m (setEng .transferring u)
    rw [hi] at hv
    refine ⟨by simp [hv.bytes, i6], ?_, fun n => ?_, ?_⟩
    · rw [hv.trace, i1, recvEventsFrom, ackedData, hr, if_pos rfl]
      congr 1
      refine List.flatMap_congr fun d hd => ?_
      have hd : d < m.len := by simpa using hd
      have e : decide (d + 1 < m.len) = decide (d < m.len - 1) := by congr 1; apply propext; omega
      rw [answersFrom_shift i2, sampledByte_shift i2, i3, i4, i6, e]; simp
    · have : answerAt (recvBytesOp m (setEng .transferring u)) n = answerAt i (8 * m.len + n) := by
        simp [answerAt, hv.sdaIn, hv.draws, Nat.add_assoc]
      rw [this, i2, Nat.add_assoc]
    · rw [hv.mem, i5, i6]; congr 1; funext mem d; rw [sampledByte_shift i2]; simp

/-! ### One message, and the loop -/

theorem serviceMsg_run (s u : State) (k : Nat) (m : Msg) (hb : u.bus = .busHeld) (hc : u.pins.sclOut = false)
    (h : From s k u) (first : Bool) (hf : first = decide (u.dp.i = 0)) :
    ((serviceMsg m u).1.isNone = (messageRun s u.mem first m k).ok) ∧
      (serviceMsg m u).2.trace = u.trace ++ (messageRun s u.mem first m k).events ∧
      (∀ n, answerAt (serviceMsg m u).2 n = answerAt s (k + (messageRun s u.mem first m k).answers + n)) ∧
      (serviceMsg m u).2.mem = messageMem s u.mem first m k := by
  obtain ⟨a1, a2, a3⟩ := addressMsg_run s u k m h first hf
  obtain ⟨b1, -, b3⟩ := addressMsg_serving m hb hc
  have hw : From s (k + (addressRun s first m k).answers) (addressMsg m u).2 :=
    ⟨a3, b1.us.trans h.us, b1.par.trans h.par⟩
  obtain ⟨c1, c2, c3, c4⟩ := dataMsg_run s _ _ m hw
  have hign : (addressRun s first m k).ok = false → ignoreNack s.par m = false := by
    intro ho
    cases hi : ignoreNack s.par m
    · rfl
    · rw [addressRun_masked hi] at ho; cases ho
  unfold serviceMsg messageRun messageMem
  simp only [a1, h.par, b3.mem] at c1 c2 c3 c4 ⊢
  cases ho : (addressRun s first m k).ok
  · rw [Run.andThen_stop ho]
    simp [ho, hign ho, a2, a3, b3.mem]
  · rw [Run.andThen_ok ho]
    simp only [Bool.not_true, Bool.false_and, Bool.false_eq_true, if_false, if_true, ← c1]
    by_cases hl : (dataMsg m (addressMsg m u).2).dp.bytes < m.len
    · simp only [if_pos hl]
      exact ⟨by simp [hl], by simp [c2, a2], fun n => by rw [c3]; simp [Nat.add_assoc], c4⟩
    · simp only [if_neg hl]
      exact ⟨by simp; omega, by simp [c2, a2], fun n => by
        simp only [answerAt_setI, answerAt_setEng]; rw [c3]; simp [Nat.add_assoc], by simpa using c4⟩

theorem xferLoop_run (s : State) (ms : List Msg) (u : State) (k : Nat) (hb : u.bus = .busHeld)
    (hc : u.pins.sclOut = false) (h : From s k u) (first : Bool) (hf : first = decide (u.dp.i = 0)) :
    (xferLoop ms u).trace = u.trace ++ (xferRun s k first u.mem ms).events ++ stopEvents s.us ∧
      (xferLoop ms u).dp.i = u.dp.i + (xferRun s k first u.mem ms).served ∧
      (xferLoop ms u).mem = (xferRun s k first u.mem ms).mem ∧
      ∀ n, answerAt (xferLoop ms u) n = answerAt s (k + (xferRun s k first u.mem ms).answers + n) := by
  have exit_answers : ∀ (t : State) n, answerAt (exitOp t) n = answerAt t n := fun t n => rfl
  induction ms generalizing u k first with
  | nil => simp [xferLoop, exitOp, xferRun, h.us, h.ans]
  | cons m ms ih =>
    obtain ⟨a1, a2, a3, a4⟩ := serviceMsg_run s u k m hb hc h first hf
    obtain ⟨b1, b2, -, -⟩ := serviceMsg_serving m hb hc
    simp only [xferLoop, xferRun]
    rcases hs : serviceMsg m u with ⟨_ | o, t⟩ <;> rw [hs] at a1 a2 a3 a4 b1 b2 <;> dsimp only at a1 a2 a3 a4 b1 b2
    · have ho : (messageRun s u.mem first m k).ok = true := by simpa using a1.symm
      obtain ⟨c1, c2, c3, c4⟩ := ih t (k + (messageRun s u.mem first m k).answers) b1.bus b1.scl
        ⟨a3, b1.us.trans h.us, b1.par.trans h.par⟩ false (by simp [b2])
      simp only [ho, if_true]
      refine ⟨by rw [c1, a4, a2]; simp, by rw [c2, a4, b2]; simp; omega, by rw [c3, a4], fun n => ?_⟩
      rw [c4, a4]; simp [Nat.add_assoc]
    · have ho : (messageRun s u.mem first m k).ok = false := by simpa using a1.symm
      simp only [ho, Bool.false_eq_true, if_false, raiseAbort, exit_answers]
      refine ⟨?_, ?_, by simpa [exitOp] using a4, a3⟩
      · have := b1.us
        simp [exitOp, a2, this, h.us]
      · simpa [exitOp] using b2

/-- XFER of `u`, from its first event to its return (R141), whatever the answers are; the ledger may be read from any state
that the block sees alike. -/
theorem xferOp_run {s u : State} (h : From s 0 u) (ms : List Msg) :
    (xferOp ms u).trace = u.trace ++ (startEvents (half s.us) ++ (xferRun s 0 true u.mem ms).events ++ stopEvents s.us) ∧
      (xferOp ms u).dp.result = (xferRun s 0 true u.mem ms).served ∧
      (xferOp ms u).mem = (xferRun s 0 true u.mem ms).mem ∧
      ∀ n, answerAt (xferOp ms u) n = answerAt s ((xferRun s 0 true u.mem ms).answers + n) := by
  obtain ⟨h1, h2, h3, h4⟩ := xferLoop_run s ms (openLoop (startOp u)) 0 rfl rfl
    ⟨h.ans, h.us, h.par⟩ true rfl
  refine ⟨?_, ?_, h3, fun n => ?_⟩
  · rw [xferOp, h1]; simp [h.us]
  · rw [(xferOp_exited ms u).result]; simpa [xferOp] using h2
  · rw [xferOp, h4]; simp

end Sys2Proof.Machine
end

