-- ==== Sys2Proof/Laws/Acked.lean ====
section
/-! SUPPORT. What the ledger of a list comes to while every address byte and every byte sent is acknowledged (R73). -/

namespace Sys2Proof.Machine

/-- How many RESTARTs the address part of an acknowledged message makes (R153). -/
def ackedRestarts (p : Params) (first : Bool) (m : Msg) : Nat :=
  if noStart p m then 0 else (if first then 0 else 1) + (if is10bit p m && isRead p m then 1 else 0)

theorem addressRun_acked {s : State} {k : Nat} {m : Msg} (first : Bool)
    (hk : ∀ j < addrAnswers s.par m, answerAt s (k + j) = false) :
    addressRun s first m k =
      { ok := true, answers := addrAnswers s.par m, retries := 0, restarts := ackedRestarts s.par first m
        events := ackedAddress s first m } := by
  unfold addressRun addrPhaseRun addrAnswers ackedAddress ackedRestarts
  unfold addrAnswers at hk
  cases hn : noStart s.par m
  · cases h10 : is10bit s.par m
    · have h0 : answerAt s k = false := by simpa [hn, h10] using hk
      cases first <;> simp [Run.andThen, restartRun, sendAddrRun, attempts_ack h0, addrAck_ack h0, sendAddrEvents_ack h0, h0]
    · cases hr : isRead s.par m
      · have h0 : answerAt s k = false := by simpa using hk 0 (by simp [hn, h10, hr])
        have h1 : answerAt s (k + 1) = false := hk 1 (by simp [hn, h10, hr])
        cases first <;> simp [Run.andThen, Run.nil, restartRun, sendAddrRun, directByteRun, attempts_ack h0, addrAck_ack h0,
          sendAddrEvents_ack h0, h0, h1]
      · have h0 : answerAt s k = false := by simpa using hk 0 (by simp [hn, h10, hr])
        have h1 : answerAt s (k + 1) = false := hk 1 (by simp [hn, h10, hr])
        have h2 : answerAt s (k + 1 + 1) = false := hk 2 (by simp [hn, h10, hr])
        cases first <;> simp [Run.andThen, restartRun, sendAddrRun, directByteRun, attempts_ack h0, addrAck_ack h0,
          sendAddrEvents_ack h0, attempts_ack h2, addrAck_ack h2, sendAddrEvents_ack h2, h0, h1, h2]
  · simp [Run.nil]

theorem bytesServed_acked {s : State} {m : Msg} {k : Nat} (hk : ∀ j < m.len, answerAt s (k + j) = false) :
    bytesServed s m k = m.len := by
  rw [bytesServed, acksFrom_all hk, ite_self]

theorem dataRun_acked {s : State} {k : Nat} {m : Msg} (mem : Memory)
    (hk : isRead s.par m = false → ∀ j < m.len, answerAt s (k + j) = false) :
    dataRun s mem m k =
      { ok := true, answers := dataAnswers s.par m, retries := 0, restarts := 0, events := ackedData s k mem m } := by
  unfold dataRun dataAnswers ackedData
  cases hr : isRead s.par m
  · have hb := bytesServed_acked (hk hr)
    simp only [Bool.false_eq_true, if_false, hb, Nat.min_eq_right (Nat.le_succ m.len), Leg.mk.injEq]
    refine ⟨by simp, trivial, trivial, trivial, List.flatMap_congr fun d hd => ?_⟩
    rw [hk hr d (by simpa using hd)]
  · simp

theorem messageRun_acked {s : State} {k : Nat} {m : Msg} (mem : Memory) (first : Bool)
    (ha : ∀ j < addrAnswers s.par m, answerAt s (k + j) = false)
    (hd : isRead s.par m = false → ∀ j < m.len, answerAt s (k + addrAnswers s.par m + j) = false) :
    messageRun s mem first m k =
      { ok := true, answers := addrAnswers s.par m + dataAnswers s.par m, retries := 0
        restarts := ackedRestarts s.par first m
        events := ackedAddress s first m ++ ackedData s (k + addrAnswers s.par m) mem m } := by
  have h := addressRun_acked first ha
  rw [messageRun, Run.andThen_ok (by rw [h]), h, dataRun_acked mem (by simpa using hd)]
  simp

/-- Messages that are acknowledged throughout, and then the rest of the list. -/
theorem xferRun_acked (s : State) (pre rest : List Msg) (k : Nat) (first : Bool) (mem : Memory) (hk : ackedFrom s k pre) :
    ∃ n, xferRun s k first mem (pre ++ rest) =
      let r := xferRun s (k + listAnswers s.par pre) (first && pre.isEmpty) (ackedMems s k mem pre) rest
      { served := pre.length + r.served
        answers := listAnswers s.par pre + r.answers
        retries := r.retries
        restarts := n + r.restarts
        events := ackedEvents s k first mem pre ++ r.events
        mem := r.mem } := by
  induction pre generalizing k first mem with
  | nil => exact ⟨0, by simp [listAnswers, ackedMems, ackedEvents]⟩
  | cons m ms ih =>
    obtain ⟨k1, k2, k3⟩ := hk
    have h := messageRun_acked mem first k1 k2
    have hm : messageMem s mem first m k = ackedMem s (k + addrAnswers s.par m) mem m := by
      simp [messageMem, addressRun_acked first k1]
    obtain ⟨n, hn⟩ := ih (k + addrAnswers s.par m + dataAnswers s.par m) false
      (ackedMem s (k + addrAnswers s.par m) mem m) k3
    refine ⟨ackedRestarts s.par first m + n, ?_⟩
    simp only [List.cons_append, xferRun, h, hm, if_true]
    rw [← Nat.add_assoc k, hn]
    simp [listAnswers, ackedMems, ackedEvents, Nat.add_assoc, Nat.add_comm, Nat.add_left_comm]

end Sys2Proof.Machine
end

