-- ==== Sys2Proof/Laws/Execution.lean ====
section
/-! SUPPORT. Everything an operation, and a step, that answers a next state can have done: one case per operation. -/

namespace Sys2Proof.Machine

/-- The calls the error callback makes for a TRANSFER of `n` messages that returns `k`: none when it is not invoked. -/
def calledBack (s : State) (n k : Nat) : List Command := if k = n then [] else s.callbacks.headD []

/-- TRANSFER once the lock is granted: XFER, with the lock free again and the last events in the trace (R160, R161); it
returns its count, or stands at its error callback (R185). -/
theorem transferOp_eq (cap : CapHandle) (ms : List Msg) (s : State) :
    transferOp cap ms s = { xferOp ms s with
      locked := false
      seq := .ready
      trace := (xferOp ms s).trace ++
        (.lockRelease :: if (xferOp ms s).dp.result = ms.length then [] else [.errorCallback cap])
      results := (xferOp ms s).results ++
        if calledBack (xferOp ms s) ms.length (xferOp ms s).dp.result = [] then [.count (xferOp ms s).dp.result] else []
      callbacks := if (xferOp ms s).dp.result = ms.length then (xferOp ms s).callbacks else (xferOp ms s).callbacks.tail
      frames :=
        if calledBack (xferOp ms s) ms.length (xferOp ms s).dp.result = [] then (xferOp ms s).frames
        else { position := (xferOp ms s).seq, ms := ms, result := (xferOp ms s).dp.result,
               calls := calledBack (xferOp ms s) ms.length (xferOp ms s).dp.result } :: (xferOp ms s).frames } := by
  unfold transferOp errorCallback calledBack
  by_cases h : (xferOp ms s).dp.result = ms.length
  · simp [emit, emits, leave, h, pinsAfter, lockedAfter, Event.onPins, Event.onLocked]
  · rcases hc : (xferOp ms s).callbacks with _ | ⟨_ | _, _⟩ <;>
      simp [emit, emits, leave, finish, h, hc, pinsAfter, lockedAfter, Event.onPins, Event.onLocked]

/-- A TRANSFER that answers a next state waits for the lock, or runs with it. -/
theorem transfer_next {i : Instr} {cap : CapHandle} {ms : List Msg} {s t : State}
    (h : transfer i cap ms s = .next t) :
    checkMsgs s.par ms = none ∧
    ((lockBlocked s = true ∧ t = { s with seq := .lockWait i }) ∨
      (lockBlocked s = false ∧ s.bus = .idle ∧
        t = transferOp cap ms (emit .lockAcquire (enter i.op s)))) := by
  unfold transfer at h
  split at h
  · simp [refuse] at h
  · rename_i hc
    refine ⟨hc, ?_⟩
    split at h
    · rename_i hl
      simp only [Host.Outcome.next.injEq] at h
      exact .inl ⟨hl, h.symm⟩
    · rename_i hl
      dsimp only at h
      split at h
      · rename_i hb
        simp only [Host.Outcome.next.injEq] at h
        exact .inr ⟨by simpa using hl, hb, h.symm⟩
      · simp [refuse] at h

/-- `Exec i s t`: what it takes for `exec i s` to answer the next state `t`. -/
inductive Exec : Instr → State → State → Prop
  | start {s} : s.bus = .idle → Exec .start s (finish (startOp (enter .start s)))
  | restart {s} : s.bus = .busHeld → Exec .restart s (finish (restartOp (enter .restart s)))
  | stop {s} : s.bus = .busHeld → Exec .stop s (finish (stopOp (enter .stop s)))
  | waitAck {s} : s.bus = .busHeld →
      Exec .waitAck s (leave (.flag (waitAckOp (enter .waitAck s)).dp.ackf) (waitAckOp (enter .waitAck s)))
  | writeByte {s b} : s.bus = .busHeld →
      Exec (.writeByte b) s
        (leave (.flag (writeByteOp b (enter .writeByte s)).dp.ackf) (writeByteOp b (enter .writeByte s)))
  | readByte {s} : s.bus = .busHeld →
      Exec .readByte s (leave (.byte (readByteOp (enter .readByte s)).dp.shift) (readByteOp (enter .readByte s)))
  | sendAck {s a} : s.bus = .busHeld →
      Exec (.sendAckOrNack a) s (finish (sendAckOp a (enter .sendAckOrNack s)))
  | sendAddr {s b r} : s.bus = .busHeld →
      Exec (.sendAddr b r) s
        (leave (.flag (sendAddrOp b r (enter .sendAddr s)).dp.ackf) (sendAddrOp b r (enter .sendAddr s)))
  | addrPhase {s m} : s.bus = .busHeld → checkMsg s.par m = none →
      Exec (.addrPhase m) s
        (leave (.flag (addrPhaseOp m (enter .addrPhase s)).1) (addrPhaseOp m (enter .addrPhase s)).2)
  | sendBytes {s m} : s.bus = .busHeld → checkMsg s.par m = none → isRead s.par m = false →
      Exec (.sendBytes m) s
        (leave (.count (sendBytesOp m (enter .sendBytes s)).dp.bytes) (sendBytesOp m (enter .sendBytes s)))
  | recvBytes {s m} : s.bus = .busHeld → checkMsg s.par m = none → isRead s.par m = true →
      Exec (.recvBytes m) s
        (leave (.count (recvBytesOp m (enter .recvBytes s)).dp.bytes) (recvBytesOp m (enter .recvBytes s)))
  | xfer {s ms} : s.bus = .idle → checkMsgs s.par ms = none →
      Exec (.xfer ms) s (leave (.count (xferOp ms (enter .xfer s)).dp.result) (xferOp ms (enter .xfer s)))
  | api {i cap ms s t} : apiList s.par i = some (cap, ms) → transfer i cap ms s = .next t → Exec i s t

theorem exec_api {i : Instr} {cap : CapHandle} {ms : List Msg} {s : State} (h : apiList s.par i = some (cap, ms)) :
    exec i s = transfer i cap ms s := by
  cases i <;> simp [apiList] at h <;> obtain ⟨rfl, rfl⟩ := h <;> rfl

theorem exec_next {i : Instr} {s t : State} : exec i s = .next t ↔ Exec i s t := by
  constructor
  · intro h
    cases i
    case transfer => exact .api rfl h
    case send => exact .api rfl h
    case recv => exact .api rfl h
    case sendThenRecv => exact .api rfl h
    case sendThenSend => exact .api rfl h
    all_goals
      simp only [exec, execStart, execRestart, execStop, execWaitAck, execWriteByte, execReadByte, execSendAckOrNack,
        execSendAddr, execAddrPhase, execSendBytes, execRecvBytes, execXfer, refuse] at h
      repeat' split at h
      all_goals simp only [Host.Outcome.next.injEq, reduceCtorEq] at h
      all_goals subst h; constructor <;> first | assumption | simp_all
  · intro h
    cases h with
    | api ha h => rw [exec_api ha, h]
    | _ => simp_all [exec, execStart, execRestart, execStop, execWaitAck, execWriteByte, execReadByte,
        execSendAckOrNack, execSendAddr, execAddrPhase, execSendBytes, execRecvBytes, execXfer]

/-! ### The setting -/

theorem sendBytesOp_cases (m : Msg) {s : State} (hb : s.bus = .busHeld) :
    (m.len = 0 ∧ sendBytesOp m s = initCounts m s) ∨ Held s (sendBytesOp m s) := by
  unfold sendBytesOp
  cases h : m.len with
  | zero => exact .inl ⟨rfl, rfl⟩
  | succ k =>
    refine .inr (Held.of_dp (s := s) (d := (initCounts m s).dp) ?_ rfl rfl)
    have h1 := sendOne_held m (s := initCounts m s) hb
    simp only [sendLoop]
    split
    · exact h1
    · have h2 := h1.trans (countByte_held h1.bus h1.scl)
      exact h2.trans (sendLoop_held m k h2.bus h2.scl)

theorem recvBytesOp_cases (m : Msg) {s : State} (hb : s.bus = .busHeld) :
    (m.len = 0 ∧ recvBytesOp m s = initCounts m s) ∨ Held s (recvBytesOp m s) := by
  unfold recvBytesOp
  cases h : m.len with
  | zero => exact .inl ⟨rfl, rfl⟩
  | succ k =>
    have h1 := recvOne_held m (s := initCounts m s) hb
    exact .inr (Held.of_dp (s := s) (d := (initCounts m s).dp) (h1.trans (recvLoop_held m k h1.bus h1.scl)) rfl rfl)

/-- No operation changes the configuration or the environment's own part of the state (R204). -/
theorem Exec.setting {i : Instr} {s t : State} (h : Exec i s t) : SameSetting s t := by
  have same : ∀ {u r}, SameSetting s u → SameSetting s (leave r u) := fun h =>
    ⟨h.par, h.cap, h.us, h.refused, h.port, h.mutexOther, h.callsLeft⟩
  have none : ∀ {u}, SameSetting s u → SameSetting s (finish u) := fun h =>
    ⟨h.par, h.cap, h.us, h.refused, h.port, h.mutexOther, h.callsLeft⟩
  have held : ∀ {op u}, Held (enter op s) u → SameSetting s u := fun h =>
    ⟨h.par, h.cap, h.us, h.refused, h.port, h.mutexOther, h.callsLeft⟩
  have count : ∀ {op m}, SameSetting s (initCounts m (enter op s)) := fun {_ _} => ⟨rfl, rfl, rfl, rfl, rfl, rfl, rfl⟩
  cases h with
  | start _ => exact ⟨rfl, rfl, rfl, rfl, rfl, rfl, rfl⟩
  | restart h => exact none (held (restartOp_held h))
  | stop _ => exact ⟨rfl, rfl, rfl, rfl, rfl, rfl, rfl⟩
  | waitAck h => exact same (held (waitAckOp_held h))
  | writeByte h => exact same (held (writeByteOp_held _ h))
  | readByte h => exact same (held (readByteOp_held h))
  | sendAck h => exact none (held (sendAckOp_held _ h))
  | sendAddr h => exact same (held (sendAddrOp_held _ _ h))
  | addrPhase h _ => exact same (held (addrPhaseOp_held _ h))
  | @sendBytes _ m h _ _ =>
    rcases sendBytesOp_cases m (s := enter .sendBytes s) h with ⟨-, h⟩ | h
    · rw [h]; exact same count
    · exact same (held h)
  | @recvBytes _ m h _ _ =>
    rcases recvBytesOp_cases m (s := enter .recvBytes s) h with ⟨-, h⟩ | h
    · rw [h]; exact same count
    · exact same (held h)
  | @xfer _ ms _ _ =>
    have h := xferOp_exited ms (enter .xfer s)
    exact ⟨h.par, h.cap, h.us, h.refused, h.port, h.mutexOther, h.callsLeft⟩
  | @api _ cap ms _ _ _ h =>
    obtain ⟨-, ⟨-, rfl⟩ | ⟨-, -, rfl⟩⟩ := transfer_next h
    · exact ⟨rfl, rfl, rfl, rfl, rfl, rfl, rfl⟩
    · rw [transferOp_eq]
      have h := xferOp_exited ms (emit .lockAcquire (enter i.op s))
      exact ⟨h.par, h.cap, h.us, h.refused, h.port, h.mutexOther, h.callsLeft⟩

/-! ### A step -/

/-- An operation is never one that the sequencer forbids or the platform leaves stuck: those are the step's. -/
theorem exec_no_fault (i : Instr) (s : State) (f : Fault) : exec i s ≠ .fault f := by
  have ht : ∀ i cap ms, transfer i cap ms s ≠ .fault f := by
    intro i cap ms
    unfold transfer
    repeat' split
    all_goals simp [refuse]
  cases i
  case transfer => exact ht _ _ _
  case send => exact ht _ _ _
  case recv => exact ht _ _ _
  case sendThenRecv => exact ht _ _ _
  case sendThenSend => exact ht _ _ _
  all_goals
    simp only [exec, execStart, execRestart, execStop, execWaitAck, execWriteByte, execReadByte, execSendAckOrNack,
      execSendAddr, execAddrPhase, execSendBytes, execRecvBytes, execXfer, refuse]
    repeat' split
    all_goals simp

/-- What the block accepts at `Ready`, as `NextUp` says it. -/
theorem accept_some {s t : State} {c : Command} (h : accept s = some (c, t)) :
    t.par = s.par ∧ ∀ i, s.seq = .ready → decode s.par c = .ok i → NextUp s i t := by
  unfold accept at h
  split at h
  · rename_i hf
    split at h
    · simp at h
    · rename_i c' rest hp
      simp only [Option.some.injEq, Prod.mk.injEq] at h
      obtain ⟨rfl, rfl⟩ := h
      exact ⟨rfl, fun i hq hd => .delivered _ _ i hq hf hp hd⟩
  · rename_i f fs hf
    split at h
    · simp at h
    · rename_i c' rest hp
      simp only [Option.some.injEq, Prod.mk.injEq] at h
      obtain ⟨rfl, rfl⟩ := h
      exact ⟨rfl, fun i hq hd => .called f fs _ _ i hq hf hp hd⟩

theorem accept_none {s : State} (h : accept s = none) :
    (s.frames = [] ∧ s.port = []) ∨ ∃ f fs, s.frames = f :: fs ∧ f.calls = [] := by
  unfold accept at h
  split at h <;> rename_i hf <;> split at h <;> simp only [reduceCtorEq] at h
  · exact .inl ⟨hf, ‹_›⟩
  · exact .inr ⟨_, _, hf, ‹_›⟩

/-- A block that is not refused runs what is next. -/
theorem step_run {s t : State} {i : Instr} (hr : s.refused = false) (h : NextUp s i t) : step s = runInstr i t := by
  cases h with
  | waiting i hq => simp [step, hr, hq]
  | delivered c rest i hq hf hp hd => simp [step, hr, hq, runReady, accept, hf, hp, runCommand, hd]
  | called f fs c rest i hq hf hp hd => simp [step, hr, hq, runReady, accept, hf, hp, runCommand, hd]

/-- An operation run in a step answers what `exec` answers, with fewer calls left. -/
theorem runInstr_next {i : Instr} {s t : State} (h : runInstr i s = .next t) :
    ∃ u k, exec i s = .next u ∧ t = { u with callsLeft := k } := by
  unfold runInstr at h
  split at h
  · exact ⟨t, t.callsLeft, h, rfl⟩
  · unfold runBudgeted stuck at h
    split at h
    · rename_i u hu
      split at h <;> simp only [Host.Outcome.next.injEq, reduceCtorEq] at h
      exact ⟨u, _, hu, h.symm⟩
    · split at h <;> simp at h
    · simp at h
    · simp at h

/-- A step that answers a next state had nothing to do, let a TRANSFER return from its error callback on an idle bus, or ran
what is next. -/
theorem step_next {s t : State} (h : step s = .next t) :
    s.refused = false ∧
    ((s.seq = .ready ∧ s.frames = [] ∧ s.port = [] ∧ t = s) ∨
      (∃ f fs k, s.seq = .ready ∧ s.frames = f :: fs ∧ f.calls = [] ∧ s.bus = .idle ∧
        t = { callbackReturns f fs s with callsLeft := k }) ∨
      ∃ i u v k, NextUp s i u ∧ exec i u = .next v ∧ t = { v with callsLeft := k }) := by
  unfold step at h
  split at h
  · simp at h
  rename_i hr
  refine ⟨by simpa using hr, ?_⟩
  split at h
  · simp at h
  · rename_i i hq
    obtain ⟨u, k, hu, rfl⟩ := runInstr_next h
    exact .inr (.inr ⟨_, s, u, k, .waiting i hq, hu, rfl⟩)
  · rename_i hq
    unfold runReady at h
    split at h
    · rename_i c s1 ha
      unfold runCommand at h
      split at h
      · simp [refuse] at h
      · rename_i i hd
        obtain ⟨hp, hn⟩ := accept_some ha
        obtain ⟨u, k, hu, rfl⟩ := runInstr_next h
        exact .inr (.inr ⟨i, s1, u, k, hn i hq (hp ▸ hd), hu, rfl⟩)
    · rename_i ha
      split at h
      · rename_i hf
        simp only [Host.Outcome.next.injEq] at h
        rcases accept_none ha with ⟨-, hp⟩ | ⟨f, fs, hf', -⟩
        · exact .inl ⟨hq, hf, hp, h.symm⟩
        · simp [hf] at hf'
      · rename_i f fs hf
        rcases accept_none ha with ⟨hf', -⟩ | ⟨f', fs', hf', hc⟩
        · simp [hf] at hf'
        · rw [hf] at hf'
          obtain ⟨rfl, rfl⟩ := List.cons.inj hf'
          unfold runReturn at h
          split at h
          · simp at h
          · split at h <;> rename_i hb <;> simp only [Host.Outcome.next.injEq, reduceCtorEq] at h
            exact .inr (.inl ⟨f, fs, _, hq, hf, hc, hb, h.symm⟩)

end Sys2Proof.Machine
end

