-- ==== Sys2Proof/Laws/Alike.lean ====
section
/-! SUPPORT. No operation reads a datapath register before it has written it (R17):
    two states that differ only there run
alike. -/

namespace Sys2Proof.Machine

/-- Two states that differ at most in the datapath registers and in how the answers to come are held. -/
structure Alike (s t : State) : Prop where
  par : t.par = s.par
  cap : t.cap = s.cap
  us : t.us = s.us
  pins : t.pins = s.pins
  bus : t.bus = s.bus
  eng : t.eng = s.eng
  locked : t.locked = s.locked
  seq : t.seq = s.seq
  refused : t.refused = s.refused
  mem : t.mem = s.mem
  trace : t.trace = s.trace
  results : t.results = s.results
  port : t.port = s.port
  mutexOther : t.mutexOther = s.mutexOther
  callsLeft : t.callsLeft = s.callsLeft
  callbacks : t.callbacks = s.callbacks
  frames : t.frames = s.frames
  ans : ∀ k, answerAt t k = answerAt s k

section
variable {s t : State} (h : Alike s t)
include h

theorem Alike.on_dp (d e : Datapath) : Alike { s with dp := d } { t with dp := e } :=
  ⟨h.par, h.cap, h.us, h.pins, h.bus, h.eng, h.locked, h.seq, h.refused, h.mem, h.trace, h.results, h.port,
      h.mutexOther, h.callsLeft, h.callbacks, h.frames, h.ans⟩

theorem Alike.on_setI (n) : Alike (setI n s) (setI n t) := h.on_dp _ _
theorem Alike.on_setResult (n) : Alike (setResult n s) (setResult n t) := h.on_dp _ _
theorem Alike.on_setAddr1 (n) : Alike (setAddr1 n s) (setAddr1 n t) := h.on_dp _ _
theorem Alike.on_setAddr2 (n) : Alike (setAddr2 n s) (setAddr2 n t) := h.on_dp _ _
theorem Alike.on_setRlim (n) : Alike (setRlim n s) (setRlim n t) := h.on_dp _ _
theorem Alike.on_countByte : Alike (countByte s) (countByte t) := h.on_dp _ _
theorem Alike.on_initCounts (m) : Alike (initCounts m s) (initCounts m t) := h.on_dp _ _

theorem Alike.on_setEng (e) : Alike (setEng e s) (setEng e t) :=
  ⟨h.par, h.cap, h.us, h.pins, h.bus, rfl, h.locked, h.seq, h.refused, h.mem, h.trace, h.results, h.port,
      h.mutexOther, h.callsLeft, h.callbacks, h.frames, h.ans⟩

theorem Alike.on_openLoop : Alike (openLoop s) (openLoop t) := (h.on_setEng .busHeld).on_setI 0

theorem Alike.on_enter (e) : Alike (enter e s) (enter e t) :=
  ⟨h.par, h.cap, h.us, h.pins, h.bus, h.eng, h.locked, by simp [h.trace], h.refused, h.mem, h.trace, h.results, h.port,
      h.mutexOther, h.callsLeft, h.callbacks, h.frames, h.ans⟩

theorem Alike.on_finish : Alike (finish s) (finish t) :=
  ⟨h.par, h.cap, h.us, h.pins, h.bus, h.eng, h.locked, rfl, h.refused, h.mem, h.trace, h.results, h.port,
      h.mutexOther, h.callsLeft, h.callbacks, h.frames, h.ans⟩

theorem Alike.on_leave (r) : Alike (leave r s) (leave r t) :=
  ⟨h.par, h.cap, h.us, h.pins, h.bus, h.eng, h.locked, rfl, h.refused, h.mem, h.trace, by simp [h.results], h.port,
      h.mutexOther, h.callsLeft, h.callbacks, h.frames, h.ans⟩

theorem Alike.on_answersFrom (k n) : answersFrom t k n = answersFrom s k n := by simp [Machine.answersFrom, h.ans]
theorem Alike.on_sampledByte (k) : sampledByte t k = sampledByte s k := by simp [Machine.sampledByte, h.ans]

theorem Alike.on_emits (es) : Alike (emits es s) (emits es t) :=
  ⟨h.par, h.cap, h.us, by simp [h.pins], h.bus, h.eng, by simp [h.locked], h.seq, h.refused, h.mem,
      by simp [h.trace], h.results, h.port, h.mutexOther, h.callsLeft, h.callbacks, h.frames, h.ans⟩

theorem Alike.on_setBus (b) : Alike { s with bus := b } { t with bus := b } :=
  ⟨h.par, h.cap, h.us, h.pins, rfl, h.eng, h.locked, h.seq, h.refused, h.mem, h.trace, h.results, h.port,
      h.mutexOther, h.callsLeft, h.callbacks, h.frames, h.ans⟩

theorem Alike.on_drawn (n) : Alike (drawn n s) (drawn n t) :=
  ⟨h.par, h.cap, h.us, h.pins, h.bus, h.eng, h.locked, h.seq, h.refused, h.mem, h.trace, h.results, h.port,
      h.mutexOther, h.callsLeft, h.callbacks, h.frames, fun k => by simp [h.ans]⟩

theorem Alike.on_start : Alike (startOp s) (startOp t) := by
  unfold startOp; rw [h.us]; exact (h.on_emits _).on_setBus _
theorem Alike.on_stop : Alike (stopOp s) (stopOp t) := by
  unfold stopOp; rw [h.us]; exact (h.on_emits _).on_setBus _
theorem Alike.on_restart : Alike (restartOp s) (restartOp t) := by
  unfold restartOp; rw [h.us]; exact (h.on_emits _)
theorem Alike.on_sendAck (a) : Alike (sendAckOp a s) (sendAckOp a t) := by
  unfold sendAckOp; rw [h.us]; exact (h.on_emits _)
theorem Alike.on_waitAck : Alike (waitAckOp s) (waitAckOp t) := by
  rw [waitAckOp_eq, waitAckOp_eq, h.ans, h.trace]; have x :=
      h.on_drawn 1; exact ⟨x.par, x.cap, x.us, rfl, h.bus, x.eng, x.locked, x.seq, x.refused, h.mem, rfl, x.results,
      x.port, x.mutexOther, x.callsLeft, x.callbacks, x.frames, x.ans⟩
theorem Alike.on_writeByte (b) : Alike (writeByteOp b s) (writeByteOp b t) := by
  rw [writeByteOp_eq, writeByteOp_eq, h.ans, h.trace, h.us]; have x :=
      h.on_drawn 1; exact ⟨x.par, x.cap, x.us, rfl, h.bus, x.eng, x.locked, x.seq, x.refused, h.mem, rfl, x.results,
      x.port, x.mutexOther, x.callsLeft, x.callbacks, x.frames, x.ans⟩
theorem Alike.on_readByte : Alike (readByteOp s) (readByteOp t) := by
  rw [readByteOp_eq, readByteOp_eq, h.on_answersFrom, h.trace, h.us]; have x :=
      h.on_drawn 8; exact ⟨x.par, x.cap, x.us, rfl, h.bus, x.eng, x.locked, x.seq, x.refused, h.mem, rfl, x.results,
      x.port, x.mutexOther, x.callsLeft, x.callbacks, x.frames, x.ans⟩
theorem Alike.on_sendAddr (b r) : Alike (sendAddrOp b r s) (sendAddrOp b r t) := by
  have e1 : attempts t 0 r = attempts s 0 r := by simp [attempts, h.ans]
  have e2 : sendAddrEvents t 0 b r = sendAddrEvents s 0 b r := by simp [sendAddrEvents, h.ans, h.us]
  rw [sendAddrOp_eq, sendAddrOp_eq, e1, e2, h.ans, h.trace]
  have x := h.on_drawn (attempts s 0 r)
  exact ⟨x.par, x.cap, x.us, rfl, by simp only [h.bus], x.eng, x.locked, x.seq, x.refused, h.mem, rfl, x.results,
      x.port, x.mutexOther, x.callsLeft, x.callbacks, x.frames, x.ans⟩
theorem Alike.on_sendAddr_ackf (b r) : (sendAddrOp b r t).dp.ackf = (sendAddrOp b r s).dp.ackf := by
  simp [sendAddrOp_eq, addrAck, h.ans]
theorem Alike.on_sendOne (m) (hb : t.dp.bytes = s.dp.bytes) : Alike (sendOne m s) (sendOne m t) := by
  have : sentByte t m s.dp.bytes = sentByte s m s.dp.bytes := by simp [sentByte, h.mem]
  rw [sendOne_eq, sendOne_eq, hb, this, h.ans, h.trace, h.us]
  have x := h.on_drawn 1
  exact ⟨x.par, x.cap, x.us, rfl, h.bus, x.eng, x.locked, x.seq, x.refused, h.mem, rfl, x.results, x.port,
      x.mutexOther, x.callsLeft, x.callbacks, x.frames, x.ans⟩
theorem Alike.on_recvOne (m) (hb : t.dp.bytes = s.dp.bytes) (hr : t.dp.remain = s.dp.remain) :
    Alike (recvOne m s) (recvOne m t) := by
  rw [recvOne_eq, recvOne_eq, hb, hr, h.on_sampledByte, h.on_answersFrom, h.trace, h.us, h.mem, h.par]
  have x := h.on_drawn 8
  exact ⟨x.par, x.cap, x.us, rfl, h.bus, x.eng, x.locked, x.seq, x.refused, rfl, rfl, x.results, x.port,
      x.mutexOther, x.callsLeft, x.callbacks, x.frames, x.ans⟩
end

theorem Alike.on_sendLoop (m k) {s t : State} (h : Alike s t) (hb : t.dp.bytes = s.dp.bytes) :
    Alike (sendLoop m k s) (sendLoop m k t) ∧ (sendLoop m k t).dp.bytes = (sendLoop m k s).dp.bytes := by
  induction k generalizing s t with
  | zero => exact ⟨h, hb⟩
  | succ k ih =>
    have h1 := h.on_sendOne m hb
    have ha : (Machine.sendOne m t).dp.ackf = (Machine.sendOne m s).dp.ackf := by simp [sendOne_ackf, h.ans]
    have hb' : (Machine.sendOne m t).dp.bytes = (Machine.sendOne m s).dp.bytes := by simp [sendOne_bytes, hb]
    simp only [Machine.sendLoop, ha, h.par]
    split
    · exact ⟨h1, hb'⟩
    · exact ih h1.on_countByte (by simp [hb'])

theorem Alike.on_recvLoop (m k) {s t : State} (h : Alike s t) (hb : t.dp.bytes = s.dp.bytes) (hr :
    t.dp.remain = s.dp.remain) : Alike (recvLoop m k s) (recvLoop m k t) ∧
    (recvLoop m k t).dp.bytes = (recvLoop m k s).dp.bytes := by
  induction k generalizing s t with
  | zero => exact ⟨h, hb⟩
  | succ k ih =>
    exact ih (h.on_recvOne m hb hr) (by simp [recvOne_eq, hb]) (by simp [recvOne_eq, hr])

theorem ite_alike {c d : Prop} [Decidable c] [Decidable d] {a b a' b' : Bool × State} (hcd : d ↔ c) (h1 :
    c → a'.1 = a.1 ∧ Alike a.2 a'.2) (h2 : ¬c → b'.1 = b.1 ∧ Alike b.2 b'.2) :
   (if d then a' else b').1 = (if c then a else b).1 ∧ Alike (if c then a else b).2 (if d then a' else b').2 := by
  by_cases h : c
  · rw [if_pos h, if_pos (hcd.2 h)]; exact h1 h
  · rw [if_neg h, if_neg fun h' => h (hcd.1 h')]; exact h2 h

theorem Alike.on_addrPhase10 (m) {s t : State} (h : Alike s t) (hr : t.dp.rlim = s.dp.rlim) :
    (addrPhase10 m t).1 = (addrPhase10 m s).1 ∧ Alike (addrPhase10 m s).2 (addrPhase10 m t).2 := by
  unfold Machine.addrPhase10
  dsimp only
  rw [hr]
  generalize s.dp.rlim = r
  have h0 : Alike (setAddr2 (addrByteLo m) (setAddr1 (addrByteHi m) s)) (setAddr2 (addrByteLo m) (setAddr1
      (addrByteHi m) t)) := (h.on_setAddr1 _).on_setAddr2 _
  have h1 := h0.on_sendAddr (addrByteHi m) r
  have a1 := h0.on_sendAddr_ackf (addrByteHi m) r
  have q1 : ∀ u : State, (sendAddrOp (addrByteHi m) r (setAddr2 (addrByteLo m) (setAddr1 (addrByteHi m) u))).dp.addr2
      = addrByteLo m ∧ (sendAddrOp (addrByteHi m) r (setAddr2 (addrByteLo m) (setAddr1 (addrByteHi m) u))).dp.addr1 =
      addrByteHi m ∧ (sendAddrOp (addrByteHi m) r (setAddr2 (addrByteLo m) (setAddr1 (addrByteHi m) u))).dp.rlim =
      u.dp.rlim := fun u => by simp [sendAddrOp_eq]
  obtain ⟨s2, s1, s3⟩ := q1 s
  obtain ⟨t2, t1, t3⟩ := q1 t
  rw [hr] at t3
  generalize sendAddrOp (addrByteHi m) r (setAddr2 (addrByteLo m) (setAddr1 (addrByteHi m) s)) = s' at *
  generalize sendAddrOp (addrByteHi m) r (setAddr2 (addrByteLo m) (setAddr1 (addrByteHi m) t)) = t' at *
  clear h0 q1
  refine ite_alike (by rw [a1, h.par]) (fun _ => ⟨rfl, h1⟩) fun _ => ?_
  rw [s2, t2]
  have h2 := h1.on_writeByte (addrByteLo m)
  have a2 : (writeByteOp (addrByteLo m) t').dp.ackf = (writeByteOp (addrByteLo m) s').dp.ackf :=
      by simp [writeByteOp_ackf, h1.ans]
  have q2 : ∀ u : State, (writeByteOp (addrByteLo m) u).dp.addr1 = u.dp.addr1 ∧
      (writeByteOp (addrByteLo m) u).dp.rlim = u.dp.rlim := fun u => by simp [writeByteOp_eq]
  obtain ⟨s4, s5⟩ := q2 s'
  obtain ⟨t4, t5⟩ := q2 t'
  rw [s1] at s4; rw [t1] at t4; rw [s3] at s5; rw [t3] at t5
  generalize writeByteOp (addrByteLo m) s' = s'' at *
  generalize writeByteOp (addrByteLo m) t' = t'' at *
  refine ite_alike (by rw [a2, h.par]) (fun _ => ⟨rfl, h2⟩) fun _ => ?_
  refine ite_alike (by rw [h.par]) (fun _ => ?_) (fun _ => ⟨rfl, h2⟩)
  have e1 : setAddr1 ((restartOp s'').dp.addr1 ||| 1#8) (restartOp s'') = setAddr1 (addrByteHi m ||| 1#8) (restartOp
      s'') := by rw [restartOp_dp, s4]
  have e2 : setAddr1 ((restartOp t'').dp.addr1 ||| 1#8) (restartOp t'') = setAddr1 (addrByteHi m ||| 1#8) (restartOp
      t'') := by rw [restartOp_dp, t4]
  rw [e1, e2]
  have h3 : Alike (setAddr1 (addrByteHi m ||| 1#8) (restartOp s'')) (setAddr1 (addrByteHi m ||| 1#8) (restartOp t''))
      := h2.on_restart.on_setAddr1 _
  have g1 : (setAddr1 (addrByteHi m ||| 1#8) (restartOp s'')).dp.addr1 = addrByteHi m ||| 1#8 := rfl
  have g2 : (setAddr1 (addrByteHi m ||| 1#8) (restartOp t'')).dp.addr1 = addrByteHi m ||| 1#8 := rfl
  have g3 : (setAddr1 (addrByteHi m ||| 1#8) (restartOp s'')).dp.rlim = s.dp.rlim := s5
  have g4 : (setAddr1 (addrByteHi m ||| 1#8) (restartOp t'')).dp.rlim = s.dp.rlim := t5
  rw [g1, g2, g3, g4]
  refine ite_alike (by rw [h3.on_sendAddr_ackf, h.par]) (fun _ => ⟨rfl, h3.on_sendAddr _ _⟩) (fun _ => ⟨rfl,
      h3.on_sendAddr _ _⟩)

theorem Alike.on_addrPhase (m) {s t : State} (h : Alike s t) : (addrPhaseOp m t).1 = (addrPhaseOp m s).1 ∧
    Alike (addrPhaseOp m s).2 (addrPhaseOp m t).2 := by
  unfold addrPhaseOp
  dsimp only
  rw [h.par]
  refine ite_alike Iff.rfl (fun _ => Alike.on_addrPhase10 m (h.on_setRlim _) rfl) (fun _ => ?_)
  have h1 : Alike (setRlim (retryLimit s.par m) s) (setRlim (retryLimit s.par m) t) := h.on_setRlim _
  have r1 : (setRlim (retryLimit s.par m) t).dp.rlim = (setRlim (retryLimit s.par m) s).dp.rlim := rfl
  generalize setRlim (retryLimit s.par m) s = s' at *
  generalize setRlim (retryLimit s.par m) t = t' at *
  unfold addrPhase7
  dsimp only
  rw [h1.par, r1]
  have h0 : Alike (setAddr1 (addrByte7 s'.par m) s') (setAddr1 (addrByte7 s'.par m) t') := h1.on_setAddr1 _
  refine ite_alike (by rw [h0.on_sendAddr_ackf]) (fun _ => ⟨rfl, h0.on_sendAddr _ _⟩) (fun _ => ⟨rfl,
      h0.on_sendAddr _ _⟩)

theorem addrPhaseOp_i (m) (s : State) : (addrPhaseOp m s).2.dp.i = s.dp.i := by
  simp only [addrPhaseOp]; split
  · simp only [addrPhase10]; repeat' split
    all_goals simp [sendAddrOp_eq, writeByteOp_eq]
  · simp only [addrPhase7]; repeat' split
    all_goals simp [sendAddrOp_eq]

theorem sendLoop_i (m k) (s : State) : (sendLoop m k s).dp.i = s.dp.i := by
  induction k generalizing s with
  | zero => rfl
  | succ k ih => simp only [sendLoop]; split; simp [sendOne_eq]; rw [ih]; simp [sendOne_eq]
theorem recvLoop_i (m k) (s : State) : (recvLoop m k s).dp.i = s.dp.i := by
  induction k generalizing s with
  | zero => rfl
  | succ k ih => simp only [recvLoop]; rw [ih]; simp [recvOne_eq]

theorem Alike.on_sendBytes (m) {s t : State} (h : Alike s t) : Alike (sendBytesOp m s) (sendBytesOp m t) ∧
    (sendBytesOp m t).dp.bytes = (sendBytesOp m s).dp.bytes :=
  Alike.on_sendLoop m m.len (h.on_initCounts m) rfl
theorem Alike.on_recvBytes (m) {s t : State} (h : Alike s t) : Alike (recvBytesOp m s) (recvBytesOp m t) ∧
    (recvBytesOp m t).dp.bytes = (recvBytesOp m s).dp.bytes :=
  Alike.on_recvLoop m m.len (h.on_initCounts m) rfl rfl

theorem Alike.on_service (m) {s t : State} (h : Alike s t) (hi : t.dp.i = s.dp.i) :
    (serviceMsg m t).1 = (serviceMsg m s).1 ∧ Alike (serviceMsg m s).2 (serviceMsg m t).2 ∧
    (serviceMsg m t).2.dp.i = (serviceMsg m s).2.dp.i := by
  have ha : (addressMsg m t).1 = (addressMsg m s).1 ∧ Alike (addressMsg m s).2 (addressMsg m t).2 ∧
      (addressMsg m t).2.dp.i = (addressMsg m s).2.dp.i := by
    simp only [addressMsg, h.par, hi]
    split
    · exact ⟨rfl, h, hi⟩
    · have h1 : Alike (Machine.setEng .addressing (if s.dp.i ≠ 0 then restartOp s else s)) (Machine.setEng
          .addressing (if s.dp.i ≠ 0 then restartOp t else t)) := by
        split
        · exact h.on_restart.on_setEng _
        · exact h.on_setEng _
      obtain ⟨h2, h3⟩ := h1.on_addrPhase m
      refine ⟨h2, h3, ?_⟩
      rw [addrPhaseOp_i, addrPhaseOp_i]; split <;> simp [hi]
  obtain ⟨a1, a2, a3⟩ := ha
  have hd : Alike (dataMsg m (addressMsg m s).2) (dataMsg m (addressMsg m t).2) ∧
      (dataMsg m (addressMsg m t).2).dp.bytes = (dataMsg m (addressMsg m s).2).dp.bytes := by
    simp only [dataMsg, a2.par]
    split
    · exact (a2.on_setEng _).on_recvBytes m
    · exact (a2.on_setEng _).on_sendBytes m
  have hdi : ∀ u : State, (dataMsg m u).dp.i = u.dp.i := by
    intro u; simp only [dataMsg]; split <;> simp [recvBytesOp, sendBytesOp, sendLoop_i, recvLoop_i]
  obtain ⟨d1, d2⟩ := hd
  have i1 := hdi (addressMsg m s).2
  have i2 := hdi (addressMsg m t).2
  unfold serviceMsg
  dsimp only
  generalize addressMsg m s = p at *
  generalize addressMsg m t = q at *
  obtain ⟨p1, p2⟩ := p
  obtain ⟨q1, q2⟩ := q
  dsimp only at *
  generalize dataMsg m p2 = u at *
  generalize dataMsg m q2 = v at *
  subst a1
  rw [h.par, d2]
  split
  · exact ⟨rfl, a2, a3⟩
  · split
    · exact ⟨rfl, d1, by rw [i1, i2, a3]⟩
    · rw [show v.dp.i = u.dp.i by rw [i1, i2, a3]]
      exact ⟨rfl, (d1.on_setEng _).on_setI _, rfl⟩

theorem Alike.on_exit {s t : State} (h : Alike s t) (hi : t.dp.i = s.dp.i) : Alike (exitOp s) (exitOp t) ∧
    (exitOp t).dp.result = (exitOp s).dp.result :=
  ⟨by unfold exitOp; dsimp only; rw [show (stopOp (Machine.setEng .busHeld t)).dp.i = (stopOp (Machine.setEng
      .busHeld s)).dp.i from hi]; exact (((h.on_setEng _).on_stop).on_setEng _).on_setResult _, by simp [exitOp, hi]⟩

theorem Alike.on_loop (ms) {s t : State} (h : Alike s t) (hi : t.dp.i = s.dp.i) :
    Alike (xferLoop ms s) (xferLoop ms t) ∧ (xferLoop ms t).dp.result = (xferLoop ms s).dp.result := by
  induction ms generalizing s t with
  | nil => exact h.on_exit hi
  | cons m ms ih =>
    obtain ⟨h1, h2, h3⟩ := h.on_service m hi
    simp only [xferLoop]
    generalize serviceMsg m s = r at *
    generalize serviceMsg m t = q at *
    obtain ⟨o, r⟩ := r
    obtain ⟨p, q⟩ := q
    simp only at h1 h2 h3
    subst h1
    cases p with
    | none => exact ih h2 h3
    | some a => exact h2.on_exit h3

theorem Alike.on_xfer (ms) {s t : State} (h : Alike s t) : Alike (xferOp ms s) (xferOp ms t) ∧
    (xferOp ms t).dp.result = (xferOp ms s).dp.result :=
  Alike.on_loop ms h.on_start.on_openLoop rfl

end Sys2Proof.Machine
end

