-- ==== Sys2Proof/Laws/Around.lean ====
section
/-! SUPPORT. XFER does not look at the history before it, at the lock, or at the sequencer's position: it runs alike
inside a TRANSFER and on its own. -/

namespace Sys2Proof.Machine

/-- The same state with a history put before its own, and another lock and position. -/
def around (T : List Event) (L : Bool) (Q : Seq) (s : State) : State :=
  { s with trace := T ++ s.trace, locked := L, seq := Q }

section
variable (T : List Event) (L : Bool) (Q : Seq) (s : State)

@[simp] theorem around_dp : (around T L Q s).dp = s.dp := rfl
@[simp] theorem around_par : (around T L Q s).par = s.par := rfl
@[simp] theorem around_us : (around T L Q s).us = s.us := rfl
@[simp] theorem around_trace : (around T L Q s).trace = T ++ s.trace := rfl

theorem around_setAddr1 (v : Byte) : setAddr1 v (around T L Q s) = around T L Q (setAddr1 v s) := rfl
theorem around_setAddr2 (v : Byte) : setAddr2 v (around T L Q s) = around T L Q (setAddr2 v s) := rfl
theorem around_setRlim (r : BitVec 1) : setRlim r (around T L Q s) = around T L Q (setRlim r s) := rfl
theorem around_setEng (e : EngState) : setEng e (around T L Q s) = around T L Q (setEng e s) := rfl
theorem around_openLoop : openLoop (around T L Q s) = around T L Q (openLoop s) := rfl
theorem around_setI (n : Nat) : setI n (around T L Q s) = around T L Q (setI n s) := rfl
theorem around_countByte : countByte (around T L Q s) = around T L Q (countByte s) := rfl
theorem around_initCounts (m : Msg) : initCounts m (around T L Q s) = around T L Q (initCounts m s) := rfl

theorem around_startOp : startOp (around T L Q s) = around T L Q (startOp s) := by
  simp [startOp, around, emits, lockedAfter, Event.onLocked]

theorem around_restartOp : restartOp (around T L Q s) = around T L Q (restartOp s) := by
  simp [restartOp, around, emits, lockedAfter, Event.onLocked]

theorem around_writeByteOp (b : Byte) : writeByteOp b (around T L Q s) = around T L Q (writeByteOp b s) := by
  simp [writeByteOp_eq, around, drawn, answerAt]

theorem around_sendAddrOp (b : Byte) (r : BitVec 1) :
    sendAddrOp b r (around T L Q s) = around T L Q (sendAddrOp b r s) := by
  simp [sendAddrOp_eq, around, drawn, answerAt, attempts, addrAck, sendAddrEvents]

theorem around_addrPhaseOp (m : Msg) :
    addrPhaseOp m (around T L Q s) = ((addrPhaseOp m s).1, around T L Q (addrPhaseOp m s).2) := by
  simp only [addrPhaseOp, addrPhase10, addrPhase7, around_setRlim, around_setAddr1, around_setAddr2, around_sendAddrOp,
    around_writeByteOp, around_restartOp, around_par, around_dp]
  repeat' split
  all_goals rfl

theorem around_sendOne (m : Msg) : sendOne m (around T L Q s) = around T L Q (sendOne m s) := by
  simp [sendOne_eq, around, drawn, answerAt, sentByte]

theorem around_recvOne (m : Msg) : recvOne m (around T L Q s) = around T L Q (recvOne m s) := by
  simp [recvOne_eq, around, drawn, answerAt, answersFrom, sampledByte]

theorem around_sendLoop (m : Msg) (k : Nat) : sendLoop m k (around T L Q s) = around T L Q (sendLoop m k s) := by
  induction k generalizing s with
  | zero => rfl
  | succ k ih =>
    simp only [sendLoop, around_sendOne, around_dp, around_par, around_countByte, ih]
    split <;> rfl

theorem around_recvLoop (m : Msg) (k : Nat) : recvLoop m k (around T L Q s) = around T L Q (recvLoop m k s) := by
  induction k generalizing s with
  | zero => rfl
  | succ k ih => simp only [recvLoop, around_recvOne, ih]

theorem around_serviceMsg (m : Msg) :
    serviceMsg m (around T L Q s) = ((serviceMsg m s).1, around T L Q (serviceMsg m s).2) := by
  have ha : addressMsg m (around T L Q s) = ((addressMsg m s).1, around T L Q (addressMsg m s).2) := by
    simp only [addressMsg, around_par, around_dp, around_restartOp]
    split
    · rfl
    · split <;> simp only [around_setEng, around_addrPhaseOp]
  have hd (t : State) : dataMsg m (around T L Q t) = around T L Q (dataMsg m t) := by
    simp only [dataMsg, around_setEng, around_par, recvBytesOp, sendBytesOp, around_initCounts, around_recvLoop,
      around_sendLoop]
    split <;> rfl
  simp only [serviceMsg, ha, hd, around_par, around_dp, around_setEng, around_setI]
  repeat' split
  all_goals rfl

theorem around_exitOp : exitOp (around T L Q s) = around T L Q (exitOp s) := by
  simp [exitOp, stopOp, setEng, setResult, around, emits, lockedAfter, Event.onLocked]

theorem around_xferLoop (ms : List Msg) : xferLoop ms (around T L Q s) = around T L Q (xferLoop ms s) := by
  induction ms generalizing s with
  | nil => exact around_exitOp T L Q s
  | cons m ms ih =>
    simp only [xferLoop, around_serviceMsg]
    generalize serviceMsg m s = r
    obtain ⟨o, t⟩ := r
    cases o
    · exact ih t
    · exact around_exitOp T L Q t

theorem around_xferOp (ms : List Msg) : xferOp ms (around T L Q s) = around T L Q (xferOp ms s) := by
  simp only [xferOp, around_startOp, around_openLoop, around_xferLoop]

end

end Sys2Proof.Machine
end

