-- ==== Sys2Proof/Laws/Encoding.lean ====
section
/-! SUPPORT. The fields of a command word as numbers, and as fields of the word built from them. -/

namespace Sys2Proof

theorem append_toNat {m n : Nat} (a : BitVec m) (b : BitVec n) : (a ++ b).toNat = a.toNat * 2 ^ n + b.toNat := by
  rw [BitVec.toNat_append, ← Nat.shiftLeft_add_eq_or_of_lt b.isLt, Nat.shiftLeft_eq]

theorem cmdWord_toNat (imm : BitVec 8) (b : BitVec 1) (op : BitVec 5) :
    (cmdWord imm b op).toNat = imm.toNat * 256 + b.toNat * 32 + op.toNat := by
  unfold cmdWord
  have h0 : (0#2 : BitVec 2).toNat = 0 := rfl
  rw [append_toNat imm, append_toNat (0#2), append_toNat b, h0]
  omega

theorem cmdOp_toNat (w : BitVec 16) : (cmdOp w).toNat = w.toNat % 32 := by
  simp [cmdOp, BitVec.extractLsb'_toNat]

theorem cmdB_toNat (w : BitVec 16) : (cmdB w).toNat = w.toNat / 32 % 2 := by
  simp [cmdB, BitVec.extractLsb'_toNat, Nat.shiftRight_eq_div_pow]

theorem cmdRsv_toNat (w : BitVec 16) : (cmdRsv w).toNat = w.toNat / 64 % 4 := by
  simp [cmdRsv, BitVec.extractLsb'_toNat, Nat.shiftRight_eq_div_pow]

theorem cmdImm_toNat (w : BitVec 16) : (cmdImm w).toNat = w.toNat / 256 := by
  have := w.isLt
  simp [cmdImm, BitVec.extractLsb'_toNat, Nat.shiftRight_eq_div_pow]
  omega

section
variable (imm : BitVec 8) (b : BitVec 1) (op : BitVec 5)

@[simp] theorem cmdOp_cmdWord : cmdOp (cmdWord imm b op) = op := by
  apply BitVec.eq_of_toNat_eq
  have := op.isLt
  rw [cmdOp_toNat, cmdWord_toNat]; omega

@[simp] theorem cmdB_cmdWord : cmdB (cmdWord imm b op) = b := by
  apply BitVec.eq_of_toNat_eq
  have := op.isLt
  have := b.isLt
  rw [cmdB_toNat, cmdWord_toNat]; omega

@[simp] theorem cmdRsv_cmdWord : cmdRsv (cmdWord imm b op) = 0#2 := by
  apply BitVec.eq_of_toNat_eq
  have := op.isLt
  have := b.isLt
  rw [cmdRsv_toNat, cmdWord_toNat]; simp; omega

@[simp] theorem cmdImm_cmdWord : cmdImm (cmdWord imm b op) = imm := by
  apply BitVec.eq_of_toNat_eq
  have := op.isLt
  have := b.isLt
  rw [cmdImm_toNat, cmdWord_toNat]; omega

end

/-- A word with RSV zero is its other three fields. -/
theorem cmdWord_fields (w : BitVec 16) (h : cmdRsv w = 0#2) : cmdWord (cmdImm w) (cmdB w) (cmdOp w) = w := by
  apply BitVec.eq_of_toNat_eq
  have h0 : w.toNat / 64 % 4 = 0 := by rw [← cmdRsv_toNat, h]; rfl
  rw [cmdWord_toNat, cmdImm_toNat, cmdB_toNat, cmdOp_toNat]
  omega

@[simp] theorem Op.ofCode_code (op : Op) : Op.ofCode op.code = some op := by cases op <;> rfl

theorem Op.code_of_ofCode {c : BitVec 5} {op : Op} (h : Op.ofCode c = some op) : op.code = c := by
  revert op
  revert c
  decide

end Sys2Proof
end

