-- ==== Sys2Proof/Laws/Grown.lean ====
section
/-! SUPPORT. Every operation only adds to the history, and the pins and LOCKED follow from what it adds (R28). -/

namespace Sys2Proof.Machine

/-- `t` comes after `s`: its history is longer by some events, and its pins and LOCKED are as those events leave them. -/
def Grown (s t : State) : Prop :=
  ∃ es, t.trace = s.trace ++ es ∧ t.pins = pinsAfter es s.pins ∧ t.locked = lockedAfter es s.locked

theorem Grown.same {s t : State} (ht : t.trace = s.trace) (hp : t.pins = s.pins) (hl : t.locked = s.locked) : Grown s t :=
  ⟨[], by simp [ht], hp, hl⟩

theorem Grown.trans {s t u : State} (h1 : Grown s t) (h2 : Grown t u) : Grown s u := by
  obtain ⟨a, a1, a2, a3⟩ := h1
  obtain ⟨b, b1, b2, b3⟩ := h2
  exact ⟨a ++ b, by rw [b1, a1, List.append_assoc], by rw [b2, a2, pinsAfter_append], by rw [b3, a3, lockedAfter_append]⟩

/-- What is changed besides the history, the pins and LOCKED does not matter. -/
theorem Grown.congr {s t u v : State} (h : Grown s t) (a1 : s.trace = u.trace) (a2 : s.pins = u.pins) (a3 : s.locked = u.locked)
    (b1 : v.trace = t.trace) (b2 : v.pins = t.pins) (b3 : v.locked = t.locked) : Grown u v := by
  unfold Grown at *
  rwa [← a1, ← a2, ← a3, b1, b2, b3]

theorem Grown.before {s t : State} (h : Grown s t) {u : State} (a1 : s.trace = u.trace) (a2 : s.pins = u.pins)
    (a3 : s.locked = u.locked) : Grown u t := h.congr a1 a2 a3 rfl rfl rfl

theorem Grown.after {s t : State} (h : Grown s t) {v : State} (b1 : v.trace = t.trace) (b2 : v.pins = t.pins)
    (b3 : v.locked = t.locked) : Grown s v := h.congr rfl rfl rfl b1 b2 b3

theorem emits_grown (es : List Event) (s : State) : Grown s (emits es s) := ⟨es, rfl, rfl, rfl⟩

theorem getSda_grown (s : State) : Grown s (getSda s) := (emits_grown [.getSda (answerAt s 0)] s).congr rfl rfl rfl rfl rfl rfl

theorem memRead_grown (a : Nat) (s : State) : Grown s (memRead a s) := emits_grown _ s

theorem memWrite_grown (a : Nat) (v : Byte) (s : State) : Grown s (memWrite a v s) :=
  (emits_grown [.memWrite a v] s).congr rfl rfl rfl rfl rfl rfl

theorem startOp_grown (s : State) : Grown s (startOp s) := (emits_grown _ s).congr rfl rfl rfl rfl rfl rfl
theorem restartOp_grown (s : State) : Grown s (restartOp s) := emits_grown _ s
theorem stopOp_grown (s : State) : Grown s (stopOp s) := (emits_grown _ s).congr rfl rfl rfl rfl rfl rfl

/-! ### The byte engine and the address phase -/

theorem waitAckOp_grown (s : State) : Grown s (waitAckOp s) :=
  ⟨waitAckEvents (answerAt s 0), by simp [waitAckOp_eq], by simp [waitAckOp_eq]; rfl, by simp [waitAckOp_eq]; rfl⟩

theorem shiftOutBits_grown (k : Nat) (s : State) : Grown s (shiftOutBits k s) := by
  induction k generalizing s with
  | zero => exact .same rfl rfl rfl
  | succ k ih => exact ((emits_grown _ (setBitcnt (BitVec.ofNat 4 k) s)).before rfl rfl rfl).trans (ih _)

theorem writeByteOp_grown (b : Byte) (s : State) : Grown s (writeByteOp b s) := by
  have h1 := (emits_grown [.sdaDirOut] (setShift b s)).before (u := s) rfl rfl rfl
  have h2 := h1.trans (shiftOutBits_grown 8 _)
  have h3 := h2.trans (emits_grown [.sclSet false] _)
  exact (h3.trans (emits_grown [.delay (half (emits [.sclSet false] _).us)] _)).trans (waitAckOp_grown _)

theorem shiftInBits_grown (k : Nat) (s : State) : Grown s (shiftInBits k s) := by
  induction k generalizing s with
  | zero => exact .same rfl rfl rfl
  | succ k ih =>
    refine Grown.trans ⟨bitInEvents s.us (answerAt s 0), ?_, ?_, ?_⟩ (ih (shiftInBit (8 - k) s)) <;>
      simp [shiftInBit_eq, bitInEvents, pinsAfter, lockedAfter, Event.onPins, Event.onLocked]

theorem readByteOp_grown (s : State) : Grown s (readByteOp s) :=
  (emits_grown _ s).trans ((shiftInBits_grown 8 (setShift 0#8 (emits [.sdaDirIn, .sdaSet true] s))).before rfl rfl rfl)

theorem sendAckOp_grown (ack : Bool) (s : State) : Grown s (sendAckOp ack s) := emits_grown _ s

theorem retryOp_grown (s : State) : Grown s (retryOp s) :=
  ((stopOp_grown s).trans ((emits_grown [.delay s.us] (stopOp s)).trans (startOp_grown _))).after rfl rfl rfl

theorem sendAddrTries_grown (b : Byte) (k : Nat) (s : State) : Grown s (sendAddrTries b k s) := by
  induction k generalizing s with
  | zero => exact writeByteOp_grown b s
  | succ k ih =>
    simp only [sendAddrTries]
    split
    · exact writeByteOp_grown b s
    · exact (writeByteOp_grown b s).trans ((retryOp_grown _).trans (ih _))

theorem sendAddrOp_grown (b : Byte) (r : BitVec 1) (s : State) : Grown s (sendAddrOp b r s) :=
  (sendAddrTries_grown b _ (setTries 0#1 s)).congr rfl rfl rfl rfl rfl rfl

theorem addrPhaseOp_grown (m : Msg) (s : State) : Grown s (addrPhaseOp m s).2 := by
  have sent : ∀ b r (u v : State), v.trace = u.trace → v.pins = u.pins → v.locked = u.locked →
      Grown u (sendAddrOp b r v) := fun b r u v h1 h2 h3 => (sendAddrOp_grown b r v).before h1 h2 h3
  simp only [addrPhaseOp]
  split
  · unfold addrPhase10
    dsimp only
    generalize h1 : sendAddrOp (addrByteHi m) _ _ = s1
    have g1 : Grown s s1 := h1 ▸ sent _ _ _ _ rfl rfl rfl
    generalize h2 : writeByteOp s1.dp.addr2 s1 = s2
    have g2 : Grown s s2 := h2 ▸ g1.trans (writeByteOp_grown _ _)
    generalize h3 : sendAddrOp _ _ (setAddr1 _ (restartOp s2)) = s3
    have g3 : Grown s s3 := h3 ▸ g2.trans ((restartOp_grown _).trans (sent _ _ _ _ rfl rfl rfl))
    repeat' split
    all_goals assumption
  · unfold addrPhase7
    dsimp only
    generalize h1 : sendAddrOp (addrByte7 _ m) _ _ = s1
    have g1 : Grown s s1 := h1 ▸ sent _ _ _ _ rfl rfl rfl
    split <;> exact g1

/-! ### The transfer engine and the API -/

theorem sendLoop_grown (m : Msg) (k : Nat) (s : State) : Grown s (sendLoop m k s) := by
  have one : ∀ s, Grown s (sendOne m s) := fun s => (memRead_grown _ s).trans (writeByteOp_grown _ _)
  induction k generalizing s with
  | zero => exact .same rfl rfl rfl
  | succ k ih =>
    simp only [sendLoop]
    split
    · exact one s
    · exact (one s).trans ((ih (countByte (sendOne m s))).before rfl rfl rfl)

theorem recvOne_grown (m : Msg) (s : State) : Grown s (recvOne m s) := by
  unfold recvOne
  have h := (readByteOp_grown s).trans (memWrite_grown (cellAddr m (readByteOp s).dp.bytes) (readByteOp s).dp.shift _)
  dsimp only
  split
  · exact h.congr rfl rfl rfl rfl rfl rfl
  · exact h.trans ((sendAckOp_grown _ _).congr rfl rfl rfl rfl rfl rfl)

theorem recvLoop_grown (m : Msg) (k : Nat) (s : State) : Grown s (recvLoop m k s) := by
  induction k generalizing s with
  | zero => exact .same rfl rfl rfl
  | succ k ih => exact (recvOne_grown m s).trans (ih _)

theorem sendBytesOp_grown (m : Msg) (s : State) : Grown s (sendBytesOp m s) :=
  (sendLoop_grown m _ (initCounts m s)).congr rfl rfl rfl rfl rfl rfl

theorem recvBytesOp_grown (m : Msg) (s : State) : Grown s (recvBytesOp m s) :=
  (recvLoop_grown m _ (initCounts m s)).congr rfl rfl rfl rfl rfl rfl

theorem serviceMsg_grown (m : Msg) (s : State) : Grown s (serviceMsg m s).2 := by
  have ha : Grown s (addressMsg m s).2 := by
    unfold addressMsg
    split
    · exact .same rfl rfl rfl
    · dsimp only
      split
      · exact (restartOp_grown s).trans ((addrPhaseOp_grown m (setEng .addressing (restartOp s))).before rfl rfl rfl)
      · exact (addrPhaseOp_grown m (setEng .addressing s)).before rfl rfl rfl
  have hd : ∀ u, Grown u (dataMsg m u) := by
    intro u
    unfold dataMsg
    dsimp only
    split
    · exact (recvBytesOp_grown m (setEng .transferring u)).before rfl rfl rfl
    · exact (sendBytesOp_grown m (setEng .transferring u)).before rfl rfl rfl
  unfold serviceMsg
  dsimp only
  split
  · exact ha
  · split
    · exact ha.trans (hd _)
    · exact ha.trans ((hd _).after rfl rfl rfl)

theorem exitOp_grown (s : State) : Grown s (exitOp s) :=
  (stopOp_grown (setEng .busHeld s)).congr rfl rfl rfl rfl rfl rfl

theorem xferLoop_grown (ms : List Msg) (s : State) : Grown s (xferLoop ms s) := by
  induction ms generalizing s with
  | nil => exact exitOp_grown s
  | cons m ms ih =>
    have h := serviceMsg_grown m s
    simp only [xferLoop]
    split
    · rename_i t hs
      rw [hs] at h
      exact h.trans (exitOp_grown _)
    · rename_i t hs
      rw [hs] at h
      exact h.trans (ih _)

theorem xferOp_grown (ms : List Msg) (s : State) : Grown s (xferOp ms s) :=
  (startOp_grown s).trans ((xferLoop_grown ms (openLoop (startOp s))).before rfl rfl rfl)

theorem transferOp_grown (cap : CapHandle) (ms : List Msg) (s : State) : Grown s (transferOp cap ms s) := by
  rw [transferOp_eq]
  have h := (xferOp_grown ms s).trans
    (emits_grown (.lockRelease :: if (xferOp ms s).dp.result = ms.length then [] else [.errorCallback cap]) _)
  refine h.after rfl ?_ ?_ <;> split <;> rfl

/-- Every operation that answers a next state only adds to the history. -/
theorem Exec.grown {i : Instr} {s t : State} (h : Exec i s t) : Grown s t := by
  have left : ∀ {op u r}, Grown (enter op s) u → Grown s (leave r u) := fun h => h.congr rfl rfl rfl rfl rfl rfl
  have done : ∀ {op u}, Grown (enter op s) u → Grown s (finish u) := fun h => h.congr rfl rfl rfl rfl rfl rfl
  cases h with
  | start _ => exact done (startOp_grown _)
  | restart _ => exact done (restartOp_grown _)
  | stop _ => exact done (stopOp_grown _)
  | waitAck _ => exact left (waitAckOp_grown _)
  | writeByte _ => exact left (writeByteOp_grown _ _)
  | readByte _ => exact left (readByteOp_grown _)
  | sendAck _ => exact done (sendAckOp_grown _ _)
  | sendAddr _ => exact left (sendAddrOp_grown _ _ _)
  | addrPhase _ _ => exact left (addrPhaseOp_grown _ _)
  | sendBytes _ _ _ => exact left (sendBytesOp_grown _ _)
  | recvBytes _ _ _ => exact left (recvBytesOp_grown _ _)
  | xfer _ _ => exact left (xferOp_grown _ _)
  | api _ h =>
    obtain ⟨-, ⟨-, rfl⟩ | ⟨-, -, rfl⟩⟩ := transfer_next h
    · exact .same rfl rfl rfl
    · exact ((emits_grown [.lockAcquire] (enter i.op s)).before rfl rfl rfl).trans (transferOp_grown _ _ _)

end Sys2Proof.Machine
end

