-- ==== Sys2Proof/Laws/Operands.lean ====
section
/-! SUPPORT. The descriptor checks of R38 in terms of bits and lengths. -/

namespace Sys2Proof.Machine

/-- BAD_FLAGS, bit by bit (R38). -/
theorem badFlags_iff (p : Params) (m : Msg) : badFlags p m = true ↔ ∃ k,
    m.flags.testBit k = true ∧ p.allFlags.testBit k = false := by
  simp only [badFlags, bne_iff_ne, ne_eq]
  constructor
  · intro h
    by_contra hc
    push Not at hc
    apply h
    apply Nat.eq_of_testBit_eq
    intro k
    rw [Nat.testBit_or]
    have := hc k
    cases h1 : m.flags.testBit k <;> cases h2 : p.allFlags.testBit k <;> simp_all
  · rintro ⟨k, h1, h2⟩ h
    have := congrArg (fun x => x.testBit k) h
    simp [Nat.testBit_or, h1, h2] at this

/-- BAD_BUF, spelled out (R38). -/
theorem badBuf_iff (m : Msg) : badBuf m = true ↔ 0 < m.len ∧ (m.buf = none ∨ ∃ b, m.buf = some b ∧ b.size < m.len) :=
    by
  unfold badBuf; cases h : m.buf <;> simp

/-- A list with an ill-formed descriptor is refused for one of the three reasons of R38. -/
theorem checkMsgs_mem {p : Params} {m : Msg} {ms : List Msg} (h : m ∈ ms) (hc : checkMsg p m ≠ none) : ∃ r,
    checkMsgs p ms = some r ∧ (r = .badFlags ∨ r = .badAddr7 ∨ r = .badBuf) := by
  induction ms with
  | nil => simp at h
  | cons x ms ih =>
    have hx : ∀ r, checkMsg p x = some r → (r = .badFlags ∨ r = .badAddr7 ∨ r = .badBuf) := by
      intro r; unfold checkMsg; intro h; split at h; · simp_all
      split at h; · simp_all
      split at h <;> simp_all
    simp only [checkMsgs]
    split
    · exact ⟨_, rfl, hx _ ‹_›⟩
    · rcases List.mem_cons.1 h with rfl | h
      · contradiction
      · exact ih h

end Sys2Proof.Machine
end

