-- ==== Sys2Proof/Laws/PerInstr.lean ====
section
/-! SUPPORT. What holds of the command word of every operation, one lemma per operation. -/

namespace Sys2Proof.Laws.WordShape

/-- The command of an instruction has RSV zero, the operation's OP, a record of the operation's kind, and zero in each of
IMM8 and B that the operation does not use (R79, R84, R85). -/
def Statement (i : Instr) : Prop :=
  cmdRsv (encode i).word = 0#2 ∧ cmdOp (encode i).word = i.op.code ∧ (encode i).record.kind = i.op.recordKind ∧
    (i.op.usesImm = false → cmdImm (encode i).word = 0#8) ∧ (i.op.usesB = false → cmdB (encode i).word = 0#1)

theorem of_instr (i : Instr) : Statement i := by
  cases i <;>
    simp [Statement, encode, Instr.imm, Instr.b, Instr.op, Instr.record, Record.kind, Op.recordKind, Op.usesImm, Op.usesB]

theorem start : Statement .start := of_instr _

theorem restart : Statement .restart := of_instr _

theorem stop : Statement .stop := of_instr _

theorem waitAck : Statement .waitAck := of_instr _

theorem writeByte (byte : Byte) : Statement (.writeByte byte) := of_instr _

theorem readByte : Statement .readByte := of_instr _

theorem sendAckOrNack (ack : Bool) : Statement (.sendAckOrNack ack) := of_instr _

theorem sendAddr (byte : Byte) (rlim : BitVec 1) : Statement (.sendAddr byte rlim) := of_instr _

theorem addrPhase (m : Msg) : Statement (.addrPhase m) := of_instr _

theorem sendBytes (m : Msg) : Statement (.sendBytes m) := of_instr _

theorem recvBytes (m : Msg) : Statement (.recvBytes m) := of_instr _

theorem xfer (ms : List Msg) : Statement (.xfer ms) := of_instr _

theorem transfer (cap : CapHandle) (ms : List Msg) : Statement (.transfer cap ms) := of_instr _

theorem send (cap : CapHandle) (addr flags : Nat) (buf : Option BufRef) (len : Nat) :
    Statement (.send cap addr flags buf len) := of_instr _

theorem recv (cap : CapHandle) (addr flags : Nat) (buf : Option BufRef) (len : Nat) :
    Statement (.recv cap addr flags buf len) := of_instr _

theorem sendThenRecv (cap : CapHandle) (addr : Nat) (tx : Option BufRef) (txlen : Nat) (rx : Option BufRef) (rxlen : Nat) :
    Statement (.sendThenRecv cap addr tx txlen rx rxlen) := of_instr _

theorem sendThenSend (cap : CapHandle) (addr : Nat) (tx1 : Option BufRef) (len1 : Nat) (tx2 : Option BufRef) (len2 : Nat) :
    Statement (.sendThenSend cap addr tx1 len1 tx2 len2) := of_instr _

end Sys2Proof.Laws.WordShape
end

