-- ==== Sys2Proof/Laws/Wire.lean ====
section
/-! SUPPORT. The conditions (R43, R103, R104) that the events of every operation show on the bus. -/

namespace Sys2Proof.Machine

@[simp] theorem conditions_nil (eff p) : conditions eff p [] = [] := rfl

@[simp] theorem conditions_cons (eff p e es) :
    conditions eff p (e :: es) =
      conditionBetween eff ⟨p, true⟩ ⟨e.onPins p, true⟩ ++ conditions eff (e.onPins p) es := rfl

theorem conditions_append (eff p a b) :
    conditions eff p (a ++ b) = conditions eff p a ++ conditions eff (pinsAfter a p) b := by
  induction a generalizing p with
  | nil => simp [pinsAfter]
  | cons e a ih => simp [ih]; rfl

theorem retaken_append {a b : List BusCondition} (ha : retaken a = true) (hb : retaken b = true) :
    retaken (a ++ b) = true := by
  induction a using retaken.induct with
  | case1 => exact hb
  | case2 c ih => exact ih ha
  | case3 => cases ha
  | case4 => cases ha
  | case5 c ih => exact ih ha

/-- Events of the bus and the buffers that, begun with SCL low, put the conditions `c` on the bus and leave SCL low,
whatever DIR_SWITCH_EFFECTIVE is and while the slave releases SDA. -/
structure Shows (es : List Event) (c : List BusCondition) : Prop where
  bus : es.all onBus = true
  scl : ∀ p, p.sclOut = false → (pinsAfter es p).sclOut = false
  conds : ∀ eff p, p.sclOut = false → conditions eff p es = c

theorem Shows.nil : Shows [] [] := ⟨rfl, fun _ h => h, fun _ _ _ => rfl⟩

theorem Shows.append {es fs : List Event} {c d : List BusCondition} (h : Shows es c) (g : Shows fs d) :
    Shows (es ++ fs) (c ++ d) where
  bus := by rw [List.all_append, h.bus, g.bus]; rfl
  scl := fun p hp => by rw [pinsAfter_append]; exact g.scl _ (h.scl p hp)
  conds := fun eff p hp => by rw [conditions_append, h.conds eff p hp, g.conds eff _ (h.scl p hp)]

/-- Events that put no condition on the bus, one group after another. -/
theorem Shows.flatMap {α : Type} {l : List α} {f : α → List Event} (h : ∀ x ∈ l, Shows (f x) []) : Shows (l.flatMap f) [] := by
  induction l with
  | nil => exact Shows.nil
  | cons x l ih =>
    rw [List.flatMap_cons]
    exact (h x (by simp)).append (ih fun y hy => h y (by simp [hy]))

/-- A statement about pins with SCL low, said case by case. -/
theorem forall_low {P : Pins → Prop} (h : ∀ o d, P ⟨false, o, d⟩) (p : Pins) (hp : p.sclOut = false) : P p := by
  obtain ⟨c, o, d⟩ := p
  cases hp
  exact h o d

theorem Shows.restart (h : Nat) : Shows (restartEvents h) [.startCondition] where
  bus := rfl
  scl := fun _ _ => rfl
  conds := fun eff => forall_low fun o d => by cases eff <;> cases o <;> cases d <;> rfl

theorem Shows.retry (us : Nat) : Shows (retryEvents us) [.stopCondition, .startCondition] where
  bus := rfl
  scl := fun _ _ => rfl
  conds := fun eff => forall_low fun o d => by cases eff <;> cases o <;> cases d <;> rfl

theorem Shows.waitAck (v : Level) : Shows (waitAckEvents v) [] where
  bus := rfl
  scl := fun _ _ => rfl
  conds := fun eff => forall_low fun o d => by cases v <;> cases eff <;> cases o <;> cases d <;> rfl

theorem Shows.sendAck (h : Nat) (a : Bool) : Shows (sendAckEvents h a) [] where
  bus := by cases a <;> rfl
  scl := fun _ _ => by cases a <;> rfl
  conds := fun eff => forall_low fun o d => by cases a <;> cases eff <;> cases o <;> cases d <;> rfl

theorem Shows.memRead (a : Nat) (v : Byte) : Shows [.memRead a v] [] where
  bus := rfl
  scl := fun _ hp => hp
  conds := fun _ => forall_low fun _ _ => rfl

theorem Shows.memWrite (a : Nat) (v : Byte) : Shows [.memWrite a v] [] where
  bus := rfl
  scl := fun _ hp => hp
  conds := fun _ => forall_low fun _ _ => rfl

/-- The eight data clocks of WRITE_BYTE leave SCL high and SDA an output. -/
theorem bitOut_conditions (eff : Bool) (h : Nat) (vs : List Level) (p : Pins) (hp : p.sdaDir = .out) :
    conditions eff p (vs.flatMap (bitOutEvents h)) = [] ∧ (pinsAfter (vs.flatMap (bitOutEvents h)) p).sdaDir = .out := by
  induction vs generalizing p with
  | nil => exact ⟨rfl, hp⟩
  | cons v vs ih =>
    obtain ⟨c, o, d⟩ := p
    cases hp
    have h1 : conditions eff ⟨c, o, .out⟩ (bitOutEvents h v) = [] := by
      cases eff <;> cases v <;> cases c <;> cases o <;> rfl
    rw [List.flatMap_cons, conditions_append, pinsAfter_append, h1]
    exact ih _ rfl

theorem Shows.writeByte (h : Nat) (b : Byte) (v : Level) : Shows (writeByteEvents h b v) [] where
  bus := rfl
  scl := fun _ _ => rfl
  conds := fun eff => forall_low fun o d => by
    obtain ⟨h1, h2⟩ := bitOut_conditions eff h (msbFirst b) ⟨false, o, .out⟩ rfl
    have h3 : conditions eff ⟨false, o, d⟩ [.sdaDirOut] = [] := by cases eff <;> cases o <;> cases d <;> rfl
    rw [writeByteEvents, show ∀ (e : Event) l, e :: l = [e] ++ l from fun _ _ => rfl, conditions_append,
      show pinsAfter [.sdaDirOut] ⟨false, o, d⟩ = ⟨false, o, .out⟩ from rfl, conditions_append, h1, h3]
    generalize pinsAfter ((msbFirst b).flatMap (bitOutEvents h)) ⟨false, o, .out⟩ = p at h2 ⊢
    obtain ⟨x, y, z⟩ := p
    cases h2
    cases v <;> cases eff <;> cases x <;> cases y <;> rfl

theorem Shows.readByte (us : Nat) (vs : List Level) : Shows (readByteEvents us vs) [] := by
  have h1 : Shows [.sdaDirIn, .sdaSet true] [] :=
    ⟨rfl, fun _ hp => hp, fun eff => forall_low fun o d => by cases eff <;> cases o <;> cases d <;> rfl⟩
  have h2 : Shows (vs.flatMap (bitInEvents us)) [] := Shows.flatMap fun v _ =>
    ⟨rfl, fun _ _ => rfl, fun eff => forall_low fun o d => by cases v <;> cases eff <;> cases o <;> cases d <;> rfl⟩
  exact h1.append h2

/-- STOP, while SCL is low, makes one STOP condition (R104). -/
theorem stop_conditions (eff) (p : Pins) (us) (h : p.sclOut = false) :
    conditions eff p (stopEvents us) = [.stopCondition] :=
  forall_low (P := fun p => conditions eff p (stopEvents us) = [.stopCondition])
    (fun o d => by cases eff <;> cases o <;> cases d <;> rfl) p h

/-! ### The ledger -/

/-- What a stretch of a transaction shows: every STOP condition is a retry's, retaken at once, and the START conditions are
the retries' and the RESTARTs' (R153). -/
structure Leg.Shown (x : Leg) (c : List BusCondition) : Prop where
  shows : Shows x.events c
  retaken : retaken c = true
  stops : c.count .stopCondition = x.retries
  starts : c.count .startCondition = x.retries + x.restarts

/-- Every stretch a run can come to is shown. -/
def Run.Shown (a : Run) : Prop := ∀ k, ∃ c, (a k).Shown c

theorem Run.nil_shown : Run.nil.Shown := fun _ => ⟨[], Shows.nil, rfl, rfl, rfl⟩

theorem Run.andThen_shown {a b : Run} (ha : a.Shown) (hb : b.Shown) : (a.andThen b).Shown := by
  intro k
  obtain ⟨c, h1⟩ := ha k
  cases ho : (a k).ok
  · rw [Run.andThen_stop ho]; exact ⟨c, h1⟩
  · obtain ⟨d, h2⟩ := hb (k + (a k).answers)
    rw [Run.andThen_ok ho]
    exact ⟨c ++ d, h1.shows.append h2.shows, retaken_append h1.retaken h2.retaken,
      by simp [h1.stops, h2.stops], by simp [h1.starts, h2.starts]; omega⟩

theorem restartRun_shown (s : State) : (restartRun s).Shown := fun _ => ⟨_, Shows.restart _, rfl, rfl, rfl⟩

theorem directByteRun_shown (s : State) (m : Msg) (b : Byte) : (directByteRun s m b).Shown := fun _ =>
  ⟨_, Shows.writeByte _ _ _, rfl, rfl, rfl⟩

theorem sendAddrRun_shown (s : State) (m : Msg) (b : Byte) : (sendAddrRun s m b).Shown := by
  intro k
  unfold sendAddrRun sendAddrEvents
  cases h : retried (retryLimit s.par m) (answerAt s k)
  · refine ⟨[], ?_, rfl, by simp [h], by simp [h]⟩
    simp only [h, Bool.false_eq_true, if_false]
    exact Shows.writeByte _ _ _
  · refine ⟨[.stopCondition, .startCondition], ?_, rfl, by simp [h], by simp [h]⟩
    simp only [h, if_true]
    exact (Shows.writeByte _ _ _).append ((Shows.retry _).append (Shows.writeByte _ _ _))

theorem addressRun_shown (s : State) (first : Bool) (m : Msg) : (addressRun s first m).Shown := by
  have h : (addrPhaseRun s m).Shown := by
    unfold addrPhaseRun
    split
    · refine Run.andThen_shown (sendAddrRun_shown _ _ _) (Run.andThen_shown (directByteRun_shown _ _ _) ?_)
      split
      · exact Run.andThen_shown (restartRun_shown _) (sendAddrRun_shown _ _ _)
      · exact Run.nil_shown
    · exact sendAddrRun_shown _ _ _
  unfold addressRun
  split
  · exact Run.nil_shown
  · split
    · exact h
    · exact Run.andThen_shown (restartRun_shown _) h

theorem dataRun_shown (s : State) (mem : Memory) (m : Msg) : (dataRun s mem m).Shown := by
  intro k
  unfold dataRun
  cases hr : isRead s.par m
  · exact ⟨[], Shows.flatMap fun j _ => (Shows.memRead _ _).append (Shows.writeByte _ _ _), rfl, rfl, rfl⟩
  · refine ⟨[], ?_, rfl, rfl, rfl⟩
    simp only [if_true, ackedData, hr]
    have hack : ∀ j, Shows (if noReadAck s.par m then [] else sendAckEvents (half s.us) (decide (j < m.len - 1))) [] := by
      intro j
      split
      · exact Shows.nil
      · exact Shows.sendAck _ _
    exact Shows.flatMap fun j _ => (Shows.readByte _ _).append ((Shows.memWrite _ _).append (hack j))

theorem messageRun_shown (s : State) (mem : Memory) (first : Bool) (m : Msg) : (messageRun s mem first m).Shown :=
  Run.andThen_shown (addressRun_shown _ _ _) (dataRun_shown _ _ _)

/-- What the message loop shows (R129, R153). -/
theorem xferRun_shown (s : State) (ms : List Msg) (k : Nat) (first : Bool) (mem : Memory) :
    ∃ c, Shows (xferRun s k first mem ms).events c ∧ retaken c = true ∧
      c.count .stopCondition = (xferRun s k first mem ms).retries ∧
      c.count .startCondition = (xferRun s k first mem ms).retries + (xferRun s k first mem ms).restarts := by
  induction ms generalizing k first mem with
  | nil => exact ⟨[], Shows.nil, rfl, rfl, rfl⟩
  | cons m ms ih =>
    obtain ⟨c, h⟩ := messageRun_shown s mem first m k
    simp only [xferRun]
    split
    · obtain ⟨d, e1, e2, e3, e4⟩ := ih (k + (messageRun s mem first m k).answers) false (messageMem s mem first m k)
      exact ⟨c ++ d, h.shows.append e1, retaken_append h.retaken e2, by simp [h.stops, e3], by simp [h.starts, e4]; omega⟩
    · exact ⟨c, h.shows, h.retaken, h.stops, h.starts⟩

/-- Conditions without a STOP are all STARTs. -/
theorem conditions_all_starts {c : List BusCondition} (h : c.count .stopCondition = 0) :
    c = List.replicate (c.count .startCondition) .startCondition := by
  induction c with
  | nil => rfl
  | cons x c ih =>
    cases x
    · rw [List.count_cons_self, List.replicate_succ, ← ih (by simpa [List.count_cons] using h)]
    · simp at h

/-- The whole of an XFER, from the idle levels (R151, R153). -/
theorem xfer_conditions (eff : Bool) (s : State) (ms : List Msg) :
    ∃ c, retaken c = true ∧ c.count .stopCondition = (xferRun s 0 true s.mem ms).retries ∧
      c.count .startCondition = (xferRun s 0 true s.mem ms).retries + (xferRun s 0 true s.mem ms).restarts ∧
      conditions eff Pins.reset (startEvents (half s.us) ++ (xferRun s 0 true s.mem ms).events ++ stopEvents s.us) =
        .startCondition :: (c ++ [.stopCondition]) := by
  obtain ⟨c, h1, h2, h3, h4⟩ := xferRun_shown s ms 0 true s.mem
  refine ⟨c, h2, h3, h4, ?_⟩
  rw [conditions_append, conditions_append, pinsAfter_append]
  have h0 : (pinsAfter (startEvents (half s.us)) Pins.reset).sclOut = false := rfl
  have h5 : conditions eff Pins.reset (startEvents (half s.us)) = [.startCondition] := by cases eff <;> rfl
  rw [h1.conds eff _ h0, stop_conditions _ _ _ (h1.scl _ h0), h5]
  rfl

end Sys2Proof.Machine
end

