-- ==== Sys2Proof/Tests/Slice0.lean ====
section
/-! SUPPORT. Tests of the model against spec/95_test_vectors.md and the worked words of spec/30_encoding.md, and a
witness for the hypotheses of every statement. Each expected value is the spec's, written out from the vector or rule
named beside it. `US` is 5 and `HALF` 3, as there. -/

namespace Sys2Proof.Tests

open Sys2Proof Sys2Proof.Machine

set_option Elab.async false

/-! ### Helpers -/

/-- The state of a primitive vector: the bus held, SCL low, and the answers of the oracle. -/
def held (oracle : List Level) : State :=
  { State.reset with bus := .busHeld, pins := { sclOut := false, sdaOut := true, sdaDir := .out }, sdaIn := oracle }

/-- The reset state with the answers of the oracle. -/
def idle (oracle : List Level) : State := { State.reset with sdaIn := oracle }

/-- With buffer bytes, listed in rising order of address. -/
def withMem (mem : Memory) (s : State) : State := { s with mem := mem }

/-- What of a next state a test looks at. -/
def seen {α : Type} (f : State → α) (o : Host.Outcome State Fault Refusal) : Option α :=
  match o with
  | .next t => some (f t)
  | .fault _ => none
  | .refused _ => none

/-- The reason of a refusal, and whether the refused state is the given one with REFUSED set. -/
def refusedBy (s : State) (o : Host.Outcome State Fault Refusal) : Option Reason :=
  match o with
  | .next _ => none
  | .fault _ => none
  | .refused (.refuse why t) => if t = { s with refused := true } then some why else none
  | .refused (.notCreated why) => some why
  | .refused _ => none

/-- The compact trace notation of R12, for `US = 5`. -/
def so : Event := .sdaDirOut
def si : Event := .sdaDirIn
def d0 : Event := .sdaSet false
def d1 : Event := .sdaSet true
def c0 : Event := .sclSet false
def c1 : Event := .sclSet true
def w3 : Event := .delay 3
def w5 : Event := .delay 5
def g0 : Event := .getSda false
def g1 : Event := .getSda true

/-- `S`, `Sr`, `P`, `ACK`, `NACK` (T-SS-1 to T-SS-3, T-BS-10, T-BS-11). -/
def evS : List Event := [so, d0, w3, c0]
def evSr : List Event := [so, d1, c1, d0, w3, c0]
def evP : List Event := [so, d0, c1, d1, w5]
def evAck : List Event := [so, d0, w3, c1, c0]
def evNack : List Event := [so, w3, c1, c0]

/-- `WB(v)->A` and `WB(v)->N`, from the text of T-BS-3 and T-BS-5. -/
def wb (v : Byte) (nack : Level) : List Event :=
  so :: ([7, 6, 5, 4, 3, 2, 1, 0].flatMap fun k => [c0, .sdaSet (v.getLsbD k), w3, c1, w3]) ++
    [c0, w3, si, d1, c1, .getSda nack, c0]

/-- The bits of a byte sent by the slave, most significant first (R31). -/
def bits (v : Byte) : List Level := [7, 6, 5, 4, 3, 2, 1, 0].map fun k => v.getLsbD k

/-- `RB->v` (T-BS-7). -/
def rb (v : Byte) : List Event := [si, d1] ++ (bits v).flatMap fun x => [c1, .getSda x, c0, w5]

/-- A buffer of `n` bytes from address `a`. -/
def buf (a n : Nat) : Option BufRef := some { base := a, size := n }

/-- Descriptors: WRITE is 0, READ 1, ADDR_10BIT 4, NO_START 0x10, IGNORE_NACK 0x20, NO_READ_ACK 0x40 (R7). -/
def wrMsg (addr : Nat) (b : Option BufRef) (len : Nat) : Msg := { addr := addr, flags := 0, len := len, buf := b }
def flMsg (addr flags : Nat) (b : Option BufRef) (len : Nat) : Msg := { addr := addr, flags := flags, len := len, buf := b }

/-! ### WellFormed: each check refuses an ill-formed term (R78) -/

/-- The defaults with a 2-bit message count, so that a list of four is too long. -/
def smallCount : Params := { Params.default with countWidth := 2 }

theorem test_wf_refuses_addr : Instr.wf .default (.addrPhase (wrMsg 0x10000 none 0)) = false := by decide +kernel
theorem test_wf_refuses_flags : Instr.wf .default (.sendBytes (flMsg 0 0x10000 none 0)) = false := by decide +kernel
theorem test_wf_refuses_len : Instr.wf .default (.recvBytes (flMsg 0 1 (buf 0 0x10000) 0x10000)) = false := by decide +kernel
theorem test_wf_refuses_list_element :
    Instr.wf .default (.xfer [wrMsg 0 none 0, wrMsg 0x10000 none 0]) = false := by decide +kernel
theorem test_wf_refuses_list_count :
    Instr.wf smallCount (.xfer (List.replicate 4 (wrMsg 0 none 0))) = false ∧
      Instr.wf smallCount (.transfer 0 (List.replicate 4 (wrMsg 0 none 0))) = false ∧
      Instr.wf smallCount (.xfer (List.replicate 3 (wrMsg 0 none 0))) = true := by decide +kernel
theorem test_wf_refuses_single :
    Instr.wf .default (.send 0 0x10000 0 none 0) = false ∧ Instr.wf .default (.send 0 0 0x10000 none 0) = false ∧
      Instr.wf .default (.send 0 0 0 none 0x10000) = false ∧ Instr.wf .default (.recv 0 0x10000 0 none 0) = false ∧
      Instr.wf .default (.recv 0 0 0x10000 none 0) = false ∧ Instr.wf .default (.recv 0 0 0 none 0x10000) = false := by
  decide +kernel
theorem test_wf_refuses_pair :
    Instr.wf .default (.sendThenRecv 0 0x10000 none 0 none 0) = false ∧
      Instr.wf .default (.sendThenRecv 0 0 none 0x10000 none 0) = false ∧
      Instr.wf .default (.sendThenRecv 0 0 none 0 none 0x10000) = false ∧
      Instr.wf .default (.sendThenSend 0 0x10000 none 0 none 0) = false ∧
      Instr.wf .default (.sendThenSend 0 0 none 0x10000 none 0) = false ∧
      Instr.wf .default (.sendThenSend 0 0 none 0 none 0x10000) = false := by decide +kernel
theorem test_wf_accepts_bounds :
    Instr.wf .default (.transfer 7 [flMsg 0xFFFF 0xFFFF (buf 0 1) 0xFFFF]) = true ∧
      Params.wf .default = true ∧ Params.wf { Params.default with addrWidth := 9 } = false ∧
      Params.wf { Params.default with flagsWidth := 6 } = false ∧
      Params.wf { Params.default with countWidth := 1 } = false ∧
      Params.wf { Params.default with flagRead := 3 } = false ∧
      Params.wf { Params.default with flagRead := 4 } = false := by decide +kernel

/-! ### Decoding: words written out from R79, R84, R89 and 95_test_vectors.md 2.11 -/

theorem test_decode_start : decode .default ⟨0b0000000000000001#16, .none⟩ = .ok .start := rfl
theorem test_decode_restart : decode .default ⟨0b0000000000000010#16, .none⟩ = .ok .restart := rfl
theorem test_decode_stop : decode .default ⟨0b0000000000000011#16, .none⟩ = .ok .stop := rfl
theorem test_decode_wait_ack : decode .default ⟨0b0000000000000100#16, .none⟩ = .ok .waitAck := rfl
theorem test_decode_write_byte :
    decode .default ⟨0b1010000000000101#16, .none⟩ = .ok (.writeByte 0xA0#8) ∧
      decode .default ⟨0b0000000100000101#16, .none⟩ = .ok (.writeByte 0x01#8) := ⟨rfl, rfl⟩
theorem test_decode_read_byte : decode .default ⟨0b0000000000000110#16, .none⟩ = .ok .readByte := rfl
theorem test_decode_send_ack :
    decode .default ⟨0b0000000000100111#16, .none⟩ = .ok (.sendAckOrNack true) ∧
      decode .default ⟨0b0000000000000111#16, .none⟩ = .ok (.sendAckOrNack false) := ⟨rfl, rfl⟩
theorem test_decode_send_addr :
    decode .default ⟨0b1010000000101000#16, .none⟩ = .ok (.sendAddr 0xA0#8 1#1) ∧
      decode .default ⟨0b0100000100001000#16, .none⟩ = .ok (.sendAddr 0x41#8 0#1) ∧
      decode .default ⟨0xFF28#16, .none⟩ = .ok (.sendAddr 0xFF#8 1#1) := ⟨rfl, rfl, rfl⟩
theorem test_decode_addr_phase :
    decode .default ⟨0b0000000000001001#16, .msg (wrMsg 0x50 none 0)⟩ = .ok (.addrPhase (wrMsg 0x50 none 0)) := rfl
theorem test_decode_send_bytes :
    decode .default ⟨0b0000000000001010#16, .msg (wrMsg 0x50 none 0)⟩ = .ok (.sendBytes (wrMsg 0x50 none 0)) := rfl
theorem test_decode_recv_bytes :
    decode .default ⟨0b0000000000001011#16, .msg (flMsg 0x50 1 none 0)⟩ = .ok (.recvBytes (flMsg 0x50 1 none 0)) := rfl
theorem test_decode_xfer :
    decode .default ⟨0b0000000000001100#16, .list [wrMsg 1 none 0, wrMsg 2 none 0]⟩ =
      .ok (.xfer [wrMsg 1 none 0, wrMsg 2 none 0]) := rfl
theorem test_decode_transfer :
    decode .default ⟨0b0000000000001101#16, .xfer 9 [wrMsg 1 none 0]⟩ = .ok (.transfer 9 [wrMsg 1 none 0]) := rfl
theorem test_decode_send :
    decode .default ⟨0b0000000000001110#16, .single 9 0x50 0x20 (buf 8 3) 3⟩ = .ok (.send 9 0x50 0x20 (buf 8 3) 3) := rfl
theorem test_decode_recv :
    decode .default ⟨0b0000000000001111#16, .single 9 0x150 4 (buf 8 1) 1⟩ = .ok (.recv 9 0x150 4 (buf 8 1) 1) := rfl
theorem test_decode_send_then_recv :
    decode .default ⟨0b0000000000010000#16, .wrRd 9 0x20 (buf 8 1) 1 (buf 16 2) 2⟩ =
      .ok (.sendThenRecv 9 0x20 (buf 8 1) 1 (buf 16 2) 2) := rfl
theorem test_decode_send_then_send :
    decode .default ⟨0b0000000000010001#16, .wrWr 9 0x50 (buf 8 1) 1 (buf 16 2) 2⟩ =
      .ok (.sendThenSend 9 0x50 (buf 8 1) 1 (buf 16 2) 2) := rfl

/-- T-DEC-9 to T-DEC-21, and an operand out of range (log entry 12). -/
theorem test_decode_refuses :
    decode .default ⟨0x0025#16, .none⟩ = .error .bNonzero ∧
    decode .default ⟨0x0101#16, .none⟩ = .error .immNonzero ∧
    decode .default ⟨0x00C1#16, .none⟩ = .error .rsvNonzero ∧
    decode .default ⟨0x0041#16, .none⟩ = .error .rsvNonzero ∧
    decode .default ⟨0x0000#16, .none⟩ = .error .illegalOp ∧
    decode .default ⟨0x0012#16, .none⟩ = .error .illegalOp ∧
    decode .default ⟨0x001F#16, .none⟩ = .error .illegalOp ∧
    decode .default ⟨0x0020#16, .none⟩ = .error .illegalOp ∧
    decode .default ⟨0x0031#16, .wrWr 0 0 none 0 none 0⟩ = .error .bNonzero ∧
    decode .default ⟨0x0011#16, .msg (wrMsg 0 none 0)⟩ = .error .badOperands ∧
    decode .default ⟨0x000C#16, .none⟩ = .error .badOperands ∧
    decode .default ⟨0x0001#16, .msg (wrMsg 0 none 0)⟩ = .error .badOperands ∧
    decode .default ⟨0x0009#16, .msg (wrMsg 0x10000 none 0)⟩ = .error .operandRange :=
  ⟨rfl, rfl, rfl, rfl, rfl, rfl, rfl, rfl, rfl, rfl, rfl, rfl, rfl⟩

/-- The words of the host's interface: START's row, the list row with its zero record, and a row no word has. -/
theorem test_decode_table_word :
    decodeTableWord 16 0x0001 = some .start ∧ decodeTableWord 16 0x000C = some (.xfer []) ∧
      decodeTableWord 16 0x0012 = none ∧ decodeTableWord 32 0x0001 = none := ⟨rfl, rfl, rfl, rfl⟩

/-- The first step after reset with a word placed runs it: `L+ S P L-` of T-TR-2, and START of T-SS-1. -/
theorem test_step_runs_the_word :
    seen (·.trace) (step (State.reset.withFetchWord 16 0x000D)) = some (.lockAcquire :: evS ++ evP ++ [.lockRelease]) ∧
      seen (fun t => (t.trace, t.port)) (step (State.reset.withFetchWord 16 0x0001)) = some (evS, []) := by decide +kernel

/-! ### i2c_start_stop_ctrl (2.1, 2.2) -/

theorem test_half : [0, 1, 2, 3, 4, 5, 7, 10, 100].map half = [0, 1, 1, 2, 2, 3, 4, 5, 50] := by decide +kernel

/-- The boot of R203 with every duty done. -/
def booted (us : Nat) : Boot :=
  { capabilitySet := true, delayUnit := some us, mutex := true, linesIdle := true, errorCallback := true }

/-- T-HALF-10, T-HALF-11, and a boot that is not finished (R203). -/
theorem test_create :
    seen (·.us) (createBlock .default 0 (booted (2 ^ 32 - 2))) = some (2 ^ 32 - 2) ∧
      refusedBy State.reset (createBlock .default 0 (booted (2 ^ 32 - 1))) = some .badUs ∧
      refusedBy State.reset (createBlock .default 0 { booted 5 with mutex := false }) = some .bootIncomplete ∧
      refusedBy State.reset (createBlock .default 0 { booted 5 with delayUnit := none }) = some .bootIncomplete := by
  decide +kernel

/-- T-SS-1. -/
theorem test_start :
    seen (fun t => (t.trace, t.bus, t.pins, t.seq, t.results)) (exec .start State.reset) =
      some ([so, d0, w3, c0], .busHeld, { sclOut := false, sdaOut := false, sdaDir := .out }, .ready, []) := by decide +kernel
/-- T-SS-7. -/
theorem test_start_held : refusedBy (held []) (exec .start (held [])) = some .busState := by decide +kernel
/-- T-SS-2. -/
theorem test_restart :
    seen (fun t => (t.trace, t.bus, t.pins)) (exec .restart (held [])) =
      some ([so, d1, c1, d0, w3, c0], .busHeld, { sclOut := false, sdaOut := false, sdaDir := .out }) := by decide +kernel
/-- T-SS-9. -/
theorem test_restart_idle : refusedBy State.reset (exec .restart State.reset) = some .busState := by decide +kernel
/-- T-SS-3. -/
theorem test_stop :
    seen (fun t => (t.trace, t.bus, t.pins)) (exec .stop (held [])) =
      some ([so, d0, c1, d1, w5], .idle, { sclOut := true, sdaOut := true, sdaDir := .out }) := by decide +kernel
/-- T-SS-8. -/
theorem test_stop_idle : refusedBy State.reset (exec .stop State.reset) = some .busState := by decide +kernel

/-! ### i2c_byte_shift_engine (2.3) -/

/-- T-BS-1. -/
theorem test_wait_ack :
    seen (fun t => (t.trace, t.results, t.dp.ackf, t.pins)) (exec .waitAck (held [false])) =
      some ([si, d1, c1, g0, c0], [.flag true], true, { sclOut := false, sdaOut := true, sdaDir := .input }) := by decide +kernel
/-- T-BS-2. -/
theorem test_wait_ack_nack :
    seen (fun t => (t.trace, t.results, t.dp.ackf)) (exec .waitAck (held [true])) =
      some ([si, d1, c1, g1, c0], [.flag false], false) := by decide +kernel
/-- T-BS-5, in full. -/
theorem test_write_byte :
    seen (fun t => (t.trace, t.results)) (exec (.writeByte 0xA5#8) (held [false])) =
      some ([so, c0, d1, w3, c1, w3, c0, d0, w3, c1, w3, c0, d1, w3, c1, w3, c0, d0, w3, c1, w3, c0, d0, w3, c1, w3,
        c0, d1, w3, c1, w3, c0, d0, w3, c1, w3, c0, d1, w3, c1, w3, c0, w3, si, d1, c1, g0, c0], [.flag true]) := by
  decide +kernel
/-- T-BS-13. -/
theorem test_write_byte_idle : refusedBy State.reset (exec (.writeByte 0x55#8) State.reset) = some .busState := by decide +kernel
/-- T-BS-7. -/
theorem test_read_byte :
    seen (fun t => (t.trace, t.results, t.dp.ackf, t.pins))
        (exec .readByte (held [true, false, true, false, true, false, true, false])) =
      some ([si, d1, c1, g1, c0, w5, c1, g0, c0, w5, c1, g1, c0, w5, c1, g0, c0, w5, c1, g1, c0, w5, c1, g0, c0, w5,
        c1, g1, c0, w5, c1, g0, c0, w5], [.byte 0xAA#8], false, { sclOut := false, sdaOut := true, sdaDir := .input }) := by
  decide +kernel
/-- T-BS-10. -/
theorem test_send_ack :
    seen (fun t => (t.trace, t.pins)) (exec (.sendAckOrNack true) (held [])) =
      some ([so, d0, w3, c1, c0], { sclOut := false, sdaOut := false, sdaDir := .out }) := by decide +kernel
/-- T-BS-11 and T-BS-12: a NACK leaves the latch as it finds it. -/
theorem test_send_nack :
    seen (fun t => (t.trace, t.pins.sdaOut)) (exec (.sendAckOrNack false) (held [])) =
        some ([so, w3, c1, c0], true) ∧
      seen (fun t => (t.trace, t.pins.sdaOut))
          (exec (.sendAckOrNack false) { held [] with pins := { sclOut := false, sdaOut := false, sdaDir := .out } }) =
        some ([so, w3, c1, c0], false) := by decide +kernel

/-! ### i2c_address_phase_handler (2.4 to 2.6) -/

/-- T-SA-3: 106 events, the bus held at the end. -/
theorem test_send_addr_retry :
    seen (fun t => (t.trace, t.results, t.bus)) (exec (.sendAddr 0xA0#8 1#1) (held [true, false])) =
        some (wb 0xA0#8 true ++ evP ++ [w5] ++ evS ++ wb 0xA0#8 false, [.flag true], .busHeld) ∧
      seen (fun t => t.trace.length) (exec (.sendAddr 0xA0#8 1#1) (held [true, false])) = some 106 := by decide +kernel
/-- T-SA-2. -/
theorem test_send_addr_no_retry :
    seen (fun t => (t.trace, t.results)) (exec (.sendAddr 0xA0#8 0#1) (held [true])) =
      some (wb 0xA0#8 true, [.flag false]) := by decide +kernel

/-- T-AE-1 to T-AE-4 and T-AE-13. -/
theorem test_addr_bytes_7bit :
    [wrMsg 0x50 none 0, flMsg 0x50 1 none 0, wrMsg 0 none 0, flMsg 0 1 none 0, wrMsg 0x7F none 0, flMsg 0x7F 1 none 0,
        wrMsg 0x78 none 0].map (addrByte7 .default) =
      [0xA0#8, 0xA1#8, 0x00#8, 0x01#8, 0xFE#8, 0xFF#8, 0xF0#8] := by decide +kernel
/-- T-AE-5 to T-AE-11. -/
theorem test_addr_bytes_10bit :
    [0x150, 0x000, 0x080, 0x100, 0x2AB, 0x3FF, 0x7FF].map
        (fun a => (addrByteHi (flMsg a 4 none 0), addrByteLo (flMsg a 4 none 0))) =
      [(0xF2#8, 0x50#8), (0xF0#8, 0x00#8), (0xF0#8, 0x80#8), (0xF2#8, 0x00#8), (0xF4#8, 0xAB#8), (0xF6#8, 0xFF#8),
        (0xF6#8, 0xFF#8)] := by decide +kernel

/-- T-AP-4. -/
theorem test_addr_phase_10bit_read :
    seen (fun t => (t.trace, t.results)) (exec (.addrPhase (flMsg 0x150 5 none 0)) (held [false, false, false])) =
      some (wb 0xF2#8 false ++ wb 0x50#8 false ++ evSr ++ wb 0xF3#8 false, [.flag true]) := by decide +kernel
/-- T-AP-6 (no retry with IGNORE_NACK), T-AP-9 (the second byte is not retried) and T-AP-13. -/
theorem test_addr_phase_nack :
    seen (fun t => (t.trace, t.results)) (exec (.addrPhase (flMsg 0x50 0x20 none 0)) (held [true])) =
        some (wb 0xA0#8 true, [.flag true]) ∧
      seen (fun t => (t.trace, t.results)) (exec (.addrPhase (flMsg 0x150 4 none 0)) (held [false, true])) =
        some (wb 0xF2#8 false ++ wb 0x50#8 true, [.flag false]) ∧
      refusedBy (held []) (exec (.addrPhase (flMsg 0x50 2 none 0)) (held [])) = some .badFlags := by decide +kernel

/-! ### The data phases (2.7, 2.8) -/

/-- `tx = [1, 2, 3]` at address 0x100. -/
def txMem : Memory := [(0x100, 1#8), (0x101, 2#8), (0x102, 3#8)]

/-- T-SB-2: `tx+2` is not read. -/
theorem test_send_bytes_nack :
    seen (fun t => (t.trace, t.results)) (exec (.sendBytes (wrMsg 0x50 (buf 0x100 3) 3)) (withMem txMem (held [false, true]))) =
      some (.memRead 0x100 1#8 :: wb 1#8 false ++ (.memRead 0x101 2#8 :: wb 2#8 true), [.count 1]) := by decide +kernel
/-- T-SB-3 (IGNORE_NACK sends all), T-SB-4, T-SB-5 and T-SB-6. -/
theorem test_send_bytes_forms :
    seen (fun t => (t.results, callCount t.trace))
        (exec (.sendBytes (flMsg 0x50 0x20 (buf 0x100 3) 3)) (withMem txMem (held [true, true, true]))) =
        some ([.count 3], 144) ∧
      seen (fun t => (t.trace, t.results)) (exec (.sendBytes (wrMsg 0x50 none 0)) (held [])) = some ([], [.count 0]) ∧
      refusedBy (held []) (exec (.sendBytes (flMsg 0x50 1 (buf 0 1) 1)) (held [])) = some .dirMismatch ∧
      refusedBy (held []) (exec (.sendBytes (wrMsg 0x50 none 2)) (held [])) = some .badBuf := by decide +kernel

/-- T-RB-2, with its buffer at 0x200: stored before the acknowledge, NACK after the last. -/
theorem test_recv_bytes :
    seen (fun t => (t.trace, t.results, t.mem))
        (exec (.recvBytes (flMsg 0x20 1 (buf 0x200 3) 3)) (held (bits 1#8 ++ bits 2#8 ++ bits 3#8))) =
      some (rb 1#8 ++ [.memWrite 0x200 1#8] ++ evAck ++ rb 2#8 ++ [.memWrite 0x201 2#8] ++ evAck ++ rb 3#8 ++
        [.memWrite 0x202 3#8] ++ evNack, [.count 3], [(0x200, 1#8), (0x201, 2#8), (0x202, 3#8)]) := by decide +kernel
/-- T-RB-3 (NO_READ_ACK) and T-RB-6. -/
theorem test_recv_bytes_forms :
    seen (fun t => (t.trace, t.results)) (exec (.recvBytes (flMsg 0x20 0x41 (buf 0x200 2) 2)) (held (bits 0xAA#8 ++ bits 0x55#8))) =
        some (rb 0xAA#8 ++ [.memWrite 0x200 0xAA#8] ++ rb 0x55#8 ++ [.memWrite 0x201 0x55#8], [.count 2]) ∧
      refusedBy (held []) (exec (.recvBytes (wrMsg 0x20 (buf 0x200 1) 1)) (held [])) = some .dirMismatch := by decide +kernel

/-! ### XFER (2.9) -/

/-- T-XF-7: the retry resumes with message 1's address byte only. -/
theorem test_xfer_retry :
    seen (fun t => (t.trace, t.results, t.bus, t.eng))
        (exec (.xfer [wrMsg 0x50 (buf 0x100 1) 1, wrMsg 0x51 (buf 0x101 1) 1])
          (withMem txMem (idle [false, false, true, false, false]))) =
      some (evS ++ wb 0xA0#8 false ++ (.memRead 0x100 1#8 :: wb 1#8 false) ++ evSr ++ wb 0xA2#8 true ++ evP ++ [w5] ++
        evS ++ wb 0xA2#8 false ++ (.memRead 0x101 2#8 :: wb 2#8 false) ++ evP, [.count 2], .idle, .idle) := by decide +kernel
/-- T-XF-3 (NO_START on message 0), T-XF-4 (a short second message) and T-XF-10. -/
theorem test_xfer_forms :
    seen (fun t => (t.trace, t.results)) (exec (.xfer [flMsg 0x50 0x10 (buf 0x100 1) 1]) (withMem txMem (idle [false]))) =
        some (evS ++ (.memRead 0x100 1#8 :: wb 1#8 false) ++ evP, [.count 1]) ∧
      seen (fun t => (t.results, callCount t.trace)) (exec (.xfer [wrMsg 0x50 (buf 0x100 1) 1, wrMsg 0x50 (buf 0x101 2) 2])
          (withMem txMem (idle [false, false, false, true]))) = some ([.count 1], 207) ∧
      refusedBy State.reset (exec (.xfer [wrMsg 0x50 (buf 0 1) 1, wrMsg 0x90 (buf 1 1) 1]) State.reset) =
        some .badAddr7 := by decide +kernel

/-! ### TRANSFER and the wrappers (2.10, programs of section 3) -/

/-- T-TR-1. -/
theorem test_transfer_callback :
    seen (fun t => (t.trace, t.results, t.locked)) (exec (.transfer 7 [wrMsg 0x50 (buf 0x100 1) 1]) (idle [true, true])) =
      some (.lockAcquire :: evS ++ wb 0xA0#8 true ++ evP ++ [w5] ++ evS ++ wb 0xA0#8 true ++ evP ++
        [.lockRelease, .errorCallback 7], [.count 0], false) := by decide +kernel
/-- R180, R190: the lock held by another agent; once it is free, that TRANSFER goes on, and a START that was delivered
meanwhile waits (R24). -/
theorem test_transfer_waits :
    seen (fun t => (t.trace, t.seq)) (exec (.transfer 7 []) { State.reset with mutexOther := true }) =
        some ([], .lockWait (.transfer 7 [])) ∧
      seen (fun t => (t.results, t.seq, t.port))
          (step { State.reset with seq := .lockWait (.transfer 7 []), port := [⟨0x0001#16, .none⟩] }) =
        some ([.count 0], .ready, [⟨0x0001#16, .none⟩]) := by decide +kernel

/-- R24: a wrapper that waits for the lock is named by the position, SEND and not TRANSFER, and so it is when it is refused
with the lock held. -/
theorem test_send_position :
    seen State.position (exec (.send 7 0x50 0 (buf 0x100 1) 1) { State.reset with mutexOther := true }) =
        some (some ⟨.send, 0, none⟩) ∧
      ∃ t, exec (.send 7 0x50 0 (buf 0x100 1) 1) { State.reset with bus := .busHeld } = .refused (.refuse .busState t) ∧
        t.position = some ⟨.send, 1, none⟩ := ⟨rfl, _, rfl, rfl⟩

/-- A TRANSFER of one message that came to 0 and stands at its callback, with these calls to make. -/
def calling (calls : List Command) : Frame :=
  { position := .running .transfer 0, ms := [wrMsg 0x50 (buf 0x100 1) 1], result := 0, calls := calls }
def called (calls : List Command) : State := { State.reset with frames := [calling calls] }

/-- TRANSFER of one message that puts no byte on the wire (NO_START and no data). -/
def emptyTransfer : Command := ⟨0x000D#16, .xfer 9 [flMsg 0x50 0x10 none 0]⟩

/-- R185: a TRANSFER called by the callback is a transaction of its own, and it runs before the outer one returns and before
what waits on the port. -/
theorem test_callback_runs_inside :
    seen (fun t => (t.trace, t.results, t.frames.map (·.calls), t.port))
        (step { called [emptyTransfer] with port := [⟨0x0001#16, .none⟩] }) =
        some (.lockAcquire :: evS ++ evP ++ [.lockRelease], [.count 1], [[]], [⟨0x0001#16, .none⟩]) ∧
      seen (fun t => (t.results, t.frames, t.port)) (step { called [] with port := [⟨0x0001#16, .none⟩] }) =
        some ([.count 0], [], [⟨0x0001#16, .none⟩]) := by decide +kernel
/-- R102, R202: whatever its callback did, a TRANSFER returns with the bus idle and the lines high: after a START and a STOP it
does, and after a START alone it does not return (I-5, R206; log entry 18). -/
theorem test_callback_returns_on_an_idle_bus :
    seen (fun t => (t.bus, t.pins.sclOut, t.pins.sdaOut, t.results)) (step (stopOp (startOp (called [])))) =
        some (.idle, true, true, [.count 0]) ∧
      step (startOp (called [])) = .fault .callbackLeftBusHeld := ⟨rfl, rfl⟩
/-- R66, R207: no cell of a borrowed buffer can be written, by a TRANSFER that waits for the lock or one at its callback. -/
theorem test_host_write :
    (hostWrite 0x100 9#8 { State.reset with seq := .lockWait (.send 7 0x50 0 (buf 0x100 1) 1) }).isNone = true ∧
      (hostWrite 0x101 9#8 { State.reset with seq := .lockWait (.send 7 0x50 0 (buf 0x100 1) 1) }).map (·.mem) =
        some [(0x101, 9#8)] ∧
      (hostWrite 0x100 9#8 (called [])).isNone = true ∧
      (hostWrite 0x100 9#8 { State.reset with seq := .running .xfer 0 }).isNone = true := by decide +kernel
/-- T-TR-5. -/
theorem test_send :
    seen (fun t => (t.trace, t.results)) (exec (.send 7 0x50 0 (buf 0x100 2) 2)
        (withMem [(0x100, 0x10#8), (0x101, 0x20#8)] (idle [false, true]))) =
      some (.lockAcquire :: evS ++ wb 0xA0#8 false ++ (.memRead 0x100 0x10#8 :: wb 0x10#8 true) ++ evP ++
        [.lockRelease, .errorCallback 7], [.count 0]) := by decide +kernel
/-- T-TR-8 and T-TR-10: SEND passes IGNORE_NACK and READ through. -/
theorem test_send_flags :
    seen (fun t => (t.results, callCount t.trace))
        (exec (.send 7 0x50 0x20 (buf 0x100 3) 3) (withMem txMem (idle [true, true, true, true]))) =
        some ([.count 1], 203) ∧
      seen (fun t => (t.results, t.mem, callCount t.trace)) (exec (.send 7 0x50 1 (buf 0x200 1) 1) (idle (false :: bits 1#8))) =
        some ([.count 1], [(0x200, 1#8)], 97) := by decide +kernel
/-- T-TR-7. -/
theorem test_recv :
    seen (fun t => (t.trace, t.results, t.mem)) (exec (.recv 7 0x50 0x40 (buf 0x200 1) 1) (idle (false :: bits 0x5A#8))) =
      some (.lockAcquire :: evS ++ wb 0xA1#8 false ++ rb 0x5A#8 ++ [.memWrite 0x200 0x5A#8] ++ evP ++ [.lockRelease],
        [.count 1], [(0x200, 0x5A#8)]) := by decide +kernel
/-- Program P3: a 10-bit read whose re-sent byte is retried. -/
theorem test_recv_10bit_retry :
    seen (fun t => (t.trace, t.results)) (exec (.recv 7 0x150 4 (buf 0x200 1) 1)
        (idle ([false, false, true, false] ++ bits 0x3C#8))) =
      some (.lockAcquire :: evS ++ wb 0xF2#8 false ++ wb 0x50#8 false ++ evSr ++ wb 0xF3#8 true ++ evP ++ [w5] ++ evS ++
        wb 0xF3#8 false ++ rb 0x3C#8 ++ [.memWrite 0x200 0x3C#8] ++ evNack ++ evP ++ [.lockRelease], [.count 1]) := by
  decide +kernel
/-- T-TR-3. -/
theorem test_send_then_recv :
    seen (fun t => (t.trace, t.results, t.mem)) (exec (.sendThenRecv 7 0x20 (buf 0x100 1) 1 (buf 0x200 2) 2)
        (withMem [(0x100, 1#8)] (idle ([false, false, false] ++ bits 0xAA#8 ++ bits 0xBB#8)))) =
      some (.lockAcquire :: evS ++ wb 0x40#8 false ++ (.memRead 0x100 1#8 :: wb 1#8 false) ++ evSr ++ wb 0x41#8 false ++
        rb 0xAA#8 ++ [.memWrite 0x200 0xAA#8] ++ evAck ++ rb 0xBB#8 ++ [.memWrite 0x201 0xBB#8] ++ evNack ++ evP ++
        [.lockRelease], [.count 2], [(0x100, 1#8), (0x200, 0xAA#8), (0x201, 0xBB#8)]) := by decide +kernel
/-- T-TR-9. -/
theorem test_send_then_recv_bad_addr :
    refusedBy State.reset (exec (.sendThenRecv 7 0x150 none 0 none 0) State.reset) = some .badAddr7 := by decide +kernel
/-- T-TR-6. -/
theorem test_send_then_send :
    seen (fun t => (t.trace, t.results)) (exec (.sendThenSend 7 0x50 (buf 0x100 1) 1 (buf 0x200 2) 2)
        (withMem [(0x100, 0x10#8), (0x200, 0xDE#8), (0x201, 0xAD#8)] (idle [false, false, true]))) =
      some (.lockAcquire :: evS ++ wb 0xA0#8 false ++ (.memRead 0x100 0x10#8 :: wb 0x10#8 false) ++
        (.memRead 0x200 0xDE#8 :: wb 0xDE#8 true) ++ evP ++ [.lockRelease, .errorCallback 7], [.count 1]) := by decide +kernel

/-! ### Bus conditions (2.2) and buffer space -/

/-- The conditions of T-SS-1, T-SS-2 and T-SS-3 (R104). -/
theorem test_conditions :
    conditions false Pins.reset evS = [.startCondition] ∧ conditions false (held []).pins evSr = [.startCondition] ∧
      conditions false (held []).pins evP = [.stopCondition] := by decide +kernel

/-- R43 with a slave that moves SDA while SCL is 1 (a START and a STOP condition, whoever makes them), and the data bits of
T-BS-5 (R51, R107). -/
theorem test_line :
    conditionsOn false ⟨Pins.reset, true⟩ [.slave false, .slave true] = [.startCondition, .stopCondition] ∧
      dataBits false ⟨(held []).pins, true⟩ (answered (wb 0xA5#8 false)) = bits 0xA5#8 ++ [false] ∧
      conditionsOn false ⟨(held []).pins, true⟩ (answered (wb 0xA5#8 false)) = [] ∧
      samplesLine false ⟨(held []).pins, true⟩ (answered (wb 0xA5#8 false)) = true := by decide +kernel

/-- The canonical form: a write of the unlisted value removes the entry, and order is kept. -/
theorem test_memory :
    Memory.write [(4, 9#8)] 2 7#8 = [(2, 7#8), (4, 9#8)] ∧ Memory.write [(2, 7#8), (4, 9#8)] 2 0#8 = [(4, 9#8)] ∧
      Memory.read [(2, 7#8), (4, 9#8)] 4 = 9#8 ∧ Memory.wf [(4, 9#8), (2, 7#8)] = false := by decide +kernel

/-! ### Witnesses: for every statement with hypotheses, states and operands that meet them, clause by clause -/

/-- One message of each shape on the default parameters: 7-bit WRITE, 7-bit READ at its last address, 10-bit READ, one with
IGNORE_NACK and one with NO_START. -/
def wMsg : Msg := wrMsg 0x50 (buf 0x100 1) 1
def rMsg : Msg := flMsg 0x7F 1 (buf 0x200 2) 2
def tMsg : Msg := flMsg 0x3FF 5 (buf 0x200 1) 1
def iMsg : Msg := flMsg 0x50 0x20 (buf 0x100 1) 1
def nMsg : Msg := flMsg 0x50 0x10 (buf 0x100 1) 1

theorem witness_DecodeOfEncodeIsTheInstruction :
    Instr.wf .default (.writeByte 0xFF#8) = true ∧ Instr.wf .default (.addrPhase (flMsg 0xFFFF 0xFFFF none 0xFFFF)) = true ∧
      Instr.wf .default (.xfer [wMsg, rMsg]) = true ∧ Instr.wf .default (.send 1 0xFFFF 0xFFFF none 0xFFFF) = true := by
  decide

theorem witness_DecodedCommandIsItsEncoding :
    decode .default ⟨0xA028#16, .none⟩ = .ok (.sendAddr 0xA0#8 1#1) ∧
      decode .default ⟨0x000D#16, .xfer 3 [wMsg]⟩ = .ok (.transfer 3 [wMsg]) := ⟨rfl, rfl⟩

/-- RSV 01 and 11; OP 0x00, 0x12 and 0x1F; IMM8 with OP 0x01 and 0x11; B with OP 0x01, 0x11, and 0x05 with IMM8. -/
theorem witness_WordsThatSpellNoOperationAreRefused :
    (0x0041 / 64 % 4 ≠ 0 ∧ 0x00C1 / 64 % 4 ≠ 0) ∧
    (0x0000 / 64 % 4 = 0 ∧ 0x0000 % 32 = 0 ∧ 0x0012 / 64 % 4 = 0 ∧ 0x12 ≤ 0x0012 % 32 ∧ 0x12 ≤ 0x001F % 32) ∧
    (0x0101 / 64 % 4 = 0 ∧ 0 < 0x0101 % 32 ∧ 0x0101 % 32 < 0x12 ∧ 0x0101 % 32 ≠ 5 ∧ 0x0101 % 32 ≠ 8 ∧ 0x0101 / 256 ≠ 0 ∧
      0x0111 % 32 = 0x11) ∧
    (0xFF25 / 64 % 4 = 0 ∧ 0xFF25 % 32 = 5 ∧ 0xFF25 / 32 % 2 ≠ 0 ∧ 0x0021 % 32 = 1 ∧ 0x0021 / 256 = 0 ∧
      0x0021 / 32 % 2 ≠ 0) := by decide

theorem witness_WrongRecordKindIsRefused :
    Record.kind (.msg wMsg) ≠ (Instr.start).op.recordKind ∧ Record.kind .none ≠ (Instr.xfer []).op.recordKind := by decide

/-- One command of each record kind. -/
theorem witness_DecodedOperandsAreInRange :
    decode .default ⟨0x0001#16, .none⟩ = .ok .start ∧ decode .default ⟨0x000A#16, .msg wMsg⟩ = .ok (.sendBytes wMsg) ∧
      decode .default ⟨0x000C#16, .list [wMsg]⟩ = .ok (.xfer [wMsg]) ∧
      decode .default ⟨0x000D#16, .xfer 1 [wMsg]⟩ = .ok (.transfer 1 [wMsg]) ∧
      decode .default ⟨0x000E#16, .single 1 2 0 none 0⟩ = .ok (.send 1 2 0 none 0) ∧
      decode .default ⟨0x0010#16, .wrRd 1 2 none 0 none 0⟩ = .ok (.sendThenRecv 1 2 none 0 none 0) ∧
      decode .default ⟨0x0011#16, .wrWr 1 2 none 0 none 0⟩ = .ok (.sendThenSend 1 2 none 0 none 0) :=
  ⟨rfl, rfl, rfl, rfl, rfl, rfl, rfl⟩

/-- The largest US that fits 32 bits, and the next; each duty left undone. -/
theorem witness_CreationNeedsBootAndDelayUnit_and_HalfDelayRoundsUp :
    (booted (2 ^ 32 - 2)).delayUnit = some (2 ^ 32 - 2) ∧ 2 ^ 32 - 2 + 2 ≤ 2 ^ Params.default.usWidth ∧
      2 ^ Params.default.usWidth < 2 ^ 32 - 1 + 2 ∧ (booted 5).capabilitySet = true ∧ (booted 5).mutex = true ∧
      (booted 5).linesIdle = true ∧ (booted 5).errorCallback = true ∧
      ({ booted 5 with delayUnit := none } : Boot).delayUnit = none ∧
      ({ booted 5 with errorCallback := false } : Boot).errorCallback = false := by decide

/-- The reset state with the command delivered. -/
def given (c : Command) : State := { State.reset with port := [c] }

/-- Each way an operation is next; a completed operation, a TRANSFER that waits, a refused one; and a START (four calls) with
four and with three calls that still return. -/
theorem witness_StepRunsTheDecodedOperation :
    NextUp (given ⟨0x0001#16, .none⟩) .start State.reset ∧
      NextUp (called [⟨0x0001#16, .none⟩]) .start (called []) ∧
      NextUp { State.reset with seq := .lockWait (.transfer 7 []) } (.transfer 7 [])
        { State.reset with seq := .lockWait (.transfer 7 []) } ∧
      (given ⟨0x0001#16, .none⟩).refused = false ∧ (given ⟨0x0001#16, .none⟩).callsLeft = none ∧
      seen (·.seq) (exec .start State.reset) = some .ready ∧
      seen (·.seq) (exec (.transfer 0 []) { State.reset with mutexOther := true }) =
        some (.lockWait (.transfer 0 [])) ∧
      refusedBy State.reset (exec .stop State.reset) = some .busState ∧
      seen (·.callsLeft) (step { given ⟨0x0001#16, .none⟩ with callsLeft := some 4 }) = some (some 0) ∧
      step { given ⟨0x0001#16, .none⟩ with callsLeft := some 3 } =
        .fault (.capabilityCallNeverReturns evS (.running .start 0)) :=
  ⟨.delivered _ [] _ rfl rfl rfl rfl, .called (calling [⟨0x0001#16, .none⟩]) [] _ [] _ rfl rfl rfl rfl, .waiting _ rfl, rfl, rfl, rfl, rfl, rfl, rfl,
    rfl⟩

/-- A refused state, a running one, an empty port, and a word of no operation on the port and in a callback. -/
theorem witness_StepWithoutAnOperation :
    ({ State.reset with refused := true } : State).refused = true ∧ State.reset.refused = false ∧
      ({ State.reset with seq := .running .xfer 0 } : State).seq = .running .xfer 0 ∧
      State.reset.seq = .ready ∧ State.reset.frames = [] ∧ State.reset.port = [] ∧
      (given ⟨0x0012#16, .none⟩).port = [⟨0x0012#16, .none⟩] ∧
      (called [⟨0x0012#16, .none⟩]).frames.map (·.calls) = [[⟨0x0012#16, .none⟩]] ∧
      decode State.reset.par ⟨0x0012#16, .none⟩ = .error .illegalOp := ⟨rfl, rfl, rfl, rfl, rfl, rfl, rfl, rfl, rfl⟩

/-- Inside an operation; after one that completes; at a lock that waits; refused before the first event, and after it. -/
theorem witness_PositionFollowsTheOperation :
    (enter .xfer State.reset).seq = .running .xfer 0 ∧ 0 ≤ (enter .xfer State.reset).trace.length ∧
      seen State.position (exec .start State.reset) = some none ∧
      seen State.position (exec (.transfer 0 []) { State.reset with mutexOther := true }) = 
        some (some ⟨.transfer, 0, none⟩) ∧
      (∃ t, exec .stop State.reset = .refused (.refuse .busState t) ∧ t.position = none) ∧
      ∃ t, exec (.transfer 0 []) (held []) = .refused (.refuse .busState t) ∧ t.position = some ⟨.transfer, 1, none⟩ :=
  ⟨rfl, Nat.zero_le _, rfl, rfl, ⟨_, rfl, rfl⟩, _, rfl, rfl⟩

theorem witness_EveryStepKeepsInv :
    BlockInv (given ⟨0x0001#16, .none⟩) ∧ ∃ t, step (given ⟨0x0001#16, .none⟩) = .next t :=
  ⟨{ params := by decide, us := by decide, lines := ⟨by decide, by decide⟩, eng := rfl, locked := rfl, seq := trivial,
     frames := fun f h => (nomatch h), refused := rfl, mem := rfl, counts := ⟨by decide, by decide, by decide, by decide⟩ }, _, rfl⟩

theorem witness_SettingNeverChanges : ∃ t, step (given ⟨0x000C#16, .list [nMsg]⟩) = .next t := ⟨_, rfl⟩

/-- Each move, among them a write beside the buffer of a TRANSFER that waits for the lock, and of one at its callback. -/
theorem witness_HostMovesSpareOpenOperations :
    HostMove { State.reset with seq := .lockWait (.transfer 7 [wMsg]) }
        { State.reset with seq := .lockWait (.transfer 7 [wMsg]), mem := [(0x101, 9#8)] } ∧
      apiList Params.default (.transfer 7 [wMsg]) = some (7, [wMsg]) ∧
      HostMove (called []) { called [] with mem := [(0xFF, 9#8)] } ∧
      HostMove State.reset { State.reset with mutexOther := true } ∧
      HostMove { State.reset with seq := .running .xfer 0 } { State.reset with seq := .running .xfer 0, sdaIn := [true] } ∧
      (wMsg ∈ [wMsg] ∧ 0 < wMsg.len) ∧ State.reset.seq = .ready ∧ State.reset.frames = [] :=
  ⟨.write 0x101 9#8 _ rfl, rfl, .write 0xFF 9#8 _ rfl, .otherAcquires _ rfl, .fixAnswer true, ⟨by decide, by decide⟩, rfl, rfl⟩

/-- A refusal that changes nothing, and the BUS_STATE refusal of a TRANSFER. -/
theorem witness_RefusalChangesNothing :
    (∃ t, exec .stop State.reset = .refused (.refuse .busState t)) ∧
      ∃ t, exec (.transfer 0 [wMsg]) (held []) = .refused (.refuse .busState t) := ⟨⟨_, rfl⟩, ⟨_, rfl⟩⟩

/-- StartTakesTheBus, RestartKeepsTheBus, StopReleasesTheBus, WaitAckSamplesTheNinthClock,
WriteByteShiftsOutAndReturnsAck, ReadByteShiftsIn, SendAckDrivesTheNinthClock: both bus states, and the answers. -/
theorem witness_primitives :
    State.reset.bus = .idle ∧ (held []).bus = .busHeld ∧ answerAt (held [true]) 0 = true ∧
      answerAt (held [false]) 0 = false ∧
      answersFrom (held [true, false, true, false, true, false, true, false]) 0 8 =
        [true, false, true, false, true, false, true, false] := ⟨rfl, rfl, rfl, rfl, rfl⟩

theorem held_lines (oracle : List Level) : linesOk (held oracle) := ⟨fun _ => rfl, fun h => nomatch h⟩

theorem reset_lines : linesOk State.reset := ⟨fun h => (nomatch h), fun _ => rfl⟩

/-- Each primitive runs in a state whose lines are right (PrimitiveCounts, PrimitiveDurations, PrimitiveBusConditions). -/
theorem witness_primitive_runs :
    (linesOk State.reset ∧ ∃ t, exec .start State.reset = .next t) ∧
    (linesOk (held []) ∧ ∃ t, exec .restart (held []) = .next t) ∧
    (linesOk (held []) ∧ ∃ t, exec .stop (held []) = .next t) ∧
    (linesOk (held [true]) ∧ ∃ t, exec .waitAck (held [true]) = .next t) ∧
    (linesOk (held [true]) ∧ ∃ t, exec (.writeByte 0xFF#8) (held [true]) = .next t) ∧
    (linesOk (held []) ∧ ∃ t, exec .readByte (held []) = .next t) ∧
    (linesOk (held []) ∧ ∃ t, exec (.sendAckOrNack false) (held []) = .next t) ∧
    (∃ t, exec (.sendAddr 0xA0#8 0#1) (held [true]) = .next t) ∧
    (answerAt (held [true]) 0 = true ∧ ∃ t, exec (.sendAddr 0xA0#8 1#1) (held [true]) = .next t) :=
  ⟨⟨reset_lines, _, rfl⟩, ⟨held_lines _, _, rfl⟩, ⟨held_lines _, _, rfl⟩, ⟨held_lines _, _, rfl⟩, ⟨held_lines _, _, rfl⟩,
    ⟨held_lines _, _, rfl⟩, ⟨held_lines _, _, rfl⟩, ⟨_, rfl⟩, rfl, _, rfl⟩

/-- Data bits, on a held bus with SCL low: the answers 1 and 0, an ACK, and a NACK after either latch. -/
theorem witness_DataBitsOnTheWire :
    (linesOk (held [true]) ∧ ∃ t, exec (.writeByte 0xFF#8) (held [true]) = .next t) ∧
      (linesOk (held [false]) ∧ ∃ t, exec .waitAck (held [false]) = .next t) ∧
      (linesOk (held []) ∧ (∃ t, exec .readByte (held []) = .next t) ∧
        (∃ t, exec (.sendAckOrNack true) (held []) = .next t) ∧ ∃ t, exec (.sendAckOrNack false) (held []) = .next t) :=
  ⟨⟨held_lines _, _, rfl⟩, ⟨held_lines _, _, rfl⟩, held_lines _, ⟨_, rfl⟩, ⟨_, rfl⟩, _, rfl⟩

/-- Two successive moments for each clause, and the move that gives a data bit. -/
theorem witness_LineChangesAreConditions :
    conditionBetween false ⟨Pins.reset, true⟩ ⟨Pins.reset, false⟩ = [.startCondition] ∧
      conditionBetween false ⟨Pins.reset, false⟩ ⟨Pins.reset, true⟩ = [.stopCondition] ∧
      conditionBetween true ⟨{ Pins.reset with sdaOut := false, sdaDir := .input }, true⟩ ⟨Pins.reset, true⟩ = [] ∧
      dataBits false ⟨(held []).pins, false⟩ [.block (.sclSet true)] = [false] := ⟨rfl, rfl, rfl, rfl⟩

theorem witness_AddressBytesOnTheWire : (wrMsg 0x7F none 0).addr ≤ 0x7F ∧ (flMsg 0 1 none 0).addr ≤ 0x7F := by decide

/-- One attempt without a retry left, one acknowledged, and one NACKed with a retry left. -/
theorem witness_SendAddrRetriesOnce :
    (held [true]).bus = .busHeld ∧ answerAt (held [false]) 0 = false ∧ answerAt (held [true, true]) 0 = true ∧
      State.reset.bus = .idle := ⟨rfl, rfl, rfl, rfl⟩

/-- Every branch of ADDR_PHASE: 7-bit; 10-bit with the first byte NACKed twice; second byte NACKed; WRITE; READ. -/
theorem witness_AddrPhaseSendsTheAddress :
    (held []).bus = .busHeld ∧ checkMsg .default rMsg = none ∧ is10bit .default rMsg = false ∧
    checkMsg .default tMsg = none ∧ is10bit .default tMsg = true ∧ isRead .default tMsg = true ∧
    ignoreNack .default tMsg = false ∧ addrAck (held [true, true]) 0 1#1 = false ∧
    addrAck (held [true, false]) 0 1#1 = true ∧ attempts (held [true, false, true]) 0 1#1 = 2 ∧
    answerAt (held [true, false, true]) 2 = true ∧ answerAt (held [false, false]) 1 = false ∧
    is10bit .default (flMsg 0x3FF 4 none 0) = true ∧ isRead .default (flMsg 0x3FF 4 none 0) = false ∧
    checkMsg .default (flMsg 0x3FF 0x24 none 0) = none ∧ ignoreNack .default (flMsg 0x3FF 0x24 none 0) = true := by
  decide

theorem witness_AddrPhaseFrame : ∃ t, exec (.addrPhase tMsg) (held [false, false, true, true]) = .next t := ⟨_, rfl⟩

/-- IllFormedDescriptorIsRefused: an unnamed flag, the first 7-bit address that is too large, a null and a short buffer. -/
theorem witness_ill_formed :
    Nat.testBit (flMsg 0 2 none 0).flags 1 = true ∧ Nat.testBit Params.default.allFlags 1 = false ∧
      is10bit .default (wrMsg 0x80 none 0) = false ∧ 0x7F < (wrMsg 0x80 none 0).addr ∧
      0 < (wrMsg 0 none 1).len ∧ (wrMsg 0 none 1).buf = none ∧ 0 < (wrMsg 0 (buf 0 1) 2).len ∧
      (wrMsg 0 (buf 0 1) 2).buf = some ⟨0, 1⟩ ∧ 1 < (wrMsg 0 (buf 0 1) 2).len ∧
      wrMsg 0x80 none 0 ∈ [wMsg, wrMsg 0x80 none 0] := by decide

/-- The clauses of RefusalOrder: both bus states, a descriptor that fails each check, a READ and a WRITE descriptor that
pass them. -/
theorem witness_RefusalOrder :
    checkMsg .default (flMsg 0x80 2 none 1) = some .badFlags ∧ checkMsg .default (wrMsg 0x80 none 1) = some .badAddr7 ∧
      checkMsg .default (wrMsg 0x7F none 1) = some .badBuf ∧ checkMsg .default (flMsg 0x80 4 (buf 0 0) 1) = some .badBuf ∧
      checkMsg .default rMsg = none ∧ isRead .default rMsg = true ∧ checkMsg .default wMsg = none ∧
      isRead .default wMsg = false ∧ (∀ k, Nat.testBit (0 : Nat) k = true → Nat.testBit Params.default.allFlags k = true) ∧
      (wrMsg 0x7F none 0).addr ≤ 0x7F ∧ (wrMsg 0x7F none 0).len = 0 ∧ (wrMsg 0x7F (buf 4 1) 1).len ≤ 1 ∧
      (∀ x ∈ [wMsg, rMsg], checkMsg .default x = none) ∧
      checkMsgs .default ([wMsg, rMsg] ++ wrMsg 0x80 none 1 :: [flMsg 0 2 none 0]) = some .badAddr7 :=
  ⟨rfl, rfl, rfl, rfl, rfl, rfl, rfl, rfl, fun k h => by simp at h, by decide, rfl, by decide, by decide, rfl⟩

theorem witness_SendBytesSendsAll :
    (held [false]).bus = .busHeld ∧ checkMsg .default wMsg = none ∧ isRead .default wMsg = false ∧
      (∀ j < wMsg.len, answerAt (held [false]) j = false) ∧ checkMsg .default iMsg = none ∧
      ignoreNack .default iMsg = true :=
  ⟨rfl, rfl, rfl, fun j h => match j, h with | 0, _ => rfl, rfl, rfl⟩

/-- The NACK at the first byte, and at the last of three. -/
theorem witness_SendBytesStopsAtNack :
    ignoreNack .default wMsg = false ∧ 0 < wMsg.len ∧ answerAt (held [true]) 0 = true ∧
      checkMsg .default (wrMsg 0x50 (buf 0x100 3) 3) = none ∧ answerAt (held [false, false, true]) 2 = true ∧
      (∀ d < 2, answerAt (held [false, false, true]) d = false) :=
  ⟨rfl, by decide, rfl, rfl, rfl, fun d h => match d, h with | 0, _ => rfl | 1, _ => rfl⟩

theorem witness_RecvBytesStoresAll :
    (held []).bus = .busHeld ∧ checkMsg .default rMsg = none ∧ isRead .default rMsg = true ∧
      Memory.wf (withMem txMem (held [])).mem = true ∧ noReadAck .default (flMsg 0 0x41 none 0) = true ∧
      checkMsg .default (flMsg 0 0x41 none 0) = none := ⟨rfl, rfl, rfl, rfl, rfl, rfl⟩

theorem witness_BufferReadAndWrite : Memory.wf txMem = true ∧ (0x103 : Nat) ≠ 0x102 := by decide

/-- RECV of two bytes at 0x200 writes neither 0x1FF nor 0x202; a SEND writes nothing. -/
theorem witness_OnlyReadBuffersAreWritten :
    (∃ t, exec (.recvBytes rMsg) (held []) = .next t) ∧ (∃ t, exec (.sendBytes wMsg) (held [true]) = .next t) ∧
      (∀ j < rMsg.len, 0x1FF ≠ cellAddr rMsg j ∧ 0x202 ≠ cellAddr rMsg j) :=
  ⟨⟨_, rfl⟩, ⟨_, rfl⟩, fun j h => by
    simp only [rMsg, flMsg, buf, cellAddr] at h ⊢
    omega⟩

/-- XferLeavesTheBusIdle, XferOfNothing, XferFollowsItsLedger, IgnoreNackCompletes: lists that pass their checks, and both bus states. -/
theorem witness_xfer_lists :
    State.reset.bus = .idle ∧ checkMsgs .default [] = none ∧ checkMsgs .default [wMsg, rMsg, tMsg, nMsg] = none ∧
      (held []).bus = .busHeld ∧ (∀ m ∈ [iMsg, iMsg], ignoreNack .default m = true) ∧
      checkMsgs .default [iMsg, iMsg] = none := by decide

/-- Message 0, NACKed twice; a 10-bit READ as message 1, its first byte NACKed twice, its second once, and the re-sent byte
twice. -/
theorem witness_AddressNackAborts :
    (checkMsgs .default ([] ++ wMsg :: [rMsg]) = none ∧ ackedFrom (idle [true, true]) 0 [] ∧ is10bit .default wMsg = false ∧
        noStart .default wMsg = false ∧ ignoreNack .default wMsg = false ∧ answerAt (idle [true, true]) 0 = true ∧
        answerAt (idle [true, true]) 1 = true) ∧
      checkMsgs .default ([nMsg] ++ tMsg :: [wMsg]) = none ∧ listAnswers .default [nMsg] = 1 ∧
      ackedFrom (idle [false]) 0 [nMsg] ∧ is10bit .default tMsg = true ∧ isRead .default tMsg = true ∧
      noStart .default tMsg = false ∧ ignoreNack .default tMsg = false ∧
      (answerAt (idle [false, true, true]) 1 = true ∧ answerAt (idle [false, true, true]) 2 = true) ∧
      (answerAt (idle [false, false, true]) 1 = false ∧ answerAt (idle [false, false, true]) 2 = true) ∧
      (answerAt (idle [false, false, false, true, true]) 2 = false ∧ answerAt (idle [false, false, false, true, true]) 3 = true ∧
        answerAt (idle [false, false, false, true, true]) 4 = true) :=
  ⟨⟨rfl, trivial, rfl, rfl, rfl, rfl, rfl⟩, rfl, rfl,
    ⟨fun _ h => (nomatch h), fun _ j h => match j, h with | 0, _ => rfl, trivial⟩, rfl, rfl, rfl, rfl, ⟨rfl, rfl⟩,
    ⟨rfl, rfl⟩, rfl, rfl, rfl⟩

/-- The NACK at the first byte of message 0, and at the last byte of a NO_START message 1. -/
theorem witness_DataNackAborts :
    (checkMsgs .default ([] ++ wMsg :: [rMsg]) = none ∧ isRead .default wMsg = false ∧ ignoreNack .default wMsg = false ∧
        addrAnswers .default wMsg = 1 ∧ answerAt (idle [false, true]) 0 = false ∧ answerAt (idle [false, true]) 1 = true) ∧
      checkMsgs .default ([nMsg] ++ flMsg 0x50 0x10 (buf 0x100 2) 2 :: []) = none ∧ listAnswers .default [nMsg] = 1 ∧
      addrAnswers .default (flMsg 0x50 0x10 (buf 0x100 2) 2) = 0 ∧ ackedFrom (idle [false, false, true]) 0 [nMsg] ∧
      answerAt (idle [false, false, true]) 1 = false ∧ answerAt (idle [false, false, true]) 2 = true :=
  ⟨⟨rfl, rfl, rfl, rfl, rfl, rfl⟩, rfl, rfl, rfl,
    ⟨fun _ h => (nomatch h), fun _ j h => match j, h with | 0, _ => rfl, trivial⟩, rfl, rfl⟩

/-- A WRITE of one byte and the address of a one-byte 10-bit READ acknowledged. -/
theorem witness_AcknowledgedTransaction :
    checkMsgs .default [wMsg, tMsg] = none ∧ ackedFrom (idle (List.replicate 13 false)) 0 [wMsg, tMsg] := by
  refine ⟨rfl, ?_, ?_, ?_, ?_, trivial⟩
  · intro j h
    match j, h with
    | 0, _ => rfl
  · intro _ j h
    match j, h with
    | 0, _ => rfl
  · intro j h
    match j, h with
    | 0, _ => rfl
    | 1, _ => rfl
    | 2, _ => rfl
  · intro h; exact nomatch h

/-- And XferConditionCounts: a run with one retry. -/
theorem witness_EveryStopBeforeTheLastIsARetrys :
    linesOk State.reset ∧ (idle [true, true]).bus = .idle ∧ ∃ t, exec (.xfer [wMsg]) (idle [true, true]) = .next t :=
  ⟨reset_lines, rfl, _, rfl⟩

theorem witness_OneStopWithoutRetry :
    linesOk State.reset ∧ (∃ t, exec (.xfer [iMsg, nMsg]) (idle [true, true, true]) = .next t) ∧
      (∀ m ∈ [iMsg, nMsg], ignoreNack .default m = true ∨ noStart .default m = true) ∧
      (xferRun (idle [false, false]) 0 true [] [wMsg]).retries = 0 ∧ (∃ t, exec (.xfer [wMsg]) (idle [false, false]) = .next t) ∧
      ackedFrom (idle [false, false]) 0 [wMsg] :=
  ⟨reset_lines, ⟨_, rfl⟩, by decide, rfl, ⟨_, rfl⟩, fun j h => match j, h with | 0, _ => rfl,
    fun _ j h => match j, h with | 0, _ => rfl, trivial⟩

/-- Inside an operation; by R24, 0, 1 and 2 for two messages that are served, and 0 throughout for one NACKed twice. -/
theorem witness_MessageIndexCountsTheMessages :
    (enter .send (idle [false, false])).seq = .running .send 0 ∧
      (loopStates [nMsg, nMsg] (openLoop (startOp (enter .send (idle [false, false]))))).map (·.dp.i) = [0, 1, 2] ∧
      (loopStates [wMsg] (openLoop (startOp (enter .send (idle [true, true]))))).map (·.dp.i) = [0, 0] := by decide +kernel

/-- TransferIsLockedXfer, TransferWaitsForTheLock, ApiOperationsComplete: the lock granted and the lock held by another agent,
on an idle bus and on a held one; a full and a short count, and a callback with and without calls. -/
theorem witness_transfers :
    State.reset.bus = .idle ∧ checkMsgs .default [wMsg, rMsg] = none ∧ State.reset.mutexOther = false ∧
      (held []).mutexOther = false ∧ (held []).bus = .busHeld ∧
      ({ State.reset with mutexOther := true } : State).par.mutexBlocks = true ∧
      checkMsgs .default [⟨0x50, 0, 1, buf 0 1⟩] = none ∧ checkMsgs .default [⟨0x50, 0x40 ||| 1, 1, buf 0 1⟩] = none ∧
      checkMsgs .default [⟨0x7F, 0, 1, buf 0 1⟩, ⟨0x7F, 1, 2, buf 4 2⟩] = none ∧
      checkMsgs .default [⟨0x7F, 0, 1, buf 0 1⟩, ⟨0x7F, 0x10, 2, buf 4 2⟩] = none ∧
      ({ State.reset with seq := .lockWait (.transfer 7 [wMsg]) } : State).seq = .lockWait (.transfer 7 [wMsg]) ∧
      apiList .default (.transfer 7 [wMsg]) = some (7, [wMsg]) ∧
      apiList .default (.recv 7 0x50 0x40 (buf 0 1) 1) = some (7, [⟨0x50, 0x40 ||| 1, 1, buf 0 1⟩]) ∧
      (xferRun (idle [true, true]) 0 true [] [wMsg]).served = 0 ∧ (xferRun (idle [false, false]) 0 true [] [wMsg]).served = 1 ∧
      State.reset.callbacks = [] ∧ (onError [] State.reset).callbacks = [[]] ∧
      (onError [emptyTransfer] State.reset).callbacks = [[emptyTransfer]] := by decide

/-- CallbackReturnsToItsTransfer: the invariant at a callback with nothing left to call, whose TRANSFER returns; and such a
callback that left the bus held. -/
theorem witness_CallbackReturnsToItsTransfer :
    BlockInv (called []) ∧ (∃ t, step (called []) = .next t) ∧ (called []).bus = .idle ∧
      (startOp (called [])).bus = .busHeld ∧ (startOp (called [])).frames.map (·.calls) = [[]] ∧
      (startOp (called [])).callsLeft ≠ some 0 ∧ (startOp (called [])).seq = .ready :=
  ⟨{ params := by decide, us := by decide, lines := ⟨by decide, by decide⟩, eng := rfl, locked := rfl, seq := trivial,
     frames := fun f h => by
      obtain rfl : f = calling [] := by simpa [called] using h
      exact ⟨by decide, by decide⟩
     refused := rfl, mem := rfl, counts := ⟨by decide, by decide, by decide, by decide⟩ },
    ⟨_, rfl⟩, rfl, rfl, rfl, by decide, rfl⟩

/-- CallbackReturnsToItsTransfer and CallbackTransferRunsInside: at a callback with nothing left to call, with all, one and no
capability calls to return, and at one with a TRANSFER left to call. -/
theorem witness_callbacks :
    (called []).refused = false ∧ (called []).seq = .ready ∧ (called []).frames.map (·.calls) = [[]] ∧
      (called []).callsLeft ≠ some 0 ∧ (callsStop 1 (called [])).callsLeft ≠ some 0 ∧
      (callsStop 0 (called [])).callsLeft = some 0 ∧
      (called [emptyTransfer]).frames.map (·.calls) = [[emptyTransfer]] ∧
      decode (called [emptyTransfer]).par emptyTransfer = .ok (.transfer 9 [flMsg 0x50 0x10 none 0]) ∧
      checkMsgs (called [emptyTransfer]).par [flMsg 0x50 0x10 none 0] = none ∧ (called [emptyTransfer]).bus = .idle ∧
      (called [emptyTransfer]).callbacks = [] ∧ (called [emptyTransfer]).callsLeft = none ∧
      (called [emptyTransfer]).mutexOther = false :=
  ⟨rfl, rfl, rfl, by decide, by decide, rfl, rfl, rfl, rfl, rfl, rfl, rfl, rfl⟩

/-- A state and the same state with other datapath registers. -/
theorem witness_DatapathLeftoversAreNeverRead :
    (∀ k, answerAt { State.reset with dp := { Datapath.reset with shift := 0xFF#8, ackf := true }, sdaIn := [], draws := 0 } k =
      answerAt State.reset k) ∧ ∃ t, exec .start State.reset = .next t := ⟨fun _ => rfl, _, rfl⟩

theorem witness_ConformanceIgnoresDelays :
    (∃ t, exec .start State.reset = .next t ∧ t.trace = State.reset.trace ++ evS) ∧
      conforms evS [so, d0, .delay 4, w5, c0] = true ∧ Delayed evS [so, d0, .delay 4, w5, c0] ∧
      conforms evS [so, d0, c0] = false :=
  ⟨⟨_, rfl, rfl⟩, by decide, .inserted [so, d0, .delay 4] [c0] 5 (.longer [so, d0] [c0] 3 4 (by decide) .same), by decide⟩

end Sys2Proof.Tests
end

section
/-! SUPPORT. What TRANSFER answers in each of its cases, and every refusal an operation can answer (R160, R178). -/

namespace Sys2Proof.Machine

section
variable {i : Instr} {cap : CapHandle} {ms : List Msg} {s : State}

/-- The descriptor checks come first (R160). -/
theorem transfer_illFormed {r : Reason} (hc : checkMsgs s.par ms = some r) :
    transfer i cap ms s = .refused (.refuse r { s with refused := true }) := by
  simp [transfer, hc, refuse]

/-- Then the wait for the lock (R180). -/
theorem transfer_waits (hc : checkMsgs s.par ms = none) (hl : lockBlocked s = true) :
    transfer i cap ms s = .next { s with seq := .lockWait i } := by
  simp [transfer, hc, hl]

/-- Then, with the lock, the refusal on a held bus (R160). -/
theorem transfer_busState (hc : checkMsgs s.par ms = none) (hl : lockBlocked s = false) (hb : s.bus = .busHeld) :
    transfer i cap ms s =
      .refused (.refuse .busState { emit .lockAcquire (enter i.op s) with refused := true }) := by
  simp [transfer, hc, hl, hb, refuse]

/-- And last the transfer itself. -/
theorem transfer_runs (hc : checkMsgs s.par ms = none) (hl : lockBlocked s = false) (hb : s.bus = .idle) :
    transfer i cap ms s = .next (transferOp cap ms (emit .lockAcquire (enter i.op s))) := by
  simp [transfer, hc, hl, hb]

end

/-- What a refused TRANSFER leaves: the state it was issued in, or that state with the lock taken (R160, R178). -/
theorem transfer_refused {i : Instr} {cap : CapHandle} {ms : List Msg} {s t : State} {why : Reason}
    (h : transfer i cap ms s = .refused (.refuse why t)) :
    t = { s with refused := true } ∨ t = { emit .lockAcquire (enter i.op s) with refused := true } := by
  cases hc : checkMsgs s.par ms with
  | some r =>
    rw [transfer_illFormed hc] at h
    cases h
    exact .inl rfl
  | none =>
    cases hl : lockBlocked s with
    | true => rw [transfer_waits hc hl] at h; cases h
    | false =>
      cases hb : s.bus with
      | idle => rw [transfer_runs hc hl hb] at h; cases h
      | busHeld =>
        rw [transfer_busState hc hl hb] at h
        cases h
        exact .inr rfl

/-- What a refusal leaves (R178): the state the operation was issued in, but for the LOCK_ACQUIRE of a TRANSFER or a wrapper. -/
theorem exec_refused {i : Instr} {s t : State} {why : Reason} (h : exec i s = .refused (.refuse why t)) :
    t = { s with refused := true } ∨
      ((apiList s.par i).isSome = true ∧ t = { emit .lockAcquire (enter i.op s) with refused := true }) := by
  cases ha : apiList s.par i with
  | some l =>
    rw [exec_api ha] at h
    exact (transfer_refused h).imp_right fun ht => ⟨rfl, ht⟩
  | none =>
    left
    cases i <;> simp only [apiList, reduceCtorEq] at ha
    all_goals
      simp only [exec, execStart, execRestart, execStop, execWaitAck, execWriteByte, execReadByte, execSendAckOrNack,
        execSendAddr, execAddrPhase, execSendBytes, execRecvBytes, execXfer, refuse] at h
      repeat' split at h
      all_goals simp only [Host.Outcome.refused.injEq, Refusal.refuse.injEq, reduceCtorEq] at h
      all_goals exact h.2.symm

/-- An operation leaves the sequencer at `Ready`, or waits for the lock under its own name (R24, R180). -/
theorem Exec.seq {i : Instr} {s t : State} (h : Exec i s t) :
    t.seq = .ready ∨ ((apiList s.par i).isSome = true ∧ t.seq = .lockWait i) := by
  cases h with
  | api ha h =>
    obtain ⟨-, ⟨-, rfl⟩ | ⟨-, -, rfl⟩⟩ := transfer_next h
    · exact .inr ⟨by simp [ha], rfl⟩
    · exact .inl (by rw [transferOp_eq])
  | _ => exact .inl rfl

/-- Settles O55: another holder blocks the lock exactly when the mutex blocks, and TRANSFER then answers its wait; with the
lock free, a held bus is refused after the LOCK_ACQUIRE. -/
theorem transferWaitsForTheLock : Obligations.TransferWaitsForTheLock := by
  intro s i cap ms hi hc
  refine ⟨fun hm ho => ?_, fun hf hb => ?_⟩
  · have hx : exec i s = .next { s with seq := .lockWait i } := by
      rw [exec_api hi, transfer_waits hc (by simp [lockBlocked, hm, ho])]
    refine ⟨hx, fun hr hq => ?_⟩
    have same : { s with seq := .lockWait i } = s := by rw [← hq]
    have hrun : exec i s = .next s := hx.trans (congrArg _ same)
    rw [step_run hr (.waiting i hq)]
    unfold runInstr
    split
    · exact hrun
    · rename_i n hn
      simp [runBudgeted, hrun, callsReturned, ← hn]
  · have hl : lockBlocked s = false := by rcases hf with h | h <;> simp [lockBlocked, h]
    rw [exec_api hi, transfer_busState hc hl hb]
    rfl

end Sys2Proof.Machine
end

section
/-! SUPPORT. The sequencer position (R24). -/

namespace Sys2Proof.Machine

theorem State.messageIndex_eq (s : State) : s.messageIndex = if s.eng = .idle then none else some s.dp.i := by
  unfold State.messageIndex
  cases s.eng <;> rfl

theorem State.position_running {s : State} {op : Op} {start : Nat} (h : s.seq = .running op start) :
    s.position = some { op := op, done := s.trace.length - start, message := s.messageIndex } := by
  simp [State.position, h]

theorem State.position_lockWait {s : State} {i : Instr} (h : s.seq = .lockWait i) :
    s.position = some { op := i.op, done := 0, message := none } := by
  simp [State.position, h]

theorem State.position_eq_none {s : State} : s.position = none ↔ s.seq = .ready := by
  unfold State.position
  cases s.seq <;> simp

/-- Settles O12: the sequencer is written by `enter` and at the return only, so between them the position moves with the
history. -/
theorem positionFollowsTheOperation : Obligations.PositionFollowsTheOperation := by
  intro s
  rw [← State.messageIndex_eq]
  refine ⟨State.position_eq_none, fun op => ?_, fun op start es hq hs => ?_, fun i t h => ?_, fun i why t h => ?_⟩
  · rw [State.position_running (enter_seq op s)]
    simp [State.messageIndex]
  · rw [State.position_running (op := op) (start := start) (by rw [emits_seq, hq])]
    simp [State.messageIndex]
    omega
  · rcases (exec_next.1 h).seq with hq | ⟨ha, hq⟩
    · exact .inl (State.position_eq_none.2 hq)
    · exact .inr ⟨hq, ha, State.position_lockWait hq⟩
  · rcases exec_refused h with rfl | ⟨ha, rfl⟩
    · exact .inl rfl
    · refine .inr ⟨ha, ?_⟩
      rw [State.position_running (op := i.op) (start := s.trace.length) rfl]
      simp [State.messageIndex, emit]

end Sys2Proof.Machine
end

section
/-! SUPPORT. What the events write (R28). -/

namespace Sys2Proof.Machine

/-- Settles O13: every operation grows the history (`Exec.grown`), and one event writes one register at most. -/
theorem pinsFollowTheHistory : Obligations.PinsFollowTheHistory := by
  refine ⟨fun i s t h => (exec_next.1 h).grown, fun e es p l => ?_⟩
  cases e <;> exact ⟨rfl, rfl⟩

end Sys2Proof.Machine
end

section
/-! SUPPORT. An ill-formed descriptor (R38). -/

namespace Sys2Proof.Machine

/-- A descriptor that fails R38 is refused by the check for one of its three reasons. -/
theorem checkMsg_illFormed {p : Params} {m : Msg}
    (h : (∃ k, m.flags.testBit k = true ∧ p.allFlags.testBit k = false) ∨
      (is10bit p m = false ∧ 0x7F < m.addr) ∨
      (0 < m.len ∧ (m.buf = none ∨ ∃ b, m.buf = some b ∧ b.size < m.len))) :
    ∃ r, checkMsg p m = some r ∧ (r = .badFlags ∨ r = .badAddr7 ∨ r = .badBuf) := by
  rw [← badFlags_iff, ← badBuf_iff] at h
  unfold checkMsg
  split
  · exact ⟨_, rfl, .inl rfl⟩
  split
  · exact ⟨_, rfl, .inr (.inl rfl)⟩
  split
  · exact ⟨_, rfl, .inr (.inr rfl)⟩
  · simp_all [badAddr7]

/-- Settles O35: the check of the descriptor, and that of a list that holds it, answer one of the three reasons, and every
operation makes them before its first event. -/
theorem illFormedDescriptorIsRefused : Obligations.IllFormedDescriptorIsRefused := by
  intro s m ms cap hbad hm
  obtain ⟨r1, h1, hr1⟩ := checkMsg_illFormed hbad
  obtain ⟨r2, h2, hr2⟩ := checkMsgs_mem (p := s.par) hm (by simp [h1])
  refine ⟨r1, r2, hr1, hr2, fun hb => ⟨?_, ?_, ?_⟩, fun hb => ?_, ?_⟩
  · simp [exec, execAddrPhase, hb, h1, refuse]
  · simp [exec, execSendBytes, hb, h1, refuse]
  · simp [exec, execRecvBytes, hb, h1, refuse]
  · simp [exec, execXfer, hb, h2, refuse]
  · exact transfer_illFormed h2

end Sys2Proof.Machine
end

section
/-! SUPPORT. A step under a budget of capability calls (R180). -/

namespace Sys2Proof.Machine

theorem throughCall_isPrefix (n : Nat) (es : List Event) : throughCall n es <+: es := by
  induction es generalizing n with
  | nil => simp [throughCall]
  | cons e es ih =>
    unfold throughCall
    split
    · cases n <;> simp [ih]
    · simp [ih]

/-- A history cut at one of its calls holds the calls up to it. -/
theorem callCount_throughCall {n : Nat} {es : List Event} (h : n < callCount es) :
    callCount (throughCall n es) = n + 1 := by
  induction es generalizing n with
  | nil => simp [callCount] at h
  | cons e es ih =>
    unfold throughCall
    cases he : e.isCall with
    | true =>
      cases n with
      | zero => simp [callCount, he]
      | succ n =>
        have h' : n < callCount es := by simpa [callCount, he] using h
        have := ih h'
        simp_all [callCount]
    | false =>
      have h' : n < callCount es := by simpa [callCount, he] using h
      have := ih h'
      simp_all [callCount]

/-- Taking a command changes the queue it comes from only. -/
theorem NextUp.keeps {s u : State} {i : Instr} (h : NextUp s i u) : u.trace = s.trace ∧ u.callsLeft = s.callsLeft := by
  cases h <;> exact ⟨rfl, rfl⟩

/-- A refusal leaves no TRANSFER at its error callback. -/
theorem exec_refused_frames {i : Instr} {s t : State} {why : Reason} (h : exec i s = .refused (.refuse why t)) :
    t.frames = s.frames := by
  rcases exec_refused h with rfl | ⟨-, rfl⟩ <;> rfl

/-- Stuck in call number `n`: the history of the fault is cut at that call. -/
theorem stuck_history {n : Nat} {i : Instr} {s t : State} (h : n < callCount t.trace - callCount s.trace) :
    ∃ hist, stuck n i s t = .fault (.capabilityCallNeverReturns hist (.running i.op s.trace.length)) ∧
      hist <+: t.trace ∧ callCount hist = callCount s.trace + n + 1 :=
  ⟨_, rfl, throughCall_isPrefix _ _, callCount_throughCall (by omega)⟩

section
variable {n : Nat} {i : Instr} {s t : State} {why : Reason} (hn : s.callsLeft = some n)
include hn

theorem runInstr_next_within (ht : exec i s = .next t) (h : callsReturned s t ≤ n) :
    runInstr i s = .next { t with callsLeft := some (n - callsReturned s t) } := by
  simp [runInstr, runBudgeted, hn, ht, h]

theorem runInstr_next_beyond (ht : exec i s = .next t) (h : n < callsReturned s t) : runInstr i s = stuck n i s t := by
  simp [runInstr, runBudgeted, hn, ht, Nat.not_le.2 h]

theorem runInstr_refused_within (ht : exec i s = .refused (.refuse why t)) (h : callsReturned s t ≤ n) :
    runInstr i s = .refused (.refuse why t) := by
  simp [runInstr, runBudgeted, hn, ht, h]

theorem runInstr_refused_beyond (ht : exec i s = .refused (.refuse why t)) (h : n < callsReturned s t) :
    runInstr i s = stuck n i s t := by
  simp [runInstr, runBudgeted, hn, ht, Nat.not_le.2 h]

end

/-- Settles O10: a step is `runInstr` of what is next, which under a budget compares the calls the operation made with it. -/
theorem stepRunsTheDecodedOperation : Obligations.StepRunsTheDecodedOperation := by
  intro s u i hr hn
  obtain ⟨htr, hcl⟩ := hn.keeps
  rw [step_run hr hn, ← htr, ← hcl]
  refine ⟨fun h => by simp [runInstr, h], fun n h => ⟨fun t ht => ⟨fun hle => ?_, fun hlt => ?_⟩,
    fun why t ht => ?_⟩⟩
  · exact runInstr_next_within h ht hle
  · rw [runInstr_next_beyond h ht hlt]
    exact stuck_history (by omega)
  · have made : callsReturned u t = callCount t.trace - callCount u.trace := by
      simp [callsReturned, exec_refused_frames ht]
    refine ⟨fun hle => runInstr_refused_within h ht (made ▸ hle), fun hlt => ?_⟩
    rw [runInstr_refused_beyond h ht (made ▸ hlt)]
    exact stuck_history hlt

end Sys2Proof.Machine
end

section
/-! SUPPORT. Conformance modulo delays (R30): `conforms` decides `Delayed`, and delays move nothing but time. -/

namespace Sys2Proof.Machine

theorem conforms_refl (es : List Event) : conforms es es = true := by
  induction es with
  | nil => rfl
  | cons e es ih => cases e <;> simp [conforms, ih]

/-- A longer DELAY conforms where a shorter one does. -/
theorem conforms_longer_head {rule post : List Event} {t u : Nat} (htu : t ≤ u)
    (h : conforms rule (.delay t :: post) = true) : conforms rule (.delay u :: post) = true := by
  cases rule with
  | nil => exact h
  | cons r rule =>
    cases r with
    | delay t' =>
      simp only [conforms, Bool.or_eq_true, Bool.and_eq_true, decide_eq_true_eq] at h ⊢
      exact h.imp_left fun ⟨hle, h⟩ => ⟨hle.trans htu, h⟩
    | _ => simpa [conforms, isDelay] using h

/-- An event of the implementation is the rule's next, or a DELAY beside it; the rest conforms to what is left. -/
theorem conforms_cons_mono {rule impl impl' : List Event} {x : Event}
    (hrest : ∀ rule', conforms rule' impl = true → conforms rule' impl' = true)
    (h : conforms rule (x :: impl) = true) : conforms rule (x :: impl') = true := by
  cases rule with
  | nil =>
    simp only [conforms, Bool.and_eq_true] at h ⊢
    exact ⟨h.1, hrest _ h.2⟩
  | cons r rule =>
    simp only [conforms, Bool.or_eq_true, Bool.and_eq_true] at h ⊢
    exact h.imp (fun h => ⟨h.1, hrest _ h.2⟩) (fun h => ⟨h.1, hrest _ h.2⟩)

theorem conforms_insert_delay (pre : List Event) {rule post : List Event} {t : Nat}
    (h : conforms rule (pre ++ post) = true) : conforms rule (pre ++ .delay t :: post) = true := by
  induction pre generalizing rule with
  | nil => cases rule <;> simp_all [conforms, isDelay]
  | cons x pre ih => exact conforms_cons_mono (fun _ => ih) h

theorem conforms_longer (pre : List Event) {rule post : List Event} {t u : Nat} (htu : t ≤ u)
    (h : conforms rule (pre ++ .delay t :: post) = true) : conforms rule (pre ++ .delay u :: post) = true := by
  induction pre generalizing rule with
  | nil => exact conforms_longer_head htu h
  | cons x pre ih => exact conforms_cons_mono (fun _ => ih) h

theorem Delayed.conforms {rule impl : List Event} (h : Delayed rule impl) : conforms rule impl = true := by
  induction h with
  | same => exact conforms_refl rule
  | inserted pre post t _ ih => exact conforms_insert_delay pre ih
  | longer pre post t u htu _ ih => exact conforms_longer pre htu ih

theorem Delayed.cons (e : Event) {rule impl : List Event} (h : Delayed rule impl) : Delayed (e :: rule) (e :: impl) := by
  induction h with
  | same => exact .same
  | inserted pre post t _ ih => exact .inserted (e :: pre) post t ih
  | longer pre post t u htu _ ih => exact .longer (e :: pre) post t u htu ih

theorem Delayed.before {e : Event} {rule impl : List Event} (he : isDelay e = true) (h : Delayed rule impl) :
    Delayed rule (e :: impl) := by
  cases e <;> simp only [isDelay, reduceCtorEq] at he
  exact .inserted [] impl _ h

theorem Delayed.of_conforms {rule impl : List Event} (h : Machine.conforms rule impl = true) : Delayed rule impl := by
  induction impl generalizing rule with
  | nil =>
    cases rule with
    | nil => exact .same
    | cons r rule => simp [Machine.conforms] at h
  | cons e impl ih =>
    cases rule with
    | nil =>
      simp only [Machine.conforms, Bool.and_eq_true] at h
      exact (ih h.2).before h.1
    | cons r rule =>
      simp only [Machine.conforms, Bool.or_eq_true, Bool.and_eq_true] at h
      rcases h with ⟨hre, h⟩ | ⟨he, h⟩
      · split at hre
        · exact .longer [] impl _ _ (of_decide_eq_true hre) ((ih h).cons _)
        · exact of_decide_eq_true hre ▸ (ih h).cons _
      · exact (ih h).before he

/-- The events other than DELAY. -/
def undelayed (es : List Event) : List Event := es.filter fun e => !isDelay e

theorem Delayed.undelayed {rule impl : List Event} (h : Delayed rule impl) :
    undelayed impl = Machine.undelayed rule := by
  induction h with
  | same => rfl
  | inserted pre post t _ ih => simpa [Machine.undelayed, isDelay] using ih
  | longer pre post t u _ _ ih => simpa [Machine.undelayed, isDelay] using ih

theorem minDuration_append (a b : List Event) : minDuration (a ++ b) = minDuration a + minDuration b := by
  induction a with
  | nil => simp [minDuration]
  | cons e a ih => cases e <;> simp [minDuration, ih, Nat.add_assoc]

theorem Delayed.minDuration_le {rule impl : List Event} (h : Delayed rule impl) :
    minDuration rule ≤ minDuration impl := by
  induction h with
  | same => exact Nat.le_refl _
  | inserted pre post t _ ih => simp only [minDuration_append, minDuration] at ih ⊢; omega
  | longer pre post t u htu _ ih => simp only [minDuration_append, minDuration] at ih ⊢; omega

/-! ### What delays do not change -/

theorem pinsAfter_undelayed (es : List Event) (p : Pins) : pinsAfter (undelayed es) p = pinsAfter es p := by
  unfold pinsAfter undelayed
  induction es generalizing p with
  | nil => rfl
  | cons e es ih => cases e <;> exact ih _

theorem clockCount_undelayed (es : List Event) : clockCount (undelayed es) = clockCount es := by
  unfold clockCount undelayed
  rw [List.countP_filter]
  congr 1
  funext e
  cases e <;> simp [isDelay]

theorem sampleCount_undelayed (es : List Event) : sampleCount (undelayed es) = sampleCount es := by
  unfold sampleCount undelayed
  rw [List.countP_filter]
  congr 1
  funext e
  cases e <;> simp [isDelay]

/-- Lines that do not move make no condition. -/
@[simp] theorem conditionBetween_self (eff : Bool) (b : Bus) : conditionBetween eff b b = [] := by
  unfold conditionBetween
  cases b.sda eff <;> simp

theorem conditions_undelayed (eff : Bool) (es : List Event) (p : Pins) :
    conditions eff p (undelayed es) = conditions eff p es := by
  induction es generalizing p with
  | nil => rfl
  | cons e es ih =>
    cases e with
    | delay t => simpa [undelayed, isDelay, Event.onPins] using ih p
    | _ => simpa [undelayed, isDelay] using ih _

/-- Settles O59: a conforming history is `Delayed`, so it has the same events other than DELAY, and what it shows is what
those events show. -/
theorem conformanceIgnoresDelays : Obligations.ConformanceIgnoresDelays := by
  refine ⟨fun rule impl => ⟨Delayed.of_conforms, Delayed.conforms⟩,
    fun rule impl h => ⟨(Delayed.of_conforms h).undelayed, (Delayed.of_conforms h).minDuration_le⟩, fun i s t h => ?_⟩
  obtain ⟨es, htr, hpins, -⟩ := (exec_next.1 h).grown
  refine ⟨es, htr, fun impl hc => ?_⟩
  have hu := (Delayed.of_conforms hc).undelayed
  refine ⟨?_, ?_, ?_, fun eff => ?_⟩
  · rw [hpins, ← pinsAfter_undelayed impl, hu, pinsAfter_undelayed]
  · rw [← clockCount_undelayed impl, hu, clockCount_undelayed]
  · rw [← sampleCount_undelayed impl, hu, sampleCount_undelayed]
  · rw [← conditions_undelayed eff impl, hu, conditions_undelayed]

end Sys2Proof.Machine
end

section
/-! SUPPORT. XFER's message index (R24, R141, R152). -/

namespace Sys2Proof.Machine

/-- Inside XFER's message loop, run in the operation `op` that began at event `start`: the bus held with SCL low, ENG not
Idle (R21). -/
structure InLoop (op : Op) (start : Nat) (s : State) : Prop where
  seq : s.seq = .running op start
  bus : s.bus = .busHeld
  scl : s.pins.sclOut = false
  eng : s.eng ≠ .idle

theorem addressMsg_eng (m : Msg) {s : State} (hb : s.bus = .busHeld) :
    (addressMsg m s).2.eng = if noStart s.par m then s.eng else .addressing := by
  simp only [addressMsg]
  split
  · rfl
  · have hr : (if s.dp.i ≠ 0 then restartOp s else s).bus = .busHeld := by split <;> exact hb
    exact (addrPhaseOp_held m (s := setEng .addressing _) hr).eng

theorem dataMsg_eng (m : Msg) {s : State} (hb : s.bus = .busHeld) (hc : s.pins.sclOut = false) :
    (dataMsg m s).eng = .transferring := by
  simp only [dataMsg]
  split
  · exact (recvBytesOp_held m (s := setEng .transferring s) hb hc).eng
  · exact (sendBytesOp_held m (s := setEng .transferring s) hb hc).eng

theorem serviceMsg_eng (m : Msg) {s : State} (hb : s.bus = .busHeld) (hc : s.pins.sclOut = false) (he : s.eng ≠ .idle) :
    (serviceMsg m s).2.eng ≠ .idle := by
  obtain ⟨h1, -, -⟩ := addressMsg_serving m hb hc
  simp only [serviceMsg]
  split
  · rw [addressMsg_eng m hb]
    split
    · exact he
    · simp
  · split
    · rw [dataMsg_eng m h1.bus h1.scl]; simp
    · simp

section
variable {op : Op} {start : Nat} {s : State}

theorem InLoop.serviceMsg (m : Msg) (h : InLoop op start s) : InLoop op start (serviceMsg m s).2 :=
  have hs := (serviceMsg_serving m h.bus h.scl).1
  ⟨hs.seq.trans h.seq, hs.bus, hs.scl, serviceMsg_eng m h.bus h.scl h.eng⟩

theorem InLoop.position (h : InLoop op start s) :
    s.position = some { op := op, done := s.trace.length - start, message := some s.dp.i } := by
  rw [State.position_running h.seq, State.messageIndex_eq, if_neg h.eng]

theorem InLoop.states (ms : List Msg) (h : InLoop op start s) : ∀ v ∈ loopStates ms s, InLoop op start v := by
  induction ms generalizing s with
  | nil => simpa [loopStates] using h
  | cons m ms ih =>
    have h1 := h.serviceMsg m
    simp only [loopStates, List.mem_cons]
    rintro v (rfl | hv)
    · exact h
    · split at hv <;> rename_i he <;> rw [he] at h1
      · exact List.mem_singleton.1 hv ▸ h1
      · exact ih h1 v hv

/-- The index along the loop: it counts up from where it stands by ones, and an abort repeats the last. -/
theorem InLoop.index (ms : List Msg) (h : InLoop op start s) :
    ∃ n last, n ≤ ms.length ∧
      (loopStates ms s).map (fun v => v.dp.i) =
        List.range' s.dp.i (n + 1) ++ (if n = ms.length then [] else [s.dp.i + n]) ∧
      (loopStates ms s).getLast? = some last ∧ xferLoop ms s = exitOp last ∧ last.dp.i = s.dp.i + n := by
  induction ms generalizing s with
  | nil => exact ⟨0, s, by simp [loopStates, xferLoop]⟩
  | cons m ms ih =>
    have h1 := h.serviceMsg m
    obtain ⟨-, hi, -⟩ := serviceMsg_serving m h.bus h.scl
    rcases he : Machine.serviceMsg m s with ⟨_ | a, t⟩ <;> simp only [he, reduceCtorEq, if_true, if_false] at h1 hi
    · obtain ⟨n, last, hn, hmap, hlast, hx, hl⟩ := ih h1
      refine ⟨n + 1, last, by simpa using hn, ?_, ?_, ?_, by omega⟩
      · rw [List.range'_succ]
        simp [loopStates, he, hmap, hi, Nat.add_assoc, Nat.add_comm 1]
      · simp [loopStates, he, hlast, List.getLast?_cons]
      · simp [xferLoop, he, hx]
    · exact ⟨0, t, by simp [loopStates, xferLoop, raiseAbort, he, hi]⟩

theorem openLoop_inLoop (h : s.seq = .running op start) : InLoop op start (openLoop (startOp s)) :=
  ⟨h, rfl, rfl, by simp⟩

end

/-- Settles O60: every state of the loop is `InLoop`, whose index `InLoop.index` counts from 0, and EXIT leaves ENG Idle with
the last index for the result. -/
theorem messageIndexCountsTheMessages : Obligations.MessageIndexCountsTheMessages := by
  intro s op start ms hq
  have h := openLoop_inLoop hq
  refine ⟨fun v hv => (h.states ms v hv).position, ?_⟩
  obtain ⟨n, last, hn, hmap, hlast, hx, hl⟩ := h.index ms
  have hi : (openLoop (startOp s)).dp.i = 0 := rfl
  rw [hi, Nat.zero_add] at hl
  rw [hi, Nat.zero_add, ← List.range_eq_range'] at hmap
  have hxe := xferOp_exited ms s
  refine ⟨n, last, hn, hmap, hlast, hx, ?_, ?_⟩
  · rw [xferOp, hx]; exact hl
  · rw [State.position_running (hxe.seq.trans hq), State.messageIndex_eq, if_pos hxe.eng]

end Sys2Proof.Machine
end

section
/-! SUPPORT. No operation reads what an earlier one left in the datapath registers (R17). -/

namespace Sys2Proof.Machine

section
variable {s t : State} (h : Alike s t)
include h

theorem Alike.on_waitAck_ackf : (waitAckOp t).dp.ackf = (waitAckOp s).dp.ackf := by simp [waitAckOp_eq, h.ans]

theorem Alike.on_writeByte_ackf (b : Byte) : (writeByteOp b t).dp.ackf = (writeByteOp b s).dp.ackf := by
  simp [writeByteOp_ackf, h.ans]

theorem Alike.on_readByte_shift : (readByteOp t).dp.shift = (readByteOp s).dp.shift := by
  simp [readByteOp_eq, h.on_sampledByte]

theorem Alike.on_setSeq (q : Seq) : Alike { s with seq := q } { t with seq := q } := { h with seq := rfl }

theorem Alike.on_errorCallback (cap : CapHandle) (ms : List Msg) (n : Nat) :
    Alike (errorCallback cap ms n s) (errorCallback cap ms n t) := by
  have h1 : Alike { emit (.errorCallback cap) s with callbacks := s.callbacks.tail }
      { emit (.errorCallback cap) t with callbacks := t.callbacks.tail } :=
    { h.on_emits [.errorCallback cap] with callbacks := by rw [h.callbacks] }
  unfold errorCallback
  rw [h.callbacks] at h1 ⊢
  cases s.callbacks.headD [] with
  | nil => exact h1.on_leave _
  | cons c cs =>
    exact { h1.on_finish with frames := by simp [h.seq, h.frames] }

theorem Alike.on_transferOp (cap : CapHandle) (ms : List Msg) : Alike (transferOp cap ms s) (transferOp cap ms t) := by
  obtain ⟨h1, hr⟩ := h.on_xfer ms
  have h2 : Alike (emit .lockRelease (xferOp ms s)) (emit .lockRelease (xferOp ms t)) := h1.on_emits _
  have hr2 : (emit .lockRelease (xferOp ms t)).dp.result = (emit .lockRelease (xferOp ms s)).dp.result := hr
  simp only [transferOp, hr2]
  split
  · exact h2.on_leave _
  · exact h2.on_errorCallback _ _ _

theorem Alike.on_transfer {i : Instr} {cap : CapHandle} {ms : List Msg} {u : State} (hx : transfer i cap ms s = .next u) :
    ∃ v, transfer i cap ms t = .next v ∧ Alike u v := by
  have hl : lockBlocked t = lockBlocked s := by simp [lockBlocked, h.par, h.mutexOther]
  obtain ⟨hc, ⟨hw, rfl⟩ | ⟨hf, hb, rfl⟩⟩ := transfer_next hx
  · exact ⟨_, transfer_waits (h.par ▸ hc) (hl.trans hw), h.on_setSeq _⟩
  · exact ⟨_, transfer_runs (h.par ▸ hc) (hl.trans hf) (h.bus.trans hb),
      ((h.on_enter i.op).on_emits [.lockAcquire]).on_transferOp _ _⟩

end

/-- Two states that differ in the datapath registers and in how the answers are held run every operation alike. -/
theorem Alike.on_exec {i : Instr} {s t u : State} (h : Alike s t) (hx : Exec i s u) : ∃ v, Exec i t v ∧ Alike u v := by
  cases hx with
  | start hb => exact ⟨_, .start (h.bus.trans hb), (h.on_enter _).on_start.on_finish⟩
  | restart hb => exact ⟨_, .restart (h.bus.trans hb), (h.on_enter _).on_restart.on_finish⟩
  | stop hb => exact ⟨_, .stop (h.bus.trans hb), (h.on_enter _).on_stop.on_finish⟩
  | waitAck hb =>
    refine ⟨_, .waitAck (h.bus.trans hb), ?_⟩
    rw [(h.on_enter _).on_waitAck_ackf]
    exact (h.on_enter _).on_waitAck.on_leave _
  | writeByte hb =>
    refine ⟨_, .writeByte (h.bus.trans hb), ?_⟩
    rw [(h.on_enter _).on_writeByte_ackf]
    exact ((h.on_enter _).on_writeByte _).on_leave _
  | readByte hb =>
    refine ⟨_, .readByte (h.bus.trans hb), ?_⟩
    rw [(h.on_enter _).on_readByte_shift]
    exact (h.on_enter _).on_readByte.on_leave _
  | sendAck hb => exact ⟨_, .sendAck (h.bus.trans hb), ((h.on_enter _).on_sendAck _).on_finish⟩
  | sendAddr hb =>
    refine ⟨_, .sendAddr (h.bus.trans hb), ?_⟩
    rw [(h.on_enter _).on_sendAddr_ackf]
    exact ((h.on_enter _).on_sendAddr _ _).on_leave _
  | @addrPhase _ m hb hc =>
    obtain ⟨hok, ha⟩ := (h.on_enter .addrPhase).on_addrPhase m
    refine ⟨_, .addrPhase (h.bus.trans hb) (h.par ▸ hc), ?_⟩
    rw [hok]
    exact ha.on_leave _
  | @sendBytes _ m hb hc hr =>
    obtain ⟨ha, hn⟩ := (h.on_enter .sendBytes).on_sendBytes m
    refine ⟨_, .sendBytes (h.bus.trans hb) (h.par ▸ hc) (h.par ▸ hr), ?_⟩
    rw [hn]
    exact ha.on_leave _
  | @recvBytes _ m hb hc hr =>
    obtain ⟨ha, hn⟩ := (h.on_enter .recvBytes).on_recvBytes m
    refine ⟨_, .recvBytes (h.bus.trans hb) (h.par ▸ hc) (h.par ▸ hr), ?_⟩
    rw [hn]
    exact ha.on_leave _
  | @xfer _ ms hb hc =>
    obtain ⟨ha, hn⟩ := (h.on_enter .xfer).on_xfer ms
    refine ⟨_, .xfer (h.bus.trans hb) (h.par ▸ hc), ?_⟩
    rw [hn]
    exact ha.on_leave _
  | api hl hx =>
    obtain ⟨v, hv, ha⟩ := h.on_transfer hx
    exact ⟨v, .api (h.par ▸ hl) hv, ha⟩

/-- Alike states are the same but for the datapath registers and how the answers are held. -/
theorem Alike.eq {s t : State} (h : Alike s t) : t = { s with dp := t.dp, sdaIn := t.sdaIn, draws := t.draws } := by
  obtain ⟨h1, h2, h3, h4, h5, h6, h7, h8, h9, h10, h11, h12, h13, h14, h15, h16, h17, -⟩ := h
  cases t
  simp_all

theorem Alike.observe {s t : State} (h : Alike s t) : observe t = observe s := by
  simp [Machine.observe, h.trace, h.mem, h.results]

/-- Settles O58: the two states are `Alike`, and `Alike` states run every operation alike. -/
theorem datapathLeftoversAreNeverRead : Obligations.DatapathLeftoversAreNeverRead := by
  intro i s t d ans n hans hx
  have h : Alike s { s with dp := d, sdaIn := ans, draws := n } :=
    ⟨rfl, rfl, rfl, rfl, rfl, rfl, rfl, rfl, rfl, rfl, rfl, rfl, rfl, rfl, rfl, rfl, rfl, hans⟩
  obtain ⟨t', hx', ha⟩ := h.on_exec (exec_next.1 hx)
  exact ⟨t', exec_next.2 hx', ha.observe, ha.eq, ha.ans⟩

end Sys2Proof.Machine
end

section
/-! SUPPORT. The conditions and the data bits on the lines (R43). -/

namespace Sys2Proof.Machine

/-- A move makes a data bit exactly when it is a SCL_SET(1) from SCL at 0, and then SDA stands as it did. -/
theorem dataBits_single (eff : Bool) (a : Bus) (x : BusMove) :
    dataBits eff a [x] = if x = .block (.sclSet true) ∧ a.pins.sclOut = false then [a.sda eff] else [] := by
  have noRise (h : (!a.scl && (x.on a).scl) = false) : dataBits eff a [x] = [] := by simp [dataBits, h]
  cases x with
  | slave v => exact (noRise (Bool.not_and_self _)).trans (by simp)
  | block e =>
    cases e with
    | sclSet v =>
      cases v with
      | false => exact (noRise (Bool.and_false _)).trans (by simp)
      | true =>
        have hscl : (BusMove.on (.block (.sclSet true)) a).scl = true := rfl
        have hsda : (BusMove.on (.block (.sclSet true)) a).sda eff = a.sda eff := rfl
        rw [dataBits, hscl, hsda]
        simp [dataBits, Bus.scl, sclLine]
    | _ => exact (noRise (Bool.not_and_self _)).trans (by simp)

/-- The SDA line level (R42): the slave's, and the latch's unless the pin is switched to an input. -/
theorem Bus.sda_eq (eff : Bool) (b : Bus) :
    b.sda eff = (b.slave && (b.pins.sdaOut || (eff && decide (b.pins.sdaDir = .input)))) := by
  simp only [Bus.sda, sdaLine, masterSda]
  rw [Bool.and_comm]
  cases eff <;> cases b.pins.sdaDir <;> simp

/-- The condition between two moments, by the four levels it depends on (R43). -/
theorem conditionBetween_eq (eff : Bool) (a b : Bus) :
    conditionBetween eff a b =
      if a.pins.sclOut = true ∧ b.pins.sclOut = true then
        if a.sda eff = true ∧ b.sda eff = false then [.startCondition]
        else if a.sda eff = false ∧ b.sda eff = true then [.stopCondition] else []
      else [] := by
  simp [conditionBetween, Bus.scl, sclLine]

/-- Settles O29: the four levels of `conditionBetween_eq` decide which of the three cases it is. -/
theorem lineChangesAreConditions : Obligations.LineChangesAreConditions := by
  intro eff a b x
  refine ⟨Bus.sda_eq eff b, ?_, ?_, ?_, dataBits_single eff a x⟩
  all_goals
    rw [conditionBetween_eq]
    by_cases hscl : a.pins.sclOut = true ∧ b.pins.sclOut = true
    · cases a.sda eff <;> cases b.sda eff <;> simp [hscl]
    · simp only [if_neg hscl]
      grind

end Sys2Proof.Machine
end

section
/-! SUPPORT. The data bits of the byte engine (R107 to R110), with a slave that answers. -/

namespace Sys2Proof.Machine

/-- Moves that show the bits `bits`, no condition and only samples that are the SDA line level, and leave the lines at `b'`. -/
structure Clocked (eff : Bool) (b : Bus) (xs : List BusMove) (bits : List Level) (b' : Bus) : Prop where
  bits : dataBits eff b xs = bits
  steady : conditionsOn eff b xs = []
  samples : samplesLine eff b xs = true
  after : busAfter xs b = b'

section
variable {eff : Bool}

theorem dataBits_append (b : Bus) (xs ys : List BusMove) :
    dataBits eff b (xs ++ ys) = dataBits eff b xs ++ dataBits eff (busAfter xs b) ys := by
  induction xs generalizing b with
  | nil => rfl
  | cons x xs ih => simp [dataBits, ih, busAfter]

theorem conditionsOn_append (b : Bus) (xs ys : List BusMove) :
    conditionsOn eff b (xs ++ ys) = conditionsOn eff b xs ++ conditionsOn eff (busAfter xs b) ys := by
  induction xs generalizing b with
  | nil => rfl
  | cons x xs ih => simp [conditionsOn, ih, busAfter]

/-- A sample is checked against the line, and no move but a sample is checked. -/
theorem samplesLine_cons (b : Bus) (x : BusMove) (xs : List BusMove) :
    samplesLine eff b (x :: xs) = (samplesLine eff b [x] && samplesLine eff (x.on b) xs) := by
  cases x with
  | slave v => simp [samplesLine]
  | block e => cases e <;> simp [samplesLine, BusMove.on, Event.onPins]

theorem samplesLine_append (b : Bus) (xs ys : List BusMove) :
    samplesLine eff b (xs ++ ys) = (samplesLine eff b xs && samplesLine eff (busAfter xs b) ys) := by
  induction xs generalizing b with
  | nil => rfl
  | cons x xs ih => rw [List.cons_append, samplesLine_cons, ih, samplesLine_cons b x xs, Bool.and_assoc]; rfl

theorem Clocked.append {b c d : Bus} {xs ys : List BusMove} {u v : List Level} (h : Clocked eff b xs u c)
    (g : Clocked eff c ys v d) : Clocked eff b (xs ++ ys) (u ++ v) d where
  bits := by rw [dataBits_append, h.bits, h.after, g.bits]
  steady := by rw [conditionsOn_append, h.steady, h.after, g.steady]; rfl
  samples := by rw [samplesLine_append, h.samples, h.after, g.samples]; rfl
  after := by rw [← g.after, ← h.after]; simp [busAfter]

/-! ### The primitives of the byte engine, with the slave's answers -/

theorem Clocked.waitAck (o : Level) (d : Dir) (v : Level) :
    Clocked eff ⟨⟨false, o, d⟩, true⟩ (answered (waitAckEvents v)) [v] ⟨⟨false, true, .input⟩, true⟩ := by
  cases eff <;> cases o <;> cases d <;> cases v <;> exact ⟨rfl, rfl, rfl, rfl⟩

theorem Clocked.sendAck (o : Level) (d : Dir) (h : Nat) (ack : Bool) :
    Clocked eff ⟨⟨false, o, d⟩, true⟩ (answered (sendAckEvents h ack)) [if ack then false else o]
      ⟨⟨false, if ack then false else o, .out⟩, true⟩ := by
  cases eff <;> cases o <;> cases d <;> cases ack <;> exact ⟨rfl, rfl, rfl, rfl⟩

/-- The data clocks of READ_BYTE, each answered (R109). -/
theorem Clocked.bitsIn (us : Nat) (vs : List Level) :
    Clocked eff ⟨⟨false, true, .input⟩, true⟩ (answered (vs.flatMap (bitInEvents us))) vs
      ⟨⟨false, true, .input⟩, true⟩ := by
  induction vs with
  | nil => exact ⟨rfl, rfl, rfl, rfl⟩
  | cons v vs ih =>
    have one : Clocked eff ⟨⟨false, true, .input⟩, true⟩ (answered (bitInEvents us v)) [v]
        ⟨⟨false, true, .input⟩, true⟩ := by
      cases eff <;> cases v <;> exact ⟨rfl, rfl, rfl, rfl⟩
    exact one.append ih

theorem Clocked.readByte (o : Level) (d : Dir) (us : Nat) (vs : List Level) :
    Clocked eff ⟨⟨false, o, d⟩, true⟩ (answered (readByteEvents us vs)) vs ⟨⟨false, true, .input⟩, true⟩ := by
  have release : Clocked eff ⟨⟨false, o, d⟩, true⟩ [.block .sdaDirIn, .block (.sdaSet true)] []
      ⟨⟨false, true, .input⟩, true⟩ := by
    cases eff <;> cases o <;> cases d <;> exact ⟨rfl, rfl, rfl, rfl⟩
  exact release.append (Clocked.bitsIn us vs)

/-- The data clocks of WRITE_BYTE (R108), then what follows them. They end with SCL high, and the next event takes it low. -/
theorem Clocked.bitsOut (h : Nat) {es : List Event} {u : List Level} {b : Bus}
    (rest : ∀ c o, Clocked eff ⟨⟨c, o, .out⟩, true⟩ (answered es) u b) (vs : List Level) (c o : Level) :
    Clocked eff ⟨⟨c, o, .out⟩, true⟩ (answered (vs.flatMap (bitOutEvents h) ++ es)) (vs ++ u) b := by
  induction vs generalizing c o with
  | nil => exact rest c o
  | cons v vs ih =>
    have one : Clocked eff ⟨⟨c, o, .out⟩, true⟩ (answered (bitOutEvents h v)) [v] ⟨⟨true, v, .out⟩, true⟩ := by
      cases eff <;> cases c <;> cases o <;> cases v <;> exact ⟨rfl, rfl, rfl, rfl⟩
    rw [List.flatMap_cons, List.append_assoc]
    exact one.append (ih true v)

theorem Clocked.writeByte (o : Level) (d : Dir) (h : Nat) (byte : Byte) (v : Level) :
    Clocked eff ⟨⟨false, o, d⟩, true⟩ (answered (writeByteEvents h byte v)) (msbFirst byte ++ [v])
      ⟨⟨false, true, .input⟩, true⟩ := by
  have turn : Clocked eff ⟨⟨false, o, d⟩, true⟩ [.block .sdaDirOut] [] ⟨⟨false, o, .out⟩, true⟩ := by
    cases eff <;> cases o <;> cases d <;> exact ⟨rfl, rfl, rfl, rfl⟩
  have fall (c o' : Level) : Clocked eff ⟨⟨c, o', .out⟩, true⟩ [.block (.sclSet false), .block (.delay h)] []
      ⟨⟨false, o', .out⟩, true⟩ := by
    cases eff <;> cases c <;> cases o' <;> exact ⟨rfl, rfl, rfl, rfl⟩
  have clocks := Clocked.bitsOut h (es := [.sclSet false, .delay h] ++ waitAckEvents v)
    (fun c o' => (fall c o').append (Clocked.waitAck o' .out v)) (msbFirst byte) false o
  exact turn.append clocks

end

/-- Settles O30: each primitive of the byte engine is `Clocked` from a held bus, and its history is the one R107 to R110
write. -/
theorem dataBitsOnTheWire : Obligations.DataBitsOnTheWire := by
  intro eff i s t hl hx
  have hx := exec_next.1 hx
  obtain ⟨es, htr, -, -⟩ := hx.grown
  have low (hb : s.bus = .busHeld) : s.pins = ⟨false, s.pins.sdaOut, s.pins.sdaDir⟩ := by rw [← hl.1 hb]
  cases hx with
  | @writeByte _ byte hb =>
    have h := Clocked.writeByte (eff := eff) s.pins.sdaOut s.pins.sdaDir (half s.us) byte (answerAt s 0)
    rw [← low hb] at h
    refine ⟨writeByteEvents (half s.us) byte (answerAt s 0), by simp [writeByteOp_eq], fun b hi => ?_, nofun, nofun, nofun⟩
    cases hi
    exact ⟨h.bits, h.steady, h.samples⟩
  | readByte hb =>
    have h := Clocked.readByte (eff := eff) s.pins.sdaOut s.pins.sdaDir s.us (answersFrom s 0 8)
    rw [← low hb] at h
    exact ⟨readByteEvents s.us (answersFrom s 0 8), by simp [readByteOp_eq, answersFrom], nofun,
      fun _ => ⟨h.bits, h.steady, h.samples⟩, nofun, nofun⟩
  | waitAck hb =>
    have h := Clocked.waitAck (eff := eff) s.pins.sdaOut s.pins.sdaDir (answerAt s 0)
    rw [← low hb] at h
    exact ⟨waitAckEvents (answerAt s 0), by simp [waitAckOp_eq], nofun, nofun, fun _ => ⟨h.bits, h.steady, h.samples⟩, nofun⟩
  | @sendAck _ ack hb =>
    have h := Clocked.sendAck (eff := eff) s.pins.sdaOut s.pins.sdaDir (half s.us) ack
    rw [← low hb] at h
    refine ⟨sendAckEvents (half s.us) ack, by simp [sendAckOp_eq], nofun, nofun, nofun, fun a hi => ?_⟩
    cases hi
    exact ⟨h.bits, h.steady, h.samples⟩
  | api ha _ =>
    refine ⟨es, htr, ?_, ?_, ?_, ?_⟩
    all_goals
      intros
      subst i
      simp [apiList] at ha
  | _ => exact ⟨es, htr, nofun, nofun, nofun, nofun⟩

end Sys2Proof.Machine
end

section
/-! SUPPORT. The moves of the world outside (R66, R207). -/

namespace Sys2Proof.Machine

theorem inBuffers_iff {ms : List Msg} {a : Nat} :
    inBuffers ms a = true ↔ ∃ m ∈ ms, ∃ j < m.len, a = cellAddr m j := by
  simp [inBuffers]

theorem mem_openMsgs_of_lockWait {s : State} {i : Instr} {cap : CapHandle} {ms : List Msg} {m : Msg}
    (hq : s.seq = .lockWait i) (ha : apiList s.par i = some (cap, ms)) (hm : m ∈ ms) : m ∈ openMsgs s := by
  simp [openMsgs, waitingMsgs, hq, ha, hm]

theorem mem_openMsgs_of_frame {s : State} {f : Frame} {m : Msg} (hf : f ∈ s.frames) (hm : m ∈ f.ms) : m ∈ openMsgs s :=
  List.mem_append_right _ (List.mem_flatMap.2 ⟨f, hf, hm⟩)

/-- A buffer is written from outside only where no operation runs and none that has begun holds the cell (R66). -/
theorem hostWrite_some {a : Nat} {v : Byte} {s t : State} (h : hostWrite a v s = some t) :
    (∀ op n, s.seq ≠ .running op n) ∧ inBuffers (openMsgs s) a = false ∧ t = { s with mem := Memory.write s.mem a v } := by
  unfold hostWrite at h
  split at h
  · cases h
  · rename_i hq
    split at h
    · cases h
    · rename_i hb
      exact ⟨hq, by simpa using hb, (Option.some.inj h).symm⟩

theorem hostWrite_ready {s : State} (a : Nat) (v : Byte) (hq : s.seq = .ready) (hf : s.frames = []) :
    hostWrite a v s = some { s with mem := Memory.write s.mem a v } := by
  simp [hostWrite, openMsgs, waitingMsgs, inBuffers, hq, hf]

theorem otherAcquires_some {s t : State} (h : otherAcquires s = some t) : t = { s with mutexOther := true } := by
  unfold otherAcquires at h
  split at h
  · cases h
  · exact (Option.some.inj h).symm

/-- What a host move can do: it writes only the port, the callbacks to come, the mutex of the other agent, the slave's answers,
the platform's calls, and at most one cell that no operation has borrowed. -/
theorem HostMove.changes {s t : State} (h : HostMove s t) : ∃ port callbacks mem mutexOther sdaIn callsLeft,
    t = { s with port, callbacks, mem, mutexOther, sdaIn, callsLeft } ∧
      (mem = s.mem ∨ ∃ a v, (∀ op n, s.seq ≠ .running op n) ∧ inBuffers (openMsgs s) a = false ∧
        mem = Memory.write s.mem a v) := by
  cases h with
  | write a v _ hw =>
    obtain ⟨hq, hb, rfl⟩ := hostWrite_some hw
    exact ⟨_, _, _, _, _, _, rfl, .inr ⟨a, v, hq, hb, rfl⟩⟩
  | otherAcquires _ ho =>
    obtain rfl := otherAcquires_some ho
    exact ⟨_, _, _, _, _, _, rfl, .inl rfl⟩
  | deliver | onError | fixAnswer | otherReleases | callsStop => exact ⟨_, _, _, _, _, _, rfl, .inl rfl⟩

theorem HostMove.mem_of_running {s t : State} {op : Op} {n : Nat} (h : HostMove s t) (hq : s.seq = .running op n) :
    t.mem = s.mem := by
  obtain ⟨_, _, _, _, _, _, rfl, hm | ⟨_, _, hr, -⟩⟩ := h.changes
  · exact hm
  · exact absurd hq (hr op n)

/-- The buffers of the operations that have begun are read as before. -/
theorem HostMove.read_open {s t : State} {m : Msg} {j : Nat} (h : HostMove s t) (hm : m ∈ openMsgs s) (hj : j < m.len) :
    Memory.read t.mem (cellAddr m j) = Memory.read s.mem (cellAddr m j) := by
  obtain ⟨_, _, _, _, _, _, rfl, rfl | ⟨a, v, -, hb, rfl⟩⟩ := h.changes
  · rfl
  · refine Memory.read_write_other v fun he => ?_
    exact Bool.eq_false_iff.1 hb (inBuffers_iff.2 ⟨m, hm, j, hj, he.symm⟩)

theorem HostMove.inv {s t : State} (h : HostMove s t) (hi : BlockInv s) : BlockInv t := by
  obtain ⟨_, _, mem, _, _, _, rfl, hm⟩ := h.changes
  have hw : Memory.wf mem = true := by
    rcases hm with rfl | ⟨a, v, -, -, rfl⟩
    · exact hi.mem
    · exact Memory.wf_write hi.mem a v
  exact ⟨hi.params, hi.us, hi.lines, hi.eng, hi.locked, hi.seq, hi.frames, hi.refused, hw, hi.counts⟩

/-- Settles O17: `HostMove.changes` says what a move writes, and a cell that it writes is none of an open operation. -/
theorem hostMovesSpareOpenOperations : Obligations.HostMovesSpareOpenOperations := by
  refine ⟨fun s t h => ?_, fun s a v hq hf => hostWrite_ready a v hq hf⟩
  have waiting : ∀ i cap ms m j, s.seq = .lockWait i → apiList s.par i = some (cap, ms) → m ∈ ms → j < m.len →
      Memory.read t.mem (cellAddr m j) = Memory.read s.mem (cellAddr m j) :=
    fun _ _ _ _ _ hq ha hm hj => h.read_open (mem_openMsgs_of_lockWait hq ha hm) hj
  have called : ∀ f m j, f ∈ s.frames → m ∈ f.ms → j < m.len →
      Memory.read t.mem (cellAddr m j) = Memory.read s.mem (cellAddr m j) :=
    fun _ _ _ hf hm hj => h.read_open (mem_openMsgs_of_frame hf hm) hj
  have running : ∀ op n, s.seq = .running op n → t.mem = s.mem := fun _ _ hq => h.mem_of_running hq
  have inv : BlockInv s → BlockInv t := h.inv
  obtain ⟨_, _, _, _, _, _, rfl, -⟩ := h.changes
  exact ⟨rfl, rfl, rfl, rfl, rfl, rfl, rfl, rfl, rfl, rfl, rfl, rfl, rfl, running, waiting, called, inv⟩

end Sys2Proof.Machine
end

section
/-! SUPPORT. What is written of buffer space (R46, R47). -/

namespace Sys2Proof.Machine

/-- Settles O40: the laws of `Memory.write`, at the cell and at the others. -/
theorem bufferReadAndWrite : Obligations.BufferReadAndWrite := by
  intro s a v
  refine ⟨rfl, memWrite_trace a v s, fun hw => ?_, fun c hc => ?_⟩ <;> rw [memWrite_mem]
  · exact ⟨Memory.wf_write hw a v, Memory.read_write_same hw a v⟩
  · exact Memory.read_write_other v hc

/-- A cell outside the buffers of the READ messages of a list: not one of the first LEN cells of any of them. -/
def OutsideReads (p : Params) (ms : List Msg) (a : Nat) : Prop :=
  ∀ m ∈ ms, isRead p m = true → ∀ j < m.len, a ≠ cellAddr m j

theorem ackedMem_read_outside {s : State} {m : Msg} {a : Nat} (k : Nat) (mem : Memory)
    (h : isRead s.par m = true → ∀ j < m.len, a ≠ cellAddr m j) :
    Memory.read (ackedMem s k mem m) a = Memory.read mem a := by
  unfold ackedMem
  split
  · rename_i hr
    refine List.foldlRecOn (motive := fun mem' => Memory.read mem' a = Memory.read mem a) _ _ rfl fun mem' ih j hj => ?_
    rw [Memory.read_write_other _ (h hr j (List.mem_range.1 hj)), ih]
  · rfl

theorem messageMem_read_outside {s : State} {m : Msg} {a : Nat} (k : Nat) (first : Bool) (mem : Memory)
    (h : isRead s.par m = true → ∀ j < m.len, a ≠ cellAddr m j) :
    Memory.read (messageMem s mem first m k) a = Memory.read mem a := by
  unfold messageMem
  dsimp only
  split
  · exact ackedMem_read_outside _ mem h
  · rfl

theorem xferRun_read_outside {s : State} {ms : List Msg} {a : Nat} (k : Nat) (first : Bool) (mem : Memory)
    (h : OutsideReads s.par ms a) : Memory.read (xferRun s k first mem ms).mem a = Memory.read mem a := by
  induction ms generalizing k first mem with
  | nil => rfl
  | cons m ms ih =>
    obtain ⟨hm, hms⟩ := List.forall_mem_cons.1 h
    have one := messageMem_read_outside k first mem hm
    simp only [xferRun]
    split
    · exact (ih _ _ _ hms).trans one
    · exact one

theorem xferOp_read_outside {s : State} {ms : List Msg} {a : Nat} (h : OutsideReads s.par ms a) :
    Memory.read (xferOp ms s).mem a = Memory.read s.mem a := by
  obtain ⟨-, -, hm, -⟩ := xferOp_run (s := s) (u := s) ⟨fun n => by rw [Nat.zero_add], rfl, rfl⟩ ms
  rw [hm, xferRun_read_outside _ _ _ h]

theorem transfer_read_outside {i : Instr} {cap : CapHandle} {ms : List Msg} {s t : State} {a : Nat}
    (h : transfer i cap ms s = .next t) (ho : OutsideReads s.par ms a) : Memory.read t.mem a = Memory.read s.mem a := by
  obtain ⟨-, ⟨-, rfl⟩ | ⟨-, -, rfl⟩⟩ := transfer_next h
  · rfl
  · rw [transferOp_eq]
    exact xferOp_read_outside (s := emit .lockAcquire (enter i.op s)) ho

theorem recvBytesOp_read_outside {s : State} {m : Msg} {a : Nat} (h : ∀ j < m.len, a ≠ cellAddr m j) :
    Memory.read (recvBytesOp m s).mem a = Memory.read s.mem a :=
  (recvBytesOp_received m s).kept a fun d hd => by simpa using h d hd

theorem sendLoop_mem (m : Msg) (k : Nat) (s : State) : (sendLoop m k s).mem = s.mem := by
  induction k generalizing s with
  | zero => rfl
  | succ k ih =>
    simp only [sendLoop]
    split
    · exact (sendOne_sent m s).mem
    · rw [ih, (sendOne_counted m s).mem]

/-- Settles O41: RECV_BYTES and XFER, alone or in a TRANSFER, are the operations that write a buffer; the rest keep all of it. -/
theorem onlyReadBuffersAreWritten : Obligations.OnlyReadBuffersAreWritten := by
  intro i s t a hx hne
  cases exec_next.1 hx with
  | recvBytes _ _ hr =>
    exact recvBytesOp_read_outside (s := enter .recvBytes s) fun j hj => hne _ j hr hj (.inl rfl)
  | xfer =>
    exact xferOp_read_outside (s := enter .xfer s) fun m hm hr j hj => hne m j hr hj (.inr (.inl ⟨_, rfl, hm⟩))
  | api ha ht =>
    refine transfer_read_outside ht fun m hm hr j hj => hne m j hr hj (.inr (.inr ?_))
    cases i with
    | transfer => cases ha; exact .inl ⟨_, _, rfl, hm⟩
    | send => cases ha; exact .inr (.inl ⟨_, _, _, _, _, rfl, List.mem_singleton.1 hm⟩)
    | recv => cases ha; exact .inr (.inr (.inl ⟨_, _, _, _, _, rfl, List.mem_singleton.1 hm⟩))
    | sendThenRecv => cases ha; exact .inr (.inr (.inr (.inl ⟨_, _, _, _, _, _, rfl, hm⟩)))
    | sendThenSend => cases ha; exact .inr (.inr (.inr (.inr ⟨_, _, _, _, _, _, rfl, hm⟩)))
    | _ => cases ha
  | start | restart | stop => rfl
  | waitAck => rw [leave_mem, waitAckOp_eq]; rfl
  | writeByte => rw [leave_mem, (writeByteOp_still _ _).mem, enter_mem]
  | readByte => rw [leave_mem, readByteOp_eq]; rfl
  | sendAck => rw [finish_mem, sendAckOp_eq]; rfl
  | sendAddr => rw [leave_mem, (sendAddrOp_still _ _ _).mem, enter_mem]
  | addrPhase => rw [leave_mem, (addrPhaseOp_still _ _).mem, enter_mem]
  | sendBytes => rw [leave_mem, sendBytesOp, sendLoop_mem, initCounts_mem, enter_mem]

end Sys2Proof.Machine
end

section
/-! SUPPORT. The decoder (R79 to R86): what each of its checks answers, and that it inverts the encoder. -/

namespace Sys2Proof

/-! ### Operations and their OP values -/

/-- The illegal and the reserved OP values (R86). -/
theorem Op.ofCode_eq_none_iff {c : BitVec 5} : Op.ofCode c = none ↔ c.toNat = 0 ∨ 0x12 ≤ c.toNat := by
  revert c
  decide

theorem Op.exists_code {c : BitVec 5} (h0 : 0 < c.toNat) (h : c.toNat < 0x12) : ∃ op : Op, op.code = c := by
  cases ho : Op.ofCode c with
  | none => have := Op.ofCode_eq_none_iff.1 ho; omega
  | some op => exact ⟨op, Op.code_of_ofCode ho⟩

/-- IMM8 belongs to WRITE_BYTE (0x05) and SEND_ADDR (0x08) only (R81). -/
theorem Op.usesImm_iff (op : Op) : op.usesImm = true ↔ op.code.toNat = 0x05 ∨ op.code.toNat = 0x08 := by
  cases op <;> decide

/-- B belongs to SEND_ACK_OR_NACK (0x07) and SEND_ADDR (0x08) only (R82). -/
theorem Op.usesB_iff (op : Op) : op.usesB = true ↔ op.code.toNat = 0x07 ∨ op.code.toNat = 0x08 := by
  cases op <;> decide

/-! ### Assembling the operands -/

theorem assemble_self (i : Instr) : assemble i.op i.imm i.b i.record = some i := by
  cases i with
  | sendAckOrNack ack => cases ack <;> rfl
  | _ => rfl

/-- What is assembled is the operation, its record, and the fields of the word that the operation uses. -/
theorem assemble_eq_some {op : Op} {imm : Byte} {b : BitVec 1} {rec : Record} {i : Instr}
    (h : assemble op imm b rec = some i) :
    i.op = op ∧ i.record = rec ∧ i.imm = (if op.usesImm then imm else 0#8) ∧ i.b = (if op.usesB then b else 0#1) := by
  have bit : ∀ b : BitVec 1, (if b = 1#1 then 1#1 else 0#1) = b := by decide
  unfold assemble at h
  split at h <;> cases h <;>
    simp [Instr.op, Instr.record, Instr.imm, Instr.b, Op.usesImm, Op.usesB, bit]

/-- A record of another kind than the operation's spells nothing (R80). -/
theorem assemble_eq_none {op : Op} {rec : Record} (imm : Byte) (b : BitVec 1) (h : rec.kind ≠ op.recordKind) :
    assemble op imm b rec = none := by
  refine Option.eq_none_iff_forall_ne_some.2 fun i hi => h ?_
  obtain ⟨rfl, rfl, -, -⟩ := assemble_eq_some hi
  obtain ⟨-, -, hk, -, -⟩ := Laws.WordShape.of_instr i
  exact hk

/-! ### The checks of the decoder, in its order (R85) -/

section
variable {p : Params} {c : Command} {op : Op}

theorem decode_rsvNonzero (h : cmdRsv c.word ≠ 0#2) : decode p c = .error .rsvNonzero := by
  simp [decode, h]

theorem decode_illegalOp (hr : cmdRsv c.word = 0#2) (h : Op.ofCode (cmdOp c.word) = none) :
    decode p c = .error .illegalOp := by
  simp [decode, hr, h]

theorem decode_immNonzero (hr : cmdRsv c.word = 0#2) (ho : cmdOp c.word = op.code) (hu : op.usesImm = false)
    (h : cmdImm c.word ≠ 0#8) : decode p c = .error .immNonzero := by
  simp [decode, hr, ho, hu, h]

theorem decode_bNonzero (hr : cmdRsv c.word = 0#2) (ho : cmdOp c.word = op.code)
    (hi : op.usesImm = false → cmdImm c.word = 0#8) (hu : op.usesB = false) (h : cmdB c.word ≠ 0#1) :
    decode p c = .error .bNonzero := by
  simpa [decode, hr, ho, hu, h] using hi

/-- A word that passes the four checks is read with its record. -/
theorem decode_of_fields (hr : cmdRsv c.word = 0#2) (ho : cmdOp c.word = op.code)
    (hi : op.usesImm = false → cmdImm c.word = 0#8) (hb : op.usesB = false → cmdB c.word = 0#1) :
    decode p c = (assemble op (cmdImm c.word) (cmdB c.word) c.record).elim (.error .badOperands)
      fun i => if i.wf p then .ok i else .error .operandRange := by
  have hi' : ¬ (op.usesImm = false ∧ cmdImm c.word ≠ 0#8) := fun h => h.2 (hi h.1)
  have hb' : ¬ (op.usesB = false ∧ cmdB c.word ≠ 0#1) := fun h => h.2 (hb h.1)
  simp only [decode, hr, ho, Op.ofCode_code, ne_eq, not_true_eq_false, if_false, if_neg hi', if_neg hb']
  cases assemble op (cmdImm c.word) (cmdB c.word) c.record <;> rfl

/-- A command that decodes has passed every check. -/
theorem decode_ok {i : Instr} (h : decode p c = .ok i) :
    cmdRsv c.word = 0#2 ∧ ∃ op : Op, cmdOp c.word = op.code ∧ (op.usesImm = false → cmdImm c.word = 0#8) ∧
      (op.usesB = false → cmdB c.word = 0#1) ∧
      assemble op (cmdImm c.word) (cmdB c.word) c.record = some i ∧ i.wf p = true := by
  unfold decode at h
  split at h
  · cases h
  rename_i hr
  split at h
  · cases h
  rename_i op ho
  split at h
  · cases h
  rename_i hi
  split at h
  · cases h
  rename_i hb
  split at h
  · cases h
  rename_i j ha
  split at h
  · cases h
    exact ⟨not_not.1 hr, op, (Op.code_of_ofCode ho).symm, by simpa using hi, by simpa using hb, ha, ‹_›⟩
  · cases h

end

/-! ### Decoder and encoder -/

/-- The word of an instruction passes the four checks, whatever record travels beside it. -/
theorem decode_word_encode (p : Params) (i : Instr) (rec : Record) :
    decode p { word := (encode i).word, record := rec } =
      (assemble i.op i.imm i.b rec).elim (.error .badOperands)
        fun i => if i.wf p then .ok i else .error .operandRange := by
  obtain ⟨hr, ho, -, hi, hb⟩ := Laws.WordShape.of_instr i
  rw [decode_of_fields (c := { word := (encode i).word, record := rec }) hr ho hi hb]
  simp [encode]

theorem decode_encode {p : Params} {i : Instr} (h : i.wf p = true) : decode p (encode i) = .ok i := by
  have hd := decode_word_encode p i i.record
  rwa [assemble_self, Option.elim_some, if_pos h] at hd

/-- The decoder loses nothing of a command: each field is used, or was checked to be zero. -/
theorem encode_of_decode {p : Params} {c : Command} {i : Instr} (h : decode p c = .ok i) :
    i.wf p = true ∧ encode i = c := by
  obtain ⟨hr, op, ho, hi, hb, ha, hw⟩ := decode_ok h
  obtain ⟨rfl, hrec, himm, hbit⟩ := assemble_eq_some ha
  have e1 : i.imm = cmdImm c.word := himm.trans (ite_eq_left_iff.2 fun hu => (hi (Bool.eq_false_iff.2 hu)).symm)
  have e2 : i.b = cmdB c.word := hbit.trans (ite_eq_left_iff.2 fun hu => (hb (Bool.eq_false_iff.2 hu)).symm)
  refine ⟨hw, ?_⟩
  rw [encode, e1, e2, ← ho, cmdWord_fields _ hr, hrec]

/-! ### The operand ranges (R78) -/

theorem Msg.inRange_iff {p : Params} {m : Msg} :
    m.inRange p = true ↔ m.addr < 2 ^ p.addrWidth ∧ m.flags < 2 ^ p.flagsWidth ∧ m.len < 2 ^ p.lenWidth := by
  simp [Msg.inRange, addrInRange, flagsInRange, lenInRange, and_assoc]

theorem listInRange_iff {p : Params} {ms : List Msg} :
    listInRange p ms = true ↔ ms.length < 2 ^ p.countWidth ∧
      ∀ m ∈ ms, m.addr < 2 ^ p.addrWidth ∧ m.flags < 2 ^ p.flagsWidth ∧ m.len < 2 ^ p.lenWidth := by
  simp [listInRange, Msg.inRange_iff]

/-! ### The statements -/

/-- Settles O1: the fields of the word built are the fields given, and they pass every check of the decoder. -/
theorem decodeOfEncodeIsTheInstruction : Obligations.DecodeOfEncodeIsTheInstruction :=
  fun _ _ h => decode_encode h

/-- Settles O2: a field that the operation does not use was checked to be zero, and the encoder writes zero there. -/
theorem decodedCommandIsItsEncoding : Obligations.DecodedCommandIsItsEncoding :=
  fun _ _ _ h => encode_of_decode h

/-- Settles O4: one lemma for each check of the decoder, with the fields read as numbers. -/
theorem wordsThatSpellNoOperationAreRefused : Obligations.WordsThatSpellNoOperationAreRefused := by
  intro p w rec
  dsimp only
  rw [← cmdOp_toNat, ← cmdB_toNat, ← cmdRsv_toNat, ← cmdImm_toNat]
  have zero : ∀ {n} {x : BitVec n}, x = 0#n ↔ x.toNat = 0 := fun {n x} => by simp [← BitVec.toNat_inj]
  refine ⟨fun hr => decode_rsvNonzero (mt zero.1 hr), fun hr ho => ?_, fun hr h0 hlt h5 h8 hi => ?_,
    fun hr h0 hlt hi h7 h8 hb => ?_⟩
  · exact decode_illegalOp (zero.2 hr) (Op.ofCode_eq_none_iff.2 ho)
  · obtain ⟨op, ho⟩ := Op.exists_code h0 hlt
    have hu : op.usesImm = false := by
      rw [Bool.eq_false_iff, ne_eq, Op.usesImm_iff, ho]; omega
    exact decode_immNonzero (zero.2 hr) ho.symm hu (mt zero.1 hi)
  · obtain ⟨op, ho⟩ := Op.exists_code h0 hlt
    have hu : op.usesB = false := by
      rw [Bool.eq_false_iff, ne_eq, Op.usesB_iff, ho]; omega
    have hz : op.usesImm = false → cmdImm w = 0#8 := by
      rw [Bool.eq_false_iff, ne_eq, Op.usesImm_iff, ho, zero]; omega
    exact decode_bNonzero (zero.2 hr) ho.symm hz hu (mt zero.1 hb)

/-- Settles O6: the record is the one the encoder writes for the decoded instruction, whose ranges were checked. -/
theorem decodedOperandsAreInRange : Obligations.DecodedOperandsAreInRange := by
  intro p c i h
  obtain ⟨hw, rfl⟩ := encode_of_decode h
  cases i with
  | start | restart | stop | waitAck | writeByte | readByte | sendAckOrNack | sendAddr => trivial
  | addrPhase m | sendBytes m | recvBytes m => exact Msg.inRange_iff.1 hw
  | xfer ms | transfer cap ms => exact listInRange_iff.1 hw
  | send | recv | sendThenRecv | sendThenSend =>
    simpa [encode, Instr.record, Instr.wf, addrInRange, flagsInRange, lenInRange, and_assoc] using hw

/-- Settles O3: the decoder evaluated at each word. -/
theorem workedWordsDecode : Obligations.WorkedWordsDecode :=
  ⟨rfl, rfl, rfl, rfl, rfl, rfl, rfl, rfl, rfl, rfl, rfl⟩

/-- Settles O5: the word passes its checks, and its operation assembles nothing from such a record. -/
theorem wrongRecordKindIsRefused : Obligations.WrongRecordKindIsRefused := by
  intro p i rec h
  rw [decode_word_encode, assemble_eq_none _ _ h, Option.elim_none]

end Sys2Proof
end

section
/-! SUPPORT. The address bytes as numbers (R69 to R71). -/

namespace Sys2Proof.Machine

theorem addrByte7_toNat (p : Params) {m : Msg} (h : m.addr ≤ 0x7F) :
    (addrByte7 p m).toNat = 2 * m.addr + (if isRead p m then 1 else 0) := by
  have hr : (if isRead p m then 1 else 0) < 2 ^ 1 := by split <;> decide
  rw [addrByte7, ← Nat.shiftLeft_add_eq_or_of_lt hr, Nat.shiftLeft_eq, BitVec.toNat_ofNat]
  omega

/-- Bits 9 and 8 of the address stand below the bits 11110, and R/W is 0 (R70). -/
theorem addrByteHi_eq (m : Msg) : addrByteHi m = BitVec.ofNat 8 (0xF0 + 2 * (m.addr / 256 % 4)) := by
  have low : ∀ n < 8, 0xF0 ||| (n &&& 0x06) = 0xF0 + 2 * (n / 2) := by decide
  have hlow : (m.addr >>> 7) &&& 0x06 = (m.addr / 128 % 8) &&& 0x06 := by
    rw [Nat.shiftRight_eq_div_pow, ← Nat.and_two_pow_sub_one_eq_mod _ 3, Nat.and_assoc]
    rfl
  rw [addrByteHi, hlow, low _ (Nat.mod_lt _ (by decide))]
  congr 3
  omega

theorem addrByteLo_toNat (m : Msg) : (addrByteLo m).toNat = m.addr % 256 := by
  rw [addrByteLo, Nat.and_two_pow_sub_one_eq_mod m.addr 8, BitVec.toNat_ofNat, Nat.mod_mod]

/-- Settles O31: each byte as a number; bits 2 and 1 of the first byte of a 10-bit address are one of four values. -/
theorem addressBytesOnTheWire : Obligations.AddressBytesOnTheWire := by
  intro p m
  have values : ∀ n < 4, (BitVec.ofNat 8 (0xF0 + 2 * n)).toNat = 0xF0 + 2 * n ∧
      (BitVec.ofNat 8 (0xF0 + 2 * n) ||| 0x01#8).toNat = 0xF0 + 2 * n + 1 := by decide
  obtain ⟨hi, hi1⟩ := values (m.addr / 256 % 4) (Nat.mod_lt _ (by decide))
  rw [addrByteHi_eq]
  exact ⟨addrByte7_toNat p, hi, hi1, addrByteLo_toNat m⟩

end Sys2Proof.Machine
end

section
/-! SUPPORT. XFER of a well-formed list on an idle bus, by its ledger (R141). -/

namespace Sys2Proof.Machine

/-- XFER runs, and its history, its count, the buffers and the answers it draws are those of its ledger. -/
theorem exec_xfer_run {s : State} {ms : List Msg} (hb : s.bus = .idle) (hc : checkMsgs s.par ms = none) :
    let r := xferRun s 0 true s.mem ms
    ∃ t, exec (.xfer ms) s = .next t ∧
      t.trace = s.trace ++ (startEvents (half s.us) ++ r.events ++ stopEvents s.us) ∧
      t.results = s.results ++ [.count r.served] ∧ t.mem = r.mem ∧
      ∀ n, answerAt t n = answerAt s (r.answers + n) := by
  have alike : From s 0 (enter .xfer s) := ⟨fun n => by simp, rfl, rfl⟩
  obtain ⟨htrace, hresult, hmem, hans⟩ := xferOp_run alike ms
  refine ⟨_, exec_next.2 (.xfer hb hc), htrace, ?_, hmem, hans⟩
  rw [leave_results, hresult, (xferOp_exited ms (enter .xfer s)).results]
  rfl

/-- Settles O48: the ledger of a list acknowledged throughout, with no message after it. -/
theorem acknowledgedTransaction : Obligations.AcknowledgedTransaction := by
  intro s ms hb hc hk
  obtain ⟨n, hr⟩ := xferRun_acked s ms [] 0 true s.mem hk
  obtain ⟨t, hx, htrace, hres, hmem, -⟩ := exec_xfer_run hb hc
  rw [List.append_nil] at hr
  rw [hr] at htrace hmem hres
  exact ⟨t, hx, by simpa [xferRun] using htrace, hmem, hres⟩

end Sys2Proof.Machine
end

section
/-! SUPPORT. Every step keeps the invariant of the states between steps (R21, R22, R24, R102, R157, R159, R161). -/

namespace Sys2Proof.Machine

/-! ### The operands of an API operation -/

theorem lt_of_isFlagValue {width v : Nat} (h : isFlagValue width v = true) : v < 2 ^ width := by
  simp only [isFlagValue, List.any_eq_true, List.mem_range, beq_iff_eq] at h
  obtain ⟨k, hk, rfl⟩ := h
  exact Nat.pow_lt_pow_right (by decide) hk

/-- The limits of R7 and R8 on which the lists of the wrappers rest. -/
theorem limits_of_paramsWf {p : Params} (h : p.wf = true) :
    2 ≤ p.countWidth ∧ p.flagRead < 2 ^ p.flagsWidth ∧ p.flagNoStart < 2 ^ p.flagsWidth := by
  simp only [Params.wf, Params.flags, Bool.and_eq_true, decide_eq_true_eq, List.all_cons] at h
  obtain ⟨⟨⟨-, hcount⟩, hread, -, hnoStart, -⟩, -⟩ := h
  exact ⟨hcount, lt_of_isFlagValue hread, lt_of_isFlagValue hnoStart⟩

/-- The list an API operation hands to TRANSFER is in range when its own operands are (R78, R162 to R165). -/
theorem apiList_inRange {p : Params} {i : Instr} {cap : CapHandle} {ms : List Msg} (hp : p.wf = true)
    (hw : i.wf p = true) (ha : apiList p i = some (cap, ms)) : listInRange p ms = true := by
  obtain ⟨hcount, hread, hnoStart⟩ := limits_of_paramsWf hp
  have two : 2 < 2 ^ p.countWidth := hcount.trans_lt Nat.lt_two_pow_self
  have zero : 0 < 2 ^ p.flagsWidth := Nat.two_pow_pos _
  rw [listInRange_iff]
  cases i with
  | transfer _ l =>
    cases ha
    exact listInRange_iff.1 hw
  | send | recv =>
    cases ha
    simp only [Instr.wf, addrInRange, flagsInRange, lenInRange, Bool.and_eq_true, decide_eq_true_eq] at hw
    obtain ⟨⟨haddr, hflags⟩, hlen⟩ := hw
    simp [sendMsg, recvMsg, haddr, hflags, hlen, Nat.or_lt_two_pow, hread]
    omega
  | sendThenRecv | sendThenSend =>
    cases ha
    simp only [Instr.wf, addrInRange, lenInRange, Bool.and_eq_true, decide_eq_true_eq] at hw
    obtain ⟨⟨haddr, hlen1⟩, hlen2⟩ := hw
    simp [sendThenRecvMsgs, sendThenSendMsgs, haddr, hlen1, hlen2, hread, hnoStart, two, zero]
  | _ => cases ha

/-! ### What the operations leave of buffers and byte counts -/

theorem waitAckOp_still (s : State) : Still s (waitAckOp s) := by
  rw [waitAckOp_eq]; constructor <;> rfl

theorem readByteOp_still (s : State) : Still s (readByteOp s) := by
  rw [readByteOp_eq]; constructor <;> rfl

theorem sendAckOp_still (ack : Bool) (s : State) : Still s (sendAckOp ack s) := by
  rw [sendAckOp_eq]; constructor <;> rfl

/-- SEND_BYTES counts at most LEN bytes (R143, R159). -/
theorem sendBytesOp_counts (m : Msg) (s : State) :
    (sendBytesOp m s).dp.bytes ≤ m.len ∧ (sendBytesOp m s).dp.remain ≤ m.len := by
  unfold sendBytesOp
  rcases send_cases m m.len (initCounts m s) with hall | ⟨hi, j, hj, hn, ha⟩
  · obtain ⟨-, hbytes, hremain⟩ := sendLoop_all m m.len _ hall
    simp [hbytes, hremain]
  · obtain ⟨-, hbytes, hremain, -⟩ := sendLoop_nack m m.len _ hi j hj hn ha
    simp [hbytes, hremain, hj.le]

/-- The byte counts an XFER leaves fit the lengths of its messages, or are those it found (R159). -/
theorem xferOp_counts (ms : List Msg) {s : State} {n : Nat} (hs : s.dp.bytes < n ∧ s.dp.remain < n)
    (hm : ∀ m ∈ ms, m.len < n) : (xferOp ms s).dp.bytes < n ∧ (xferOp ms s).dp.remain < n :=
  xferLoop_counts ms rfl rfl n hs hm

/-! ### The invariant after each kind of operation -/

/-- The value an operation returns is not part of the invariant. -/
theorem BlockInv.after_leave {s : State} (hi : BlockInv (finish s)) (r : Result) : BlockInv (leave r s) := { hi with }

section
variable {s : State} (hi : BlockInv s)
include hi

/-- An operation that ran on a held bus leaves SCL low (R102). -/
theorem BlockInv.after_held {op : Op} {t : State} (h : Held (enter op s) t) (hw : Memory.wf t.mem = true)
    (hb : t.dp.bytes < 2 ^ s.par.lenWidth) (hr : t.dp.remain < 2 ^ s.par.lenWidth) : BlockInv (finish t) where
  params := by simpa [h.par] using hi.params
  us := by simpa [h.par, h.us] using hi.us
  lines := ⟨fun _ => h.scl, fun hb => by simp [h.bus] at hb⟩
  eng := by simpa [h.eng] using hi.eng
  locked := by simpa [h.locked] using hi.locked
  seq := trivial
  frames := by simpa [h.frames, h.par] using hi.frames
  refused := by simpa [h.refused] using hi.refused
  mem := hw
  counts := by
    obtain ⟨-, -, hI, hresult⟩ := hi.counts
    simp [countsFit, h.par, h.i, h.result, hb, hr, hI, hresult]

/-- The same for one that touches no buffer and no byte count. -/
theorem BlockInv.after_still {op : Op} {t : State} (h : Held (enter op s) t) (hs : Still (enter op s) t) :
    BlockInv (finish t) := by
  obtain ⟨hbytes, hremain, -, -⟩ := hi.counts
  exact hi.after_held h (hs.mem ▸ hi.mem) (hs.bytes ▸ hbytes) (hs.remain ▸ hremain)

/-- XFER ends with the lines high, ENG idle and its counts within its list (R151, R152, R157), whoever holds the lock and
whatever the sequencer names meanwhile. -/
theorem BlockInv.after_xferOp {ms : List Msg} (hm : listInRange s.par ms = true) {u : State} {q : Seq} {l : Bool}
    {es : List Event} (hu : u = { s with seq := q, locked := l, trace := es }) :
    BlockInv { xferOp ms u with seq := .ready, locked := false } := by
  obtain ⟨hlength, hrange⟩ := listInRange_iff.1 hm
  obtain ⟨hbytes, hremain, -, -⟩ := hi.counts
  have h := xferOp_exited ms u
  have hcounts := xferOp_counts ms (s := u) (n := 2 ^ s.par.lenWidth) (by simp [hu, hbytes, hremain])
    fun m hm => (hrange m hm).2.2
  generalize xferOp ms u = t at h hcounts ⊢
  subst hu
  have hI : t.dp.i < 2 ^ s.par.countWidth := lt_of_le_of_lt (by simpa using h.upper) hlength
  exact
    { params := by simpa [h.par] using hi.params
      us := by simpa [h.par, h.us] using hi.us
      lines := ⟨fun hb => by simp [h.bus] at hb, fun _ => h.pins⟩
      eng := h.eng
      locked := rfl
      seq := trivial
      frames := by simpa [h.frames, h.par] using hi.frames
      refused := by simpa [h.refused] using hi.refused
      mem := h.wf hi.mem
      counts := by simp [countsFit, h.par, h.result, hcounts, hI] }

/-- TRANSFER ends as XFER, with the lock free; the frame it may leave at its error callback is short (R161). -/
theorem BlockInv.after_transferOp {ms : List Msg} (hm : listInRange s.par ms = true) (op : Op) (cap : CapHandle) :
    BlockInv (transferOp cap ms (emit .lockAcquire (enter op s))) := by
  have hx := hi.after_xferOp hm (u := emit .lockAcquire (enter op s)) rfl
  have h := xferOp_exited ms (emit .lockAcquire (enter op s))
  rw [transferOp_eq]
  generalize xferOp ms (emit .lockAcquire (enter op s)) = t at hx h ⊢
  have hle : t.dp.result ≤ ms.length := by simpa [h.result] using h.upper
  have short (hc : calledBack t ms.length t.dp.result ≠ []) : t.dp.result < ms.length :=
    hle.lt_of_ne fun he => hc (by simp [calledBack, he])
  refine { hx with frames := fun f hf => ?_ }
  dsimp only at hf
  split at hf
  · exact hx.frames f hf
  · rename_i hc
    rcases List.mem_cons.1 hf with rfl | hf
    · exact ⟨by rw [h.par]; exact hm, short hc⟩
    · exact hx.frames f hf

/-- Every operation whose operands are in range keeps the invariant. -/
theorem BlockInv.after_exec {i : Instr} {t : State} (hw : i.wf s.par = true) (h : Exec i s t) : BlockInv t := by
  have low (hb : s.bus = .busHeld) : s.pins.sclOut = false := hi.lines.1 hb
  cases h with
  | start _ => exact { hi with lines := ⟨fun _ => rfl, nofun⟩, seq := trivial }
  | stop _ => exact { hi with lines := ⟨nofun, fun _ => rfl⟩, seq := trivial }
  | restart hb => exact hi.after_still (restartOp_held hb) (restartOp_still _)
  | waitAck hb => exact (hi.after_still (waitAckOp_held hb) (waitAckOp_still _)).after_leave _
  | writeByte hb => exact (hi.after_still (writeByteOp_held _ hb) (writeByteOp_still _ _)).after_leave _
  | readByte hb => exact (hi.after_still (readByteOp_held hb) (readByteOp_still _)).after_leave _
  | sendAck hb => exact hi.after_still (sendAckOp_held _ hb) (sendAckOp_still _ _)
  | sendAddr hb => exact (hi.after_still (sendAddrOp_held _ _ hb) (sendAddrOp_still _ _ _)).after_leave _
  | addrPhase hb _ => exact (hi.after_still (addrPhaseOp_held _ hb) (addrPhaseOp_still _ _)).after_leave _
  | @sendBytes _ m hb _ _ =>
    have hlen := (Msg.inRange_iff.1 hw).2.2
    obtain ⟨hbytes, hremain⟩ := sendBytesOp_counts m (enter .sendBytes s)
    have hmem : (sendBytesOp m (enter .sendBytes s)).mem = s.mem := sendLoop_mem m m.len _
    exact (hi.after_held (sendBytesOp_held m hb (low hb)) (hmem ▸ hi.mem) (hbytes.trans_lt hlen)
      (hremain.trans_lt hlen)).after_leave _
  | @recvBytes _ m hb _ _ =>
    have hlen := (Msg.inRange_iff.1 hw).2.2
    have hr := recvBytesOp_received m (enter .recvBytes s)
    exact (hi.after_held (recvBytesOp_held m hb (low hb)) (hr.wf hi.mem) (by simpa [hr.bytes] using hlen)
      (by simp [hr.remain])).after_leave _
  | @xfer _ ms _ _ =>
    have hlocked := (xferOp_exited ms (enter .xfer s)).locked.trans hi.locked
    exact { hi.after_xferOp hw (u := enter .xfer s) rfl with locked := hlocked }
  | api ha h =>
    obtain ⟨-, ⟨-, rfl⟩ | ⟨-, -, rfl⟩⟩ := transfer_next h
    · exact { hi with seq := ⟨hw, by simp [ha]⟩ }
    · exact hi.after_transferOp (apiList_inRange hi.params hw ha) _ _

/-- What is next runs from a state that meets the invariant, with its operands in range (R78). -/
theorem NextUp.inv {i : Instr} {t : State} (h : NextUp s i t) : BlockInv t ∧ i.wf t.par = true := by
  cases h with
  | waiting _ hq =>
    have hseq := hi.seq
    simp only [seqOk, hq] at hseq
    exact ⟨hi, hseq.1⟩
  | delivered c rest _ hq _ _ hd => exact ⟨{ hi with }, (encode_of_decode hd).1⟩
  | called f fs c rest _ hq hf _ hd =>
    have hframes := hf ▸ hi.frames
    rw [List.forall_mem_cons] at hframes
    exact ⟨{ hi with frames := List.forall_mem_cons.2 hframes }, (encode_of_decode hd).1⟩

/-- A TRANSFER returns from its callback with a count that fits, since it is short of its list (R161). -/
theorem BlockInv.after_callback {f : Frame} {fs : List Frame} (hf : s.frames = f :: fs) :
    BlockInv (callbackReturns f fs s) := by
  have hframes := hf ▸ hi.frames
  rw [List.forall_mem_cons] at hframes
  obtain ⟨⟨hlist, hshort⟩, hrest⟩ := hframes
  obtain ⟨hbytes, hremain, hI, -⟩ := hi.counts
  have hresult : f.result < 2 ^ s.par.countWidth := hshort.trans (listInRange_iff.1 hlist).1
  exact { hi with seq := trivial, frames := hrest, counts := ⟨hbytes, hremain, hI, hresult⟩ }

end

/-- Settles O15: a step has nothing to do, lets a TRANSFER return from its callback, or runs the operation that is next, with
its operands in range; each keeps the invariant. -/
theorem everyStepKeepsInv : Obligations.EveryStepKeepsInv := by
  intro s t hi h
  obtain ⟨-, ⟨-, -, -, rfl⟩ | ⟨f, fs, k, -, hf, -, -, rfl⟩ | ⟨i, u, v, k, hn, hx, rfl⟩⟩ := step_next h
  · exact hi
  · exact { hi.after_callback hf with }
  · obtain ⟨hu, hw⟩ := hn.inv hi
    exact { hu.after_exec hw (exec_next.1 hx) with }

end Sys2Proof.Machine
end

section
/-! SUPPORT. START, RESTART and STOP (R96 to R104): the delays, the registers written, the conditions on the bus. -/

namespace Sys2Proof.Machine

/-- A delay unit above the limit is refused whichever duties are done (R96). -/
theorem createBlock_badUs {p : Params} {us : Nat} {b : Boot} (cap : CapHandle) (hd : b.delayUnit = some us)
    (hlarge : 2 ^ p.usWidth < us + 2) : createBlock p cap b = .refused (.notCreated .badUs) := by
  have hus : usInRange p us = false := decide_eq_false hlarge.not_ge
  simp [createBlock, hd, hus]

/-- Settles O9: HALF is a division by 2 of the delay unit and 1, and the delay unit is the first thing creation tests. -/
theorem halfDelayRoundsUp : Obligations.HalfDelayRoundsUp := by
  have bounds (us : Nat) : us ≤ 2 * half us ∧ 2 * half us ≤ us + 1 := by
    unfold half
    omega
  exact ⟨fun us => ⟨rfl, bounds us⟩, rfl, fun p cap us b hd hlarge => createBlock_badUs cap hd hlarge⟩

/-- Settles O19: the events of `startOp` write the pins, and the check of BUS comes before them. -/
theorem startTakesTheBus : Obligations.StartTakesTheBus :=
  ⟨rfl, fun _ => ⟨fun hb => exec_next.2 (.start hb), fun hb => if_neg (by simp [hb])⟩⟩

/-- Settles O20: the events of `restartOp` write the pins, and the check of BUS comes before them. -/
theorem restartKeepsTheBus : Obligations.RestartKeepsTheBus :=
  ⟨rfl, fun _ => ⟨fun hb => exec_next.2 (.restart hb), fun hb => if_neg (by simp [hb])⟩⟩

/-- Settles O21: the events of `stopOp` write the pins, and the check of BUS comes before them. -/
theorem stopReleasesTheBus : Obligations.StopReleasesTheBus :=
  ⟨rfl, fun _ => ⟨fun hb => exec_next.2 (.stop hb), fun hb => if_neg (by simp [hb])⟩⟩

/-- START, from the idle levels, makes one START condition (R104). -/
theorem start_conditions (eff : Bool) (h : Nat) : conditions eff Pins.reset (startEvents h) = [.startCondition] := by
  cases eff <;> rfl

/-- Settles O28: a held bus has SCL low, from where `Shows` says what the events of each primitive show; START begins at the
idle levels. -/
theorem primitiveBusConditions : Obligations.PrimitiveBusConditions := by
  intro eff i s t byte ack hl hx
  have hx := exec_next.1 hx
  obtain ⟨es, htr, -, -⟩ := hx.grown
  cases hx with
  | start hb =>
    refine ⟨startEvents (half s.us), rfl, fun _ => ?_, nofun, nofun, nofun, nofun, nofun, nofun⟩
    rw [hl.2 hb]
    exact start_conditions eff _
  | restart hb =>
    have hc := (Shows.restart (half s.us)).conds eff s.pins (hl.1 hb)
    exact ⟨restartEvents (half s.us), rfl, nofun, fun _ => hc, nofun, nofun, nofun, nofun, nofun⟩
  | stop hb =>
    have hc := stop_conditions eff s.pins s.us (hl.1 hb)
    exact ⟨stopEvents s.us, rfl, nofun, nofun, fun _ => hc, nofun, nofun, nofun, nofun⟩
  | waitAck hb =>
    have hc := (Shows.waitAck (answerAt s 0)).conds eff s.pins (hl.1 hb)
    exact ⟨waitAckEvents (answerAt s 0), by simp [waitAckOp_eq], nofun, nofun, nofun, fun _ => hc, nofun, nofun, nofun⟩
  | @writeByte _ b hb =>
    have hc := (Shows.writeByte (half s.us) b (answerAt s 0)).conds eff s.pins (hl.1 hb)
    exact ⟨writeByteEvents (half s.us) b (answerAt s 0), by simp [writeByteOp_eq], nofun, nofun, nofun, nofun,
      fun _ => hc, nofun, nofun⟩
  | readByte hb =>
    have hc := (Shows.readByte s.us (answersFrom s 0 8)).conds eff s.pins (hl.1 hb)
    exact ⟨readByteEvents s.us (answersFrom s 0 8), by simp [readByteOp_eq, answersFrom], nofun, nofun, nofun, nofun, nofun,
      fun _ => hc, nofun⟩
  | @sendAck _ a hb =>
    have hc := (Shows.sendAck (half s.us) a).conds eff s.pins (hl.1 hb)
    exact ⟨sendAckEvents (half s.us) a, by simp [sendAckOp_eq], nofun, nofun, nofun, nofun, nofun, nofun, fun _ => hc⟩
  | api ha _ =>
    refine ⟨es, htr, ?_, ?_, ?_, ?_, ?_, ?_, ?_⟩
    all_goals
      rintro rfl
      cases ha
  | _ => exact ⟨es, htr, nofun, nofun, nofun, nofun, nofun, nofun, nofun⟩

end Sys2Proof.Machine
end

section
/-! SUPPORT. The return from an error callback (R160, R180, R185). -/

namespace Sys2Proof.Machine

section
variable {s : State} {f : Frame} {fs : List Frame}

/-- A callback that has made its calls is the next thing a step sees to, whatever waits on the port. -/
theorem step_return (hr : s.refused = false) (hq : s.seq = .ready) (hf : s.frames = f :: fs) (hc : f.calls = []) :
    step s = runReturn f fs s := by
  simp [step, hr, hq, runReady, accept, hf, hc]

theorem runReturn_idle (hk : s.callsLeft ≠ some 0) (hb : s.bus = .idle) :
    runReturn f fs s = .next { callbackReturns f fs s with callsLeft := s.callsLeft.map (· - 1) } := by
  simp [runReturn, hk, hb]

theorem runReturn_busHeld (hk : s.callsLeft ≠ some 0) (hb : s.bus = .busHeld) :
    runReturn f fs s = .fault .callbackLeftBusHeld := by
  simp [runReturn, hk, hb]

theorem runReturn_stuck (hk : s.callsLeft = some 0) :
    runReturn f fs s = .fault (.capabilityCallNeverReturns s.trace f.position) := by
  simp [runReturn, hk]

/-- A return is made on an idle bus only (R102, R202). -/
theorem runReturn_next {t : State} (h : runReturn f fs s = .next t) :
    s.bus = .idle ∧ t = { callbackReturns f fs s with callsLeft := s.callsLeft.map (· - 1) } := by
  by_cases hk : s.callsLeft = some 0
  · rw [runReturn_stuck hk] at h
    cases h
  · cases hb : s.bus with
    | idle =>
      rw [runReturn_idle hk hb] at h
      cases h
      exact ⟨rfl, rfl⟩
    | busHeld =>
      rw [runReturn_busHeld hk hb] at h
      cases h

end

/-- Settles O53: by the cases of `runReturn`; the invariant gives the levels of an idle bus, ENG and the lock. -/
theorem callbackReturnsToItsTransfer : Obligations.CallbackReturnsToItsTransfer := by
  intro s f fs hr hq hf hc
  rw [step_return hr hq hf hc]
  refine ⟨fun hk hb => ?_, fun hk hb => runReturn_busHeld hk hb, fun hk => runReturn_stuck hk,
    fun t hi h => ?_⟩
  · rw [runReturn_idle hk hb]
    simp [callbackReturns, setResult, leave, hq]
  · obtain ⟨hb, rfl⟩ := runReturn_next h
    exact ⟨hi.lines.2 hb, hb, hi.eng, hi.locked, rfl⟩

end Sys2Proof.Machine
end

section
/-! SUPPORT. The byte shift engine: WAIT_ACK, WRITE_BYTE, READ_BYTE and SEND_ACK_OR_NACK (R106 to R110), and how many clocks,
events and samples each primitive makes (R113 to R115). -/

namespace Sys2Proof.Machine

/-! ### Clocks, events and samples -/

/-- A history has so many clocks (R113), capability calls (R114) and samples (R115). -/
def Counts (es : List Event) (clocks calls samples : Nat) : Prop :=
  clockCount es = clocks ∧ callCount es = calls ∧ sampleCount es = samples

theorem Counts.append {xs ys : List Event} {c d n m k l : Nat} (hx : Counts xs c n k) (hy : Counts ys d m l) :
    Counts (xs ++ ys) (c + d) (n + m) (k + l) := by
  obtain ⟨hc, hn, hk⟩ := hx
  obtain ⟨hd, hm, hl⟩ := hy
  rw [← hc, ← hn, ← hk, ← hd, ← hm, ← hl]
  exact ⟨List.countP_append, List.countP_append, List.countP_append⟩

/-- One block of events for each level, all with the same counts. -/
theorem Counts.flatMap {f : Level → List Event} {c n k : Nat} (h : ∀ v, Counts (f v) c n k) (vs : List Level) :
    Counts (vs.flatMap f) (vs.length * c) (vs.length * n) (vs.length * k) := by
  induction vs with
  | nil => simp [Counts, clockCount, callCount, sampleCount]
  | cons v vs ih => simpa [Nat.succ_mul, Nat.add_comm] using (h v).append ih

theorem waitAckEvents_counts (v : Level) : Counts (waitAckEvents v) 1 5 1 := by
  cases v <;> exact ⟨rfl, rfl, rfl⟩

theorem bitOutEvents_counts (h : Nat) (v : Level) : Counts (bitOutEvents h v) 1 5 0 := ⟨rfl, rfl, rfl⟩

theorem bitInEvents_counts (us : Nat) (v : Level) : Counts (bitInEvents us v) 1 4 1 := by
  cases v <;> exact ⟨rfl, rfl, rfl⟩

/-- Eight data clocks and the acknowledge clock. -/
theorem writeByteEvents_counts (h : Nat) (b : Byte) (v : Level) : Counts (writeByteEvents h b v) 9 48 1 := by
  have before : Counts [.sdaDirOut] 0 1 0 := ⟨rfl, rfl, rfl⟩
  have bits : Counts ((msbFirst b).flatMap (bitOutEvents h)) 8 40 0 := .flatMap (bitOutEvents_counts h) _
  have last : Counts [.sclSet false, .delay h] 0 2 0 := ⟨rfl, rfl, rfl⟩
  exact before.append (bits.append (last.append (waitAckEvents_counts v)))

/-- One data clock and one sample for each bit. -/
theorem readByteEvents_counts (us : Nat) (vs : List Level) :
    Counts (readByteEvents us vs) vs.length (2 + vs.length * 4) vs.length := by
  have before : Counts [.sdaDirIn, .sdaSet true] 0 2 0 := ⟨rfl, rfl, rfl⟩
  simpa [readByteEvents] using before.append (.flatMap (bitInEvents_counts us) vs)

theorem sendAckEvents_counts (h : Nat) (ack : Bool) : Counts (sendAckEvents h ack) 1 (if ack then 5 else 4) 0 := by
  cases ack <;> exact ⟨rfl, rfl, rfl⟩

/-- Settles O26: the history of each primitive is the one R99 to R110 give it, whose counts add up clock by clock. -/
theorem primitiveCounts : Obligations.PrimitiveCounts := by
  intro i s t byte ack hx
  have hx := exec_next.1 hx
  obtain ⟨es, htr, -, -⟩ := hx.grown
  cases hx with
  | start _ =>
    exact ⟨startEvents (half s.us), rfl, fun _ => ⟨rfl, rfl, rfl⟩, nofun, nofun, nofun, nofun, nofun, nofun⟩
  | restart _ =>
    exact ⟨restartEvents (half s.us), rfl, nofun, fun _ => ⟨rfl, rfl, rfl⟩, nofun, nofun, nofun, nofun, nofun⟩
  | stop _ =>
    exact ⟨stopEvents s.us, rfl, nofun, nofun, fun _ => ⟨rfl, rfl, rfl⟩, nofun, nofun, nofun, nofun⟩
  | waitAck _ =>
    exact ⟨waitAckEvents (answerAt s 0), by simp [waitAckOp_eq], nofun, nofun, nofun,
      fun _ => waitAckEvents_counts _, nofun, nofun, nofun⟩
  | @writeByte _ b _ =>
    exact ⟨writeByteEvents (half s.us) b (answerAt s 0), by simp [writeByteOp_eq], nofun, nofun, nofun, nofun,
      fun _ => writeByteEvents_counts _ _ _, nofun, nofun⟩
  | readByte _ =>
    exact ⟨readByteEvents s.us (answersFrom s 0 8), by simp [readByteOp_eq, answersFrom], nofun, nofun, nofun, nofun, nofun,
      fun _ => readByteEvents_counts _ _, nofun⟩
  | @sendAck _ a _ =>
    refine ⟨sendAckEvents (half s.us) a, by simp [sendAckOp_eq], nofun, nofun, nofun, nofun, nofun, nofun, fun hi => ?_⟩
    obtain rfl := Instr.sendAckOrNack.inj hi
    exact sendAckEvents_counts _ a
  | api ha _ =>
    refine ⟨es, htr, ?_, ?_, ?_, ?_, ?_, ?_, ?_⟩
    all_goals
      rintro rfl
      cases ha
  | _ => exact ⟨es, htr, nofun, nofun, nofun, nofun, nofun, nofun, nofun⟩

/-! ### The operations on their own -/

section
variable {s : State}

theorem not_busHeld_of_idle (hb : s.bus = .idle) : ¬ s.bus = .busHeld := by simp [hb]

/-- WAIT_ACK on a held bus: one answer drawn, and ACKF its complement (R107). -/
theorem exec_waitAck (hb : s.bus = .busHeld) : exec .waitAck s = .next { drawn 1 s with
    pins := { sclOut := false, sdaOut := true, sdaDir := .input }
    dp := { s.dp with ackf := !answerAt s 0 }
    seq := .ready
    trace := s.trace ++ waitAckEvents (answerAt s 0)
    results := s.results ++ [.flag (!answerAt s 0)] } := by
  rw [exec_next.2 (.waitAck hb), waitAckOp_eq]
  rfl

theorem exec_writeByte (byte : Byte) (hb : s.bus = .busHeld) : exec (.writeByte byte) s = .next { drawn 1 s with
    pins := { sclOut := false, sdaOut := true, sdaDir := .input }
    dp := { s.dp with shift := byte, bitcnt := 0#4, ackf := !answerAt s 0 }
    seq := .ready
    trace := s.trace ++ writeByteEvents (half s.us) byte (answerAt s 0)
    results := s.results ++ [.flag (!answerAt s 0)] } := by
  rw [exec_next.2 (.writeByte hb), writeByteOp_eq]
  rfl

theorem exec_readByte (hb : s.bus = .busHeld) : exec .readByte s = .next { drawn 8 s with
    pins := { sclOut := false, sdaOut := true, sdaDir := .input }
    dp := { s.dp with shift := sampledByte s 0, bitcnt := 8#4 }
    seq := .ready
    trace := s.trace ++ readByteEvents s.us (answersFrom s 0 8)
    results := s.results ++ [.byte (sampledByte s 0)] } := by
  rw [exec_next.2 (.readByte hb), readByteOp_eq]
  rfl

theorem exec_sendAckOrNack (ack : Bool) (hb : s.bus = .busHeld) : exec (.sendAckOrNack ack) s = .next { s with
    pins := { sclOut := false, sdaOut := if ack then false else s.pins.sdaOut, sdaDir := .out }
    seq := .ready
    trace := s.trace ++ sendAckEvents (half s.us) ack } := by
  rw [exec_next.2 (.sendAck hb), sendAckOp_eq]
  rfl

/-- Eight samples with their names are summed as R112 sums them. -/
theorem sampledByte_eq_sum {a b c d e f g h : Level} (hs : answersFrom s 0 8 = [a, b, c, d, e, f, g, h]) :
    sampledByte s 0 = BitVec.ofNat 8 (a.toNat * 128 + b.toNat * 64 + c.toNat * 32 + d.toNat * 16 + e.toNat * 8 +
      f.toNat * 4 + g.toNat * 2 + h.toNat) := by
  simp only [answersFrom, List.range_succ, List.range_zero, List.nil_append, List.cons_append, List.map_cons, List.map_nil,
    List.cons.injEq, and_true] at hs
  obtain ⟨rfl, rfl, rfl, rfl, rfl, rfl, rfl, rfl⟩ := hs
  rfl

end

/-- The word of WRITE_BYTE: the byte above the opcode 5, every other field zero (R80). -/
theorem encode_writeByte_word (byte : Byte) :
    (encode (.writeByte byte)).word = BitVec.ofNat 16 (byte.toNat * 256 + 5) := by
  apply BitVec.eq_of_toNat_eq
  have hword : (encode (.writeByte byte)).word.toNat = byte.toNat * 256 + 0 * 32 + 5 := cmdWord_toNat byte 0#1 5#5
  rw [hword, BitVec.toNat_ofNat]
  omega

/-- Settles O22: the acknowledge is the complement of the sample, and the check of BUS comes before the events. -/
theorem waitAckSamplesTheNinthClock : Obligations.WaitAckSamplesTheNinthClock := by
  refine ⟨rfl, fun s v hv => ⟨fun hb => ?_, fun hb => if_neg (not_busHeld_of_idle hb)⟩⟩
  rw [exec_waitAck hb, hv, Bool.decide_eq_false]
  rfl

/-- Settles O23: the byte reaches SHIFT and the events only; the result is the complement of the one sample. -/
theorem writeByteShiftsOutAndReturnsAck : Obligations.WriteByteShiftsOutAndReturnsAck := by
  refine fun s byte v hv => ⟨encode_writeByte_word byte, fun hb => ?_, fun hb => if_neg (not_busHeld_of_idle hb)⟩
  rw [exec_writeByte byte hb, hv, Bool.decide_eq_false]

/-- Settles O24: the byte read is the sum of the eight named samples. -/
theorem readByteShiftsIn : Obligations.ReadByteShiftsIn := by
  refine ⟨rfl, fun s a b c d e f g h hs => ⟨fun hb => ?_, fun hb => if_neg (not_busHeld_of_idle hb)⟩⟩
  rw [exec_readByte hb, hs, sampledByte_eq_sum hs]
  rfl

/-- Settles O25: an ACK writes the latch and a NACK keeps it. -/
theorem sendAckDrivesTheNinthClock : Obligations.SendAckDrivesTheNinthClock :=
  ⟨rfl, rfl, fun _ => ⟨exec_sendAckOrNack true, exec_sendAckOrNack false,
    fun hb _ => if_neg (not_busHeld_of_idle hb)⟩⟩

end Sys2Proof.Machine
end

section
/-! SUPPORT. The address phase handler: SEND_ADDR and ADDR_PHASE on their own (R121 to R127). -/

namespace Sys2Proof.Machine

/-! ### SEND_ADDR -/

/-- SEND_ADDR on a held bus, in the state it leaves: TRY shows whether it retried (R121). -/
theorem exec_sendAddr {s : State} (byte : Byte) (rlim : BitVec 1) (hb : s.bus = .busHeld) :
    exec (.sendAddr byte rlim) s = .next { drawn (attempts s 0 rlim) s with
      pins := { sclOut := false, sdaOut := true, sdaDir := .input }
      dp := { s.dp with
        shift := byte, bitcnt := 0#4, ackf := addrAck s 0 rlim
        tries := if retried rlim (answerAt s 0) then 1#1 else 0#1 }
      seq := .ready
      trace := s.trace ++ sendAddrEvents s 0 byte rlim
      results := s.results ++ [.flag (addrAck s 0 rlim)] } := by
  rw [exec_next.2 (.sendAddr hb), sendAddrOp_eq]
  simp only [leave, drawn, enter_bus, hb, ite_self]
  rfl

theorem retried_eq_false {rlim : BitVec 1} {v : Level} (h : rlim = 0#1 ∨ v = false) : retried rlim v = false := by
  obtain rfl | rfl := h
  · rfl
  · exact retried_ack rlim

theorem retried_eq_true {rlim : BitVec 1} {v : Level} (hr : rlim = 1#1) (hv : v = true) : retried rlim v = true := by
  rw [hr, hv]
  rfl

/-- The word of SEND_ADDR: the byte, the retry limit in B and the opcode 8, every other field zero (R80). -/
theorem encode_sendAddr_word (byte : Byte) (rlim : BitVec 1) :
    (encode (.sendAddr byte rlim)).word = BitVec.ofNat 16 (byte.toNat * 256 + 8 + rlim.toNat * 32) := by
  apply BitVec.eq_of_toNat_eq
  have hword : (encode (.sendAddr byte rlim)).word.toNat = byte.toNat * 256 + rlim.toNat * 32 + 8 :=
    cmdWord_toNat byte rlim 8#5
  rw [hword, BitVec.toNat_ofNat]
  omega

/-- Settles O32: whether the first answer is retried decides between the two forms. -/
theorem sendAddrRetriesOnce : Obligations.SendAddrRetriesOnce := by
  refine fun s byte rlim => ⟨encode_sendAddr_word byte rlim, fun hb h => ?once, fun hb hr h => ?twice,
    fun hb => if_neg (not_busHeld_of_idle hb)⟩
  case once =>
    rw [exec_sendAddr byte rlim hb]
    simp [attempts, addrAck, sendAddrEvents, retried_eq_false h]
  case twice =>
    rw [exec_sendAddr byte rlim hb]
    simp [attempts, addrAck, sendAddrEvents, retryEvents, retried_eq_true hr h]

/-! ### ADDR_PHASE -/

section
variable {s : State} {m : Msg}

/-- ADDR_PHASE of a well-formed descriptor on a held bus, by its ledger (R125). -/
theorem exec_addrPhase_run (hb : s.bus = .busHeld) (hc : checkMsg s.par m = none) :
    ∃ t, exec (.addrPhase m) s = .next t ∧ t.trace = s.trace ++ (addrPhaseRun s m 0).events ∧
      t.results = s.results ++ [.flag (addrPhaseRun s m 0).ok] ∧ t.seq = .ready := by
  obtain ⟨hok, htrace, -⟩ := addrPhaseOp_run s (enter .addrPhase s) 0 m ⟨fun n => by simp [answerAt], rfl, rfl⟩
  have hheld := addrPhaseOp_held m (s := enter .addrPhase s) hb
  refine ⟨_, exec_next.2 (.addrPhase hb hc), htrace, ?_, rfl⟩
  simp [leave, hok, hheld.results]

theorem addrPhaseRun_7bit (h7 : is10bit s.par m = false) :
    addrPhaseRun s m = sendAddrRun s m (addrByte7 s.par m) := by
  rw [addrPhaseRun, if_neg (by simp [h7])]

/-! The ledger of the 10-bit form: `k` numbers the answer to the first byte, `j` the answer to the second. -/

section
variable {k j : Nat} (h10 : is10bit s.par m = true)
include h10

theorem addrPhaseRun_firstNack (h1 : (sendAddrRun s m (addrByteHi m) k).ok = false) :
    addrPhaseRun s m k = sendAddrRun s m (addrByteHi m) k := by
  rw [addrPhaseRun, if_pos h10, Run.andThen_stop h1]

variable (h1 : (sendAddrRun s m (addrByteHi m) k).ok = true) (hj : k + (sendAddrRun s m (addrByteHi m) k).answers = j)
include h1 hj

theorem addrPhaseRun_secondNack (h2 : (directByteRun s m (addrByteLo m) j).ok = false) :
    (addrPhaseRun s m k).events =
      (sendAddrRun s m (addrByteHi m) k).events ++ (directByteRun s m (addrByteLo m) j).events ∧
    (addrPhaseRun s m k).ok = false := by
  rw [addrPhaseRun, if_pos h10, Run.andThen_ok h1, hj, Run.andThen_stop h2]
  exact ⟨rfl, h2⟩

variable (h2 : (directByteRun s m (addrByteLo m) j).ok = true)
include h2

theorem addrPhaseRun_10bitWrite (hrd : isRead s.par m = false) :
    (addrPhaseRun s m k).events =
      (sendAddrRun s m (addrByteHi m) k).events ++ (directByteRun s m (addrByteLo m) j).events ∧
    (addrPhaseRun s m k).ok = true := by
  rw [addrPhaseRun, if_pos h10, Run.andThen_ok h1, hj, Run.andThen_ok h2, hrd]
  exact ⟨congrArg _ (List.append_nil _), rfl⟩

theorem addrPhaseRun_10bitRead (hrd : isRead s.par m = true) :
    (addrPhaseRun s m k).events =
      (sendAddrRun s m (addrByteHi m) k).events ++ (directByteRun s m (addrByteLo m) j).events ++
        restartEvents (half s.us) ++ (sendAddrRun s m (addrByteHi m ||| 0x01#8) (j + 1)).events ∧
    (addrPhaseRun s m k).ok = (sendAddrRun s m (addrByteHi m ||| 0x01#8) (j + 1)).ok := by
  rw [addrPhaseRun, if_pos h10, Run.andThen_ok h1, hj, Run.andThen_ok h2, if_pos hrd, Run.andThen_ok rfl]
  simp only [List.append_assoc]
  exact ⟨rfl, rfl⟩

end

end

/-- Settles O33: ADDR_PHASE follows its ledger, whose cases are the branches of R125 to R127. -/
theorem addrPhaseSendsTheAddress : Obligations.AddrPhaseSendsTheAddress := by
  intro s m hb hc ign r
  obtain ⟨t, hexec, htrace, hresults, hseq⟩ := exec_addrPhase_run hb hc
  refine ⟨t, _, _, hexec, htrace, hresults, hseq, fun h7 => ?sevenBit, fun h10 hack hign => ?firstNack,
    fun h10 h1 => ?firstAck⟩
  case sevenBit =>
    rw [addrPhaseRun_7bit h7]
    exact ⟨rfl, rfl⟩
  case firstNack =>
    have h1 : (sendAddrRun s m (addrByteHi m) 0).ok = false := Bool.or_eq_false_iff.2 ⟨hack, hign⟩
    rw [addrPhaseRun_firstNack h10 h1]
    exact ⟨rfl, h1⟩
  case firstAck =>
    intro k es2 ok2
    have hk : 0 + (sendAddrRun s m (addrByteHi m) 0).answers = k := Nat.zero_add _
    exact ⟨addrPhaseRun_secondNack h10 h1 hk, addrPhaseRun_10bitWrite h10 h1 hk, addrPhaseRun_10bitRead h10 h1 hk⟩

/-- Settles O34: from the frame of the operations on a held bus and that of the address phase. -/
theorem addrPhaseFrame : Obligations.AddrPhaseFrame := by
  intro s t m hx
  have hx := exec_next.1 hx
  have hset := hx.setting
  cases hx with
  | api ha _ => cases ha
  | addrPhase hb _ =>
    have hheld := addrPhaseOp_held m (s := enter .addrPhase s) hb
    have hstill := addrPhaseOp_still m (enter .addrPhase s)
    exact ⟨hset, hheld.callbacks, hheld.frames, hstill.mem, hheld.bus.trans hb.symm, hheld.eng, hheld.locked, hheld.scl,
      hstill.bytes, hstill.remain, hheld.i, hheld.result, fun a => congrArg (Memory.read · a) hstill.mem⟩

end Sys2Proof.Machine
end

section
/-! SUPPORT. The data phases on their own: SEND_BYTES and RECV_BYTES (R143 to R148). -/

namespace Sys2Proof.Machine

/-- What a data phase leaves alone, even one of no byte, which does not move SCL. -/
structure DataKeeps (s t : State) : Prop where
  callbacks : t.callbacks = s.callbacks
  frames : t.frames = s.frames
  results : t.results = s.results
  bus : t.bus = s.bus
  eng : t.eng = s.eng
  locked : t.locked = s.locked
  i : t.dp.i = s.dp.i
  result : t.dp.result = s.dp.result

theorem initCounts_keeps (m : Msg) (s : State) : DataKeeps s (initCounts m s) :=
  ⟨rfl, rfl, rfl, rfl, rfl, rfl, rfl, rfl⟩

theorem Held.dataKeeps {s t : State} (h : Held s t) (hb : s.bus = .busHeld) : DataKeeps s t :=
  ⟨h.callbacks, h.frames, h.results, h.bus.trans hb.symm, h.eng, h.locked, h.i, h.result⟩

theorem sendBytesOp_keeps (m : Msg) {s : State} (hb : s.bus = .busHeld) : DataKeeps s (sendBytesOp m s) := by
  rcases sendBytesOp_cases m hb with ⟨-, h⟩ | h
  · exact h ▸ initCounts_keeps m s
  · exact h.dataKeeps hb

theorem recvBytesOp_keeps (m : Msg) {s : State} (hb : s.bus = .busHeld) : DataKeeps s (recvBytesOp m s) := by
  rcases recvBytesOp_cases m hb with ⟨-, h⟩ | h
  · exact h ▸ initCounts_keeps m s
  · exact h.dataKeeps hb

/-- The events of `n` bytes sent from index 0, read from the state SEND_BYTES was issued in (R143). -/
theorem sendEvents_initCounts (s : State) (m : Msg) (n : Nat) :
    sendEvents (initCounts m (enter .sendBytes s)) m 0 n = (List.range n).flatMap fun d =>
      .memRead (cellAddr m d) (Memory.read s.mem (cellAddr m d)) ::
        writeByteEvents (half s.us) (Memory.read s.mem (cellAddr m d)) (answerAt s d) := by
  simp [sendEvents, sentByte]

/-- The events of RECV_BYTES, read from the state it was issued in (R145 to R147). -/
theorem recvEventsFrom_initCounts (s : State) (m : Msg) :
    recvEventsFrom (initCounts m (enter .recvBytes s)) m 0 m.len = (List.range m.len).flatMap fun j =>
      readByteEvents s.us (answersFrom s (8 * j) 8) ++
        (.memWrite (cellAddr m j) (sampledByte s (8 * j)) ::
          if noReadAck s.par m then [] else sendAckEvents (half s.us) (decide (j < m.len - 1))) := by
  have last (j : Nat) : decide (j < m.len - 1) = decide (j + 1 < m.len) := decide_eq_decide.2 Nat.lt_sub_iff_add_lt
  refine List.flatMap_congr fun j _ => ?_
  rw [Nat.zero_add, last]
  rfl

/-- Settles O37: the loop of SEND_BYTES when no unmasked NACK comes, and what it keeps. -/
theorem sendBytesSendsAll : Obligations.SendBytesSendsAll := by
  intro s m hb hc hr hack
  have run : Exec (.sendBytes m) s _ := .sendBytes hb hc hr
  have kept := sendBytesOp_keeps m (s := enter .sendBytes s) hb
  obtain ⟨sent, hbytes, hremain⟩ := sendLoop_all m m.len (initCounts m (enter .sendBytes s)) (by simpa using hack)
  have hcount : (sendBytesOp m (enter .sendBytes s)).dp.bytes = m.len := hbytes.trans (Nat.zero_add _)
  refine ⟨_, exec_next.2 run, run.setting, kept.callbacks, kept.frames, ?trace, ?results, hcount,
    hremain.trans (Nat.sub_self _), sent.mem, kept.bus, kept.eng, kept.locked, rfl, sent.sdaIn, sent.draws, sent.addr1,
    sent.addr2, sent.rlim, sent.tries, kept.i, kept.result⟩
  case trace => exact sent.trace.trans (congrArg _ (sendEvents_initCounts s m m.len))
  case results => rw [leave_results, kept.results, hcount, enter_results]

/-- Settles O38: the loop of SEND_BYTES up to its first unmasked NACK, and what it keeps. -/
theorem sendBytesStopsAtNack : Obligations.SendBytesStopsAtNack := by
  intro s m j hb hc hr hign hj hnack hack
  have run : Exec (.sendBytes m) s _ := .sendBytes hb hc hr
  have kept := sendBytesOp_keeps m (s := enter .sendBytes s) hb
  obtain ⟨sent, hbytes, -, hackf⟩ := sendLoop_nack m m.len (initCounts m (enter .sendBytes s)) hign j hj
    (by simpa using hnack) (by simpa using hack)
  have hcount : (sendBytesOp m (enter .sendBytes s)).dp.bytes = j := hbytes.trans (Nat.zero_add _)
  refine ⟨_, exec_next.2 run, run.setting, kept.callbacks, kept.frames, ?trace, ?results, hackf, sent.mem, kept.bus,
    kept.eng, kept.locked, rfl, sent.sdaIn, sent.draws, sent.addr1, sent.addr2, sent.rlim, sent.tries, kept.i, kept.result⟩
  case trace => exact sent.trace.trans (congrArg _ (sendEvents_initCounts s m (j + 1)))
  case results => rw [leave_results, kept.results, hcount, enter_results]

/-- Settles O39: the loop of RECV_BYTES, which stores from index 0 on, and what it keeps. -/
theorem recvBytesStoresAll : Obligations.RecvBytesStoresAll := by
  intro s m hb hc hr hw
  have run : Exec (.recvBytes m) s _ := .recvBytes hb hc hr
  have kept := recvBytesOp_keeps m (s := enter .recvBytes s) hb
  have got := recvBytesOp_received m (enter .recvBytes s)
  have hcount : (recvBytesOp m (enter .recvBytes s)).dp.bytes = m.len := got.bytes.trans (Nat.zero_add _)
  refine ⟨_, exec_next.2 run, run.setting, kept.callbacks, kept.frames, ?trace, ?results, ?stored, ?outside, got.wf hw,
    kept.bus, kept.eng, kept.locked, rfl, got.sdaIn, got.draws, got.ackf, got.addr1, got.addr2, got.rlim, got.tries, kept.i,
    kept.result⟩
  case trace => exact got.trace.trans (congrArg _ (recvEventsFrom_initCounts s m))
  case results => rw [leave_results, kept.results, hcount, enter_results]
  case stored => simpa [sampledByte] using got.stored hw
  case outside => exact fun a hne => got.kept a (by simpa using hne)

end Sys2Proof.Machine
end

section
/-! SUPPORT. XFER by its ledger: the way out, the empty list, the lists with IGNORE_NACK (R141, R151 to R157). -/

namespace Sys2Proof.Machine

/-- Settles O44: the ledger of XFER. -/
theorem xferFollowsItsLedger : Obligations.XferFollowsItsLedger := fun _ _ hb hc => exec_xfer_run hb hc

/-- Inside an operation just entered the answers and the setting are those before it. -/
theorem enter_from (op : Op) (s : State) : From s 0 (enter op s) :=
  ⟨fun n => by simp, rfl, rfl⟩

/-- Settles O42: EXIT gives the levels and BUS, the ledger the events, and `I` is at most N. -/
theorem xferLeavesTheBusIdle : Obligations.XferLeavesTheBusIdle := by
  intro s ms hb hc
  have run : Exec (.xfer ms) s _ := .xfer hb hc
  have exited := xferOp_exited ms (enter .xfer s)
  obtain ⟨htrace, -⟩ := xferOp_run (enter_from .xfer s) ms
  refine ⟨_, _, _, exec_next.2 run, run.setting, exited.callbacks, exited.frames, exited.bus, exited.eng, exited.pins,
    exited.locked, rfl, htrace, congrArg (· ++ _) exited.results, ?bound⟩
  rw [exited.result]
  exact exited.upper.trans (Nat.zero_add _).le

theorem exec_xfer_busState {s : State} (ms : List Msg) (hb : s.bus = .busHeld) :
    exec (.xfer ms) s = .refused (.refuse .busState { s with refused := true }) :=
  if_neg (by simp [hb])

/-- Settles O43: the ledger of no message is empty, and the check of BUS comes before everything else. -/
theorem xferOfNothing : Obligations.XferOfNothing := by
  refine fun s => ⟨fun hb => ?_, fun hb ms => exec_xfer_busState ms hb⟩
  obtain ⟨t, hx, htrace, hresults, -⟩ := exec_xfer_run (ms := []) hb rfl
  exact ⟨t, hx, by simpa [xferRun] using htrace, hresults⟩

theorem dataRun_masked {s : State} {m : Msg} (h : ignoreNack s.par m = true) (mem : Memory) (k : Nat) :
    (dataRun s mem m k).ok = true := by
  unfold dataRun
  split
  · rfl
  · simp [bytesServed, h]

/-- With IGNORE_NACK a message is fully serviced, whatever the answers are (R127, R144, R156). -/
theorem messageRun_masked {s : State} {m : Msg} (h : ignoreNack s.par m = true) (mem : Memory) (first : Bool) (k : Nat) :
    (messageRun s mem first m k).ok = true := by
  rw [messageRun, Run.andThen_ok (addressRun_masked h first k)]
  exact dataRun_masked h mem _

theorem xferRun_served_masked {s : State} {ms : List Msg} (h : ∀ m ∈ ms, ignoreNack s.par m = true) (k : Nat)
    (first : Bool) (mem : Memory) : (xferRun s k first mem ms).served = ms.length := by
  induction ms generalizing k first mem with
  | nil => rfl
  | cons m ms ih =>
    obtain ⟨hm, hms⟩ := List.forall_mem_cons.1 h
    simp [xferRun, messageRun_masked hm, ih hms]

/-- Settles O47: with IGNORE_NACK in every message the ledger serves them all. -/
theorem ignoreNackCompletes : Obligations.IgnoreNackCompletes := by
  intro s ms hb hc hign
  obtain ⟨t, hx, -, hresults, -⟩ := exec_xfer_run hb hc
  exact ⟨t, hx, by rw [hresults, xferRun_served_masked hign]⟩

end Sys2Proof.Machine
end

section
/-! SUPPORT. The abort of a transaction by an unmasked NACK, after messages that were acknowledged (R149, R151, R158, R184). -/

namespace Sys2Proof.Machine

/-- The first message that is not fully serviced ends the transaction: EXIT follows its events, and its index is the count. -/
theorem exec_xfer_aborts {s : State} {pre post : List Msg} {m : Msg} (hb : s.bus = .idle)
    (hc : checkMsgs s.par (pre ++ m :: post) = none) (hpre : ackedFrom s 0 pre)
    (hstop : (messageRun s (ackedMems s 0 s.mem pre) pre.isEmpty m (listAnswers s.par pre)).ok = false) :
    ∃ t, exec (.xfer (pre ++ m :: post)) s = .next t ∧ t.results = s.results ++ [.count pre.length] ∧
      t.mem = messageMem s (ackedMems s 0 s.mem pre) pre.isEmpty m (listAnswers s.par pre) ∧
      t.trace = s.trace ++ (startEvents (half s.us) ++ ackedEvents s 0 true s.mem pre ++
        (messageRun s (ackedMems s 0 s.mem pre) pre.isEmpty m (listAnswers s.par pre)).events ++ stopEvents s.us) := by
  obtain ⟨t, hx, htrace, hresults, hmem, -⟩ := exec_xfer_run hb hc
  obtain ⟨n, hledger⟩ := xferRun_acked s pre (m :: post) 0 true s.mem hpre
  simp only [hledger, Nat.zero_add, Bool.true_and, xferRun, hstop, Bool.false_eq_true, if_false, Nat.add_zero]
    at htrace hresults hmem
  exact ⟨t, hx, hresults, hmem, by rw [htrace]; simp only [List.append_assoc]⟩

section
variable {s : State} {m : Msg} {k : Nat}

/-! ### The address part -/

theorem addressRun_started (first : Bool) (hns : noStart s.par m = false) :
    (addressRun s first m k).ok = (addrPhaseRun s m k).ok ∧
      (addressRun s first m k).events = (if first then [] else restartEvents (half s.us)) ++ (addrPhaseRun s m k).events := by
  rw [addressRun, if_neg (by simp [hns])]
  cases first
  · rw [if_neg (by simp), Run.andThen_ok rfl]
    exact ⟨rfl, rfl⟩
  · exact ⟨rfl, rfl⟩

/-- An address byte acknowledged at once draws one answer and goes on. -/
theorem sendAddrRun_ack (b : Byte) (h : answerAt s k = false) :
    (sendAddrRun s m b k).ok = true ∧ (sendAddrRun s m b k).answers = 1 ∧
      (sendAddrRun s m b k).events = writeByteEvents (half s.us) b false :=
  ⟨by simp [sendAddrRun, addrAck_ack h], attempts_ack h _, sendAddrEvents_ack h _ b⟩

theorem directByteRun_ack (b : Byte) (h : answerAt s k = false) :
    (directByteRun s m b k).ok = true ∧ (directByteRun s m b k).events = writeByteEvents (half s.us) b false := by
  simp [directByteRun, h]

/-- The events of an address byte that both attempts leave unacknowledged (R121). -/
def nackedTwice (s : State) (b : Byte) : List Event :=
  writeByteEvents (half s.us) b true ++ stopEvents s.us ++ [.delay s.us] ++ startEvents (half s.us) ++
    writeByteEvents (half s.us) b true

variable (hign : ignoreNack s.par m = false)
include hign

theorem sendAddrRun_nackedTwice (b : Byte) (h1 : answerAt s k = true) (h2 : answerAt s (k + 1) = true) :
    (sendAddrRun s m b k).ok = false ∧ (sendAddrRun s m b k).events = nackedTwice s b := by
  have hretry : retried (retryLimit s.par m) (answerAt s k) = true := retried_eq_true (by simp [retryLimit, hign]) h1
  simp [sendAddrRun, addrAck, sendAddrEvents, retryEvents, nackedTwice, hretry, h2, hign]

theorem directByteRun_nack (b : Byte) (h : answerAt s k = true) :
    (directByteRun s m b k).ok = false ∧ (directByteRun s m b k).events = writeByteEvents (half s.us) b true := by
  simp [directByteRun, h, hign]

end

/-- An address phase that aborts is all there is of its message. -/
theorem exec_xfer_address_aborts {s : State} {pre post : List Msg} {m : Msg} {es : List Event} (hb : s.bus = .idle)
    (hc : checkMsgs s.par (pre ++ m :: post) = none) (hpre : ackedFrom s 0 pre) (hns : noStart s.par m = false)
    (hstop : (addrPhaseRun s m (listAnswers s.par pre)).ok = false)
    (hes : (addrPhaseRun s m (listAnswers s.par pre)).events = es) :
    ∃ t, exec (.xfer (pre ++ m :: post)) s = .next t ∧ t.results = s.results ++ [.count pre.length] ∧
      t.mem = ackedMems s 0 s.mem pre ∧
      t.trace = s.trace ++ (startEvents (half s.us) ++ ackedEvents s 0 true s.mem pre ++
        ((if pre.isEmpty then [] else restartEvents (half s.us)) ++ es) ++ stopEvents s.us) := by
  obtain ⟨hok, hevents⟩ := addressRun_started (k := listAnswers s.par pre) pre.isEmpty hns
  rw [hstop] at hok
  have hmsg : messageRun s (ackedMems s 0 s.mem pre) pre.isEmpty m (listAnswers s.par pre) =
      addressRun s pre.isEmpty m (listAnswers s.par pre) := Run.andThen_stop hok
  have hkept : messageMem s (ackedMems s 0 s.mem pre) pre.isEmpty m (listAnswers s.par pre) =
      ackedMems s 0 s.mem pre := by simp [messageMem, hok]
  obtain ⟨t, hx, hresults, hmem, htrace⟩ := exec_xfer_aborts hb hc hpre (by rw [hmsg, hok])
  rw [hmsg, hevents, hes] at htrace
  exact ⟨t, hx, hresults, hmem.trans hkept, htrace⟩

/-- Settles O45: the address phase ends at the NACK in each of its four cases, by its ledger. -/
theorem addressNackAborts : Obligations.AddressNackAborts := by
  intro s pre post m hb hc hpre hns hign k h twice aborted
  have aborts {es : List Event} (hstop : (addrPhaseRun s m k).ok = false) (hes : (addrPhaseRun s m k).events = es) :
      aborted es := exec_xfer_address_aborts hb hc hpre hns hstop hes
  refine ⟨fun h7 n1 n2 => ?sevenBit, fun h10 n1 n2 => ?firstByte, fun h10 a1 n2 => ?secondByte,
    fun h10 hr a1 a2 n3 n4 => ?resentByte⟩
  case sevenBit =>
    obtain ⟨hok, hes⟩ := sendAddrRun_nackedTwice hign (addrByte7 s.par m) n1 n2
    rw [← addrPhaseRun_7bit h7] at hok hes
    exact aborts hok hes
  case firstByte =>
    obtain ⟨hok, hes⟩ := sendAddrRun_nackedTwice hign (addrByteHi m) n1 n2
    have first := addrPhaseRun_firstNack h10 hok
    exact aborts (by rw [first, hok]) (by rw [first]; exact hes)
  case secondByte =>
    obtain ⟨hok1, hone, hes1⟩ := sendAddrRun_ack (m := m) (addrByteHi m) a1
    obtain ⟨hok2, hes2⟩ := directByteRun_nack hign (addrByteLo m) n2
    obtain ⟨hes, hok⟩ := addrPhaseRun_secondNack h10 hok1 (congrArg (k + ·) hone) hok2
    exact aborts hok (by rw [hes, hes1, hes2])
  case resentByte =>
    obtain ⟨hok1, hone, hes1⟩ := sendAddrRun_ack (m := m) (addrByteHi m) a1
    obtain ⟨hok2, hes2⟩ := directByteRun_ack (m := m) (addrByteLo m) a2
    obtain ⟨hok3, hes3⟩ := sendAddrRun_nackedTwice hign (addrByteHi m ||| 0x01#8) n3 n4
    obtain ⟨hes, hok⟩ := addrPhaseRun_10bitRead h10 hok1 (congrArg (k + ·) hone) hok2 hr
    exact aborts (hok.trans hok3) (by rw [hes, hes1, hes2, hes3]; rfl)

/-! ### The data part -/

/-- A WRITE whose byte `j` is the first that is not acknowledged sends the bytes up to it, and aborts (R143, R144). -/
theorem dataRun_nack {s : State} {m : Msg} {k j : Nat} (mem : Memory) (hr : isRead s.par m = false)
    (hign : ignoreNack s.par m = false) (hj : j < m.len) (hnack : answerAt s (k + j) = true)
    (hack : ∀ d < j, answerAt s (k + d) = false) :
    (dataRun s mem m k).ok = false ∧
      (dataRun s mem m k).events = (List.range (j + 1)).flatMap fun d =>
        .memRead (cellAddr m d) (Memory.read mem (cellAddr m d)) ::
          writeByteEvents (half s.us) (Memory.read mem (cellAddr m d)) (decide (d = j)) := by
  have hserved : bytesServed s m k = j := by rw [bytesServed, if_neg (by simp [hign]), acksFrom_nack hj hnack hack]
  have answered : ∀ d ∈ List.range (j + 1), answerAt s (k + d) = decide (d = j) := by
    intro d hd
    rcases Nat.lt_succ_iff_lt_or_eq.1 (List.mem_range.1 hd) with hlt | rfl
    · rw [hack d hlt, decide_eq_false hlt.ne]
    · rw [hnack, decide_eq_true rfl]
  simp only [dataRun, hr, Bool.false_eq_true, if_false, hserved, Nat.min_eq_left (show j + 1 ≤ m.len from hj)]
  exact ⟨decide_eq_false hj.not_ge, List.flatMap_congr fun d hd => by rw [answered d hd]⟩

/-- Settles O46: the address part is acknowledged, and the data part ends at byte `j`. -/
theorem dataNackAborts : Obligations.DataNackAborts := by
  intro s pre post m j hb hc hpre hr hign haddr k mem hj hnack hack
  have address := addressRun_acked pre.isEmpty haddr
  obtain ⟨hok, hevents⟩ := dataRun_nack mem hr hign hj hnack hack
  have hmsg := Run.andThen_ok (a := addressRun s pre.isEmpty m) (b := dataRun s mem m) (by rw [address])
  rw [address] at hmsg
  have hkept : messageMem s mem pre.isEmpty m (listAnswers s.par pre) = mem := by
    simp [messageMem, address, ackedMem, hr]
  obtain ⟨t, hx, hresults, hmem, htrace⟩ := exec_xfer_aborts hb hc hpre (by rw [messageRun, hmsg]; exact hok)
  refine ⟨t, hx, hresults, hmem.trans hkept, ?_⟩
  rw [htrace, messageRun, hmsg, ← hevents]

end Sys2Proof.Machine
end

section
/-! SUPPORT. The bus conditions an XFER makes, while the slave releases SDA (R43, R103, R153; log entry 21). -/

namespace Sys2Proof.Machine

/-- An XFER that completes puts on the bus its opening START, what its ledger shows, and its closing STOP. -/
theorem exec_xfer_conditions (eff : Bool) {s t : State} {ms : List Msg} (hl : linesOk s)
    (hx : exec (.xfer ms) s = .next t) :
    ∃ es c, t.trace = s.trace ++ es ∧ conditions eff s.pins es = .startCondition :: (c ++ [.stopCondition]) ∧
      retaken c = true ∧ c.count .stopCondition = (xferRun s 0 true s.mem ms).retries ∧
      c.count .startCondition = (xferRun s 0 true s.mem ms).retries + (xferRun s 0 true s.mem ms).restarts := by
  cases exec_next.1 hx with
  | api ha _ => cases ha
  | xfer hb hc =>
    obtain ⟨htrace, -⟩ := xferOp_run (enter_from .xfer s) ms
    obtain ⟨c, hretaken, hstops, hstarts, hconds⟩ := xfer_conditions eff s ms
    exact ⟨_, c, htrace, by rw [hl.2 hb]; exact hconds, hretaken, hstops, hstarts⟩

/-- Settles O49: between the opening START and the closing STOP every STOP is retaken. -/
theorem everyStopBeforeTheLastIsARetrys : Obligations.EveryStopBeforeTheLastIsARetrys := by
  intro eff s t ms hl hx
  obtain ⟨es, c, htrace, hconds, hretaken, -⟩ := exec_xfer_conditions eff hl hx
  exact ⟨es, c, htrace, hretaken, hconds⟩

/-- Settles O50: the counts of the ledger, and the opening START and the closing STOP. -/
theorem xferConditionCounts : Obligations.XferConditionCounts := by
  intro eff s t ms hl hx r
  obtain ⟨es, c, htrace, hconds, -, hstops, hstarts⟩ := exec_xfer_conditions eff hl hx
  refine ⟨es, htrace, ?stops, ?starts⟩ <;> rw [hconds]
  case stops => simp [hstops, r, Nat.add_comm]
  case starts => simp [hstarts, r, Nat.add_comm, Nat.add_left_comm]

/-! ### Stretches without a retry -/

/-- A stretch that takes no address retry, wherever it begins. -/
def Run.NoRetry (a : Run) : Prop := ∀ k, (a k).retries = 0

theorem Run.andThen_noRetry {a b : Run} (ha : a.NoRetry) (hb : b.NoRetry) : (a.andThen b).NoRetry := by
  intro k
  cases hok : (a k).ok
  · rw [Run.andThen_stop hok, ha k]
  · rw [Run.andThen_ok hok, ha k, hb]

section
variable {s : State} {m : Msg}

/-- IGNORE_NACK sets the retry limit to 0 (R121, R127). -/
theorem sendAddrRun_noRetry (h : ignoreNack s.par m = true) (b : Byte) : (sendAddrRun s m b).NoRetry := by
  intro k
  simp [sendAddrRun, retryLimit, h, retried]

theorem addrPhaseRun_noRetry (h : ignoreNack s.par m = true) : (addrPhaseRun s m).NoRetry := by
  have resent : (if isRead s.par m then (restartRun s).andThen (sendAddrRun s m (addrByteHi m ||| 0x01#8))
      else Run.nil).NoRetry := by
    split
    · exact Run.andThen_noRetry (fun _ => rfl) (sendAddrRun_noRetry h _)
    · exact fun _ => rfl
  unfold addrPhaseRun
  split
  · exact Run.andThen_noRetry (sendAddrRun_noRetry h _) (Run.andThen_noRetry (fun _ => rfl) resent)
  · exact sendAddrRun_noRetry h _

theorem dataRun_noRetry (mem : Memory) : (dataRun s mem m).NoRetry := by
  intro k
  unfold dataRun
  split <;> rfl

theorem messageRun_noRetry (h : ignoreNack s.par m = true ∨ noStart s.par m = true) (mem : Memory) (first : Bool) :
    (messageRun s mem first m).NoRetry := by
  refine Run.andThen_noRetry ?_ (dataRun_noRetry mem)
  unfold addressRun
  split
  · exact fun _ => rfl
  · rename_i hns
    have phase := addrPhaseRun_noRetry (h.resolve_right hns)
    split
    · exact phase
    · exact Run.andThen_noRetry (fun _ => rfl) phase

theorem xferRun_noRetry {ms : List Msg} (h : ∀ m ∈ ms, ignoreNack s.par m = true ∨ noStart s.par m = true) (k : Nat)
    (first : Bool) (mem : Memory) : (xferRun s k first mem ms).retries = 0 := by
  induction ms generalizing k first mem with
  | nil => rfl
  | cons m ms ih =>
    obtain ⟨hm, hms⟩ := List.forall_mem_cons.1 h
    have one := messageRun_noRetry hm mem first k
    simp only [xferRun]
    split
    · simp only [one, ih hms]
    · exact one

theorem xferRun_acked_retries {ms : List Msg} {k : Nat} (h : ackedFrom s k ms) (first : Bool) (mem : Memory) :
    (xferRun s k first mem ms).retries = 0 := by
  obtain ⟨n, hledger⟩ := xferRun_acked s ms [] k first mem h
  rw [List.append_nil] at hledger
  rw [hledger]
  rfl

end

/-- Settles O51: without a retry no STOP stands before the closing one; and the two kinds of list that take none. -/
theorem oneStopWithoutRetry : Obligations.OneStopWithoutRetry := by
  intro eff s t ms hl hx r
  refine ⟨fun hr => ?_, fun hack => xferRun_acked_retries hack true s.mem, fun hmask => xferRun_noRetry hmask 0 true s.mem⟩
  obtain ⟨es, c, htrace, hconds, -, hstops, hstarts⟩ := exec_xfer_conditions eff hl hx
  have hc := conditions_all_starts (hstops.trans hr)
  have hn : c.count .startCondition = r.restarts := by rw [hstarts]; exact (congrArg (· + _) hr).trans (Nat.zero_add _)
  refine ⟨es, htrace, ?_⟩
  rw [hconds, hc, hn, Nat.add_comm, List.replicate_succ, List.cons_append]

end Sys2Proof.Machine
end

section
/-! SUPPORT. TRANSFER and the wrappers with the lock granted: XFER between LOCK_ACQUIRE and LOCK_RELEASE, then the return or the
error callback (R160 to R165, R167). -/

namespace Sys2Proof.Machine

/-! ### XFER, whatever stands around it -/

/-- What is neither a lock event nor a callback is on the bus or in a buffer (R28). -/
theorem onBus_iff {e : Event} :
    onBus e = true ↔ e ≠ .lockAcquire ∧ e ≠ .lockRelease ∧ ∀ c, e ≠ .errorCallback c := by
  cases e <;> simp [onBus]

/-- XFER of `s` begun on an empty history, which ends as XFER's own. -/
def xferAlone (ms : List Msg) (s : State) : State := xferOp ms { s with trace := [] }

section
variable (ms : List Msg) (s : State)

theorem xferAlone_exited : Exited ms.length { s with trace := [], dp.i := 0 } (xferAlone ms s) :=
  xferOp_exited ms { s with trace := [] }

theorem xferAlone_result_le : (xferAlone ms s).dp.result ≤ ms.length := by
  have h := xferAlone_exited ms s
  simpa [h.result] using h.upper

/-- Under any history, lock and position XFER does what it does alone. -/
theorem xferOp_around (T : List Event) (L : Bool) (Q : Seq) :
    xferOp ms { s with trace := T, locked := L, seq := Q } = around T L Q (xferAlone ms s) := by
  simpa [around, xferAlone] using around_xferOp T L Q { s with trace := [] } ms

/-- The events of XFER are on the bus and in the buffers (R167). -/
theorem xferAlone_onBus : ∀ e ∈ (xferAlone ms s).trace, onBus e = true := by
  obtain ⟨htrace, -⟩ := xferOp_run (s := s) (u := { s with trace := [] }) ⟨fun n => by rw [Nat.zero_add]; rfl, rfl, rfl⟩ ms
  obtain ⟨c, hshows, -⟩ := xferRun_shown s ms 0 true s.mem
  rw [← List.all_eq_true, xferAlone, htrace, List.nil_append, List.all_append, List.all_append, hshows.bus]
  rfl

/-- TRANSFER of `ms` that runs in the operation `op`: XFER, the lock events around it, and the callback when the count is
short, whose calls keep the TRANSFER in a frame (R160, R161, R185). -/
def transferred (op : Op) (cap : CapHandle) : State :=
  let x := xferAlone ms s
  let n := x.dp.result
  { x with
    locked := false
    seq := .ready
    trace := s.trace ++ (.lockAcquire :: x.trace ++ (.lockRelease :: if n = ms.length then [] else [.errorCallback cap]))
    results := s.results ++ if calledBack s ms.length n = [] then [.count n] else []
    callbacks := if n = ms.length then s.callbacks else s.callbacks.tail
    frames :=
      if calledBack s ms.length n = [] then s.frames
      else { position := .running op s.trace.length, ms := ms, result := n, calls := calledBack s ms.length n } :: s.frames }

theorem transferOp_granted (op : Op) (cap : CapHandle) :
    transferOp cap ms (emit .lockAcquire (enter op s)) = transferred ms s op cap := by
  have h := xferAlone_exited ms s
  have hx : xferOp ms (emit .lockAcquire (enter op s)) =
      around (s.trace ++ [.lockAcquire]) true (.running op s.trace.length) (xferAlone ms s) := xferOp_around ms s _ _ _
  rw [transferOp_eq, hx]
  simp [transferred, around, calledBack, h.callbacks, h.frames, h.results]

end

section
variable {i : Instr} {cap : CapHandle} {ms : List Msg} {s : State}

theorem exec_xfer_alone (hb : s.bus = .idle) (hc : checkMsgs s.par ms = none) :
    exec (.xfer ms) s = .next { xferAlone ms s with
      locked := s.locked
      seq := .ready
      trace := s.trace ++ (xferAlone ms s).trace
      results := s.results ++ [.count (xferAlone ms s).dp.result] } := by
  have hx : xferOp ms (enter .xfer s) = around s.trace s.locked (.running .xfer s.trace.length) (xferAlone ms s) :=
    xferOp_around ms s _ _ _
  rw [exec_next.2 (.xfer hb hc), hx]
  simp [leave, around, (xferAlone_exited ms s).results]

/-- No other agent holds a mutex that blocks: the lock is granted (R190). -/
theorem lockBlocked_eq_false (h : s.par.mutexBlocks = false ∨ s.mutexOther = false) : lockBlocked s = false := by
  rcases h with h | h <;> simp [lockBlocked, h]

theorem transfer_granted (hb : s.bus = .idle) (hc : checkMsgs s.par ms = none) (hl : lockBlocked s = false) :
    transfer i cap ms s = .next (transferred ms s i.op cap) := by
  rw [transfer_runs hc hl hb, transferOp_granted]

/-! ### What the error callback calls (R161, R185) -/

theorem calledBack_full {n : Nat} : calledBack s n n = [] := if_pos rfl

theorem calledBack_silent {n k : Nat} (h : s.callbacks = [] ∨ ∃ rest, s.callbacks = [] :: rest) : calledBack s n k = [] := by
  unfold calledBack
  split
  · rfl
  · rcases h with h | ⟨rest, h⟩ <;> rw [h] <;> rfl

theorem calledBack_calls {n k : Nat} {c : Command} {cs : List Command} {rest : List (List Command)} (hk : k ≠ n)
    (h : s.callbacks = (c :: cs) :: rest) : calledBack s n k = c :: cs := by
  rw [calledBack, if_neg hk, h]
  rfl

end

/-- Settles O52: both run the same XFER, and what its count and the callback's calls are decides the end of TRANSFER. -/
theorem transferIsLockedXfer : Obligations.TransferIsLockedXfer := by
  intro s cap ms hb hc hl
  have run : exec (.transfer cap ms) s = .next (transferred ms s .transfer cap) :=
    transfer_granted hb hc (lockBlocked_eq_false hl)
  refine ⟨_, (xferAlone ms s).trace, (xferAlone ms s).dp.result, exec_xfer_alone hb hc, rfl,
    fun e he => onBus_iff.1 (xferAlone_onBus ms s e he), rfl, fun hn => ?full, fun hn hcb => ?silent,
    fun hn c cs rest hcb => ?calls⟩ <;> rw [run]
  case full => simp [transferred, hn, calledBack_full, (xferAlone_exited ms s).callbacks, (xferAlone_exited ms s).frames]
  case silent => simp [transferred, hn, calledBack_silent hcb, (xferAlone_exited ms s).frames]
  case calls => simp [transferred, hn, calledBack_calls hn hcb, hcb]

/-- Settles O57: every such operation runs its list as TRANSFER does, and XFER leaves the bus idle with a count of at most N. -/
theorem apiOperationsComplete : Obligations.ApiOperationsComplete := by
  intro s cap i ms hb hl hc hi
  have list : apiList s.par i = some (cap, ms) := by
    rcases hi with rfl | ⟨_, _, _, _, rfl, rfl⟩ | ⟨_, _, _, _, rfl, rfl⟩ | ⟨_, _, _, _, _, rfl, rfl⟩ |
      ⟨_, _, _, _, _, rfl, rfl⟩ <;> rfl
  have run : exec i s = .next (transferred ms s i.op cap) := by
    rw [exec_api list, transfer_granted hb hc (lockBlocked_eq_false hl)]
  have exited := xferAlone_exited ms s
  refine ⟨_, (xferAlone ms s).dp.result, run, (exec_next.1 run).setting, exited.bus, exited.eng, rfl, rfl, exited.pins,
    xferAlone_result_le ms s, fun h => ?returned, fun hn c cs rest hcb => ?standing⟩
  case returned =>
    have uncalled : calledBack s ms.length (xferAlone ms s).dp.result = [] := by
      rcases h with h | h
      · rw [h, calledBack_full]
      · exact calledBack_silent h
    simp [transferred, uncalled]
  case standing =>
    simp [transferred, calledBack_calls hn.ne hcb, hn.ne, hcb]

/-! ### The wrappers (R162 to R165) -/

/-- The frames that stood before an operation keep their positions. -/
theorem framesIssuedAs_below (i : Instr) (fs : List Frame) : framesIssuedAs i fs.length fs = fs := by
  cases fs <;> simp [framesIssuedAs]

/-- The frame above them is the operation's own. -/
theorem framesIssuedAs_own (i : Instr) (f : Frame) (fs : List Frame) :
    framesIssuedAs i fs.length (f :: fs) = { f with position := f.position.issuedAs i } :: fs := by
  simp [framesIssuedAs]

theorem transferred_issuedAs (i : Instr) (op : Op) (cap : CapHandle) (ms : List Msg) (s : State) :
    issuedAs i s (.next (transferred ms s op cap)) = .next (transferred ms s i.op cap) := by
  by_cases h : calledBack s ms.length (xferAlone ms s).dp.result = [] <;>
    simp [issuedAs, transferred, Seq.issuedAs, h, framesIssuedAs_below, framesIssuedAs_own]

/-- TRANSFER under another name is TRANSFER but for the name (R24): in each of its four answers. -/
theorem transfer_issuedAs (i j : Instr) (cap : CapHandle) (ms : List Msg) (s : State) :
    transfer i cap ms s = issuedAs i s (transfer j cap ms s) := by
  cases hc : checkMsgs s.par ms with
  | some r => rw [transfer_illFormed hc, transfer_illFormed hc]; simp [issuedAs]
  | none =>
    cases hl : lockBlocked s with
    | true =>
      rw [transfer_waits hc hl, transfer_waits hc hl]
      simp [issuedAs, Seq.issuedAs, framesIssuedAs_below]
    | false =>
      cases hb : s.bus with
      | idle => rw [transfer_granted hb hc hl, transfer_granted hb hc hl, transferred_issuedAs]
      | busHeld =>
        rw [transfer_busState hc hl hb, transfer_busState hc hl hb]
        simp [issuedAs, Seq.issuedAs, emit, emits, enter]

/-- The word of an operation without IMM and B is its OP value (R79, R81, R82). -/
theorem encode_word_plain {i : Instr} {code : BitVec 5} (himm : i.imm = 0#8) (hb : i.b = 0#1) (hop : i.op.code = code) :
    (encode i).word = code.setWidth 16 := by
  rw [encode, himm, hb, hop]
  exact (by decide : ∀ c : BitVec 5, cmdWord 0#8 0#1 c = c.setWidth 16) code

/-- Settles O56: a wrapper is `transfer` of the list of its rule, under its own name. -/
theorem wrappersDelegateToTransfer : Obligations.WrappersDelegateToTransfer := by
  intro s cap addr flags len len' buf buf'
  refine ⟨⟨?_, ?_, ?_, ?_⟩, transfer_issuedAs _ _ _ _ s, transfer_issuedAs _ _ _ _ s, transfer_issuedAs _ _ _ _ s,
    transfer_issuedAs _ _ _ _ s⟩ <;> exact encode_word_plain rfl rfl rfl

end Sys2Proof.Machine
end

section
/-! SUPPORT. The descriptor checks in their order (R38, R183). -/

namespace Sys2Proof.Machine

section
variable {p : Params} {m : Msg}

theorem badFlags_eq_false (h : ∀ k, m.flags.testBit k = true → p.allFlags.testBit k = true) : badFlags p m = false := by
  rw [← Bool.not_eq_true, badFlags_iff]
  rintro ⟨k, hm, hp⟩
  simp [h k hm] at hp

/-- BAD_ADDR7, spelled out (R38). -/
theorem badAddr7_iff : badAddr7 p m = true ↔ is10bit p m = false ∧ 0x7F < m.addr := by
  simp [badAddr7]

theorem badAddr7_eq_false (h : is10bit p m = true ∨ m.addr ≤ 0x7F) : badAddr7 p m = false := by
  rcases h with h | h <;> simp [badAddr7, h]

theorem badBuf_eq_false (h : m.len = 0 ∨ ∃ b, m.buf = some b ∧ m.len ≤ b.size) : badBuf m = false := by
  rcases h with h | ⟨b, hb, hle⟩
  · simp [badBuf, h]
  · simp [badBuf, hb, hle]

theorem checkMsg_badFlags (hf : badFlags p m = true) : checkMsg p m = some .badFlags := by
  simp [checkMsg, hf]

theorem checkMsg_badAddr7 (hf : badFlags p m = false) (ha : badAddr7 p m = true) : checkMsg p m = some .badAddr7 := by
  simp [checkMsg, hf, ha]

theorem checkMsg_badBuf (hf : badFlags p m = false) (ha : badAddr7 p m = false) (hb : badBuf m = true) :
    checkMsg p m = some .badBuf := by
  simp [checkMsg, hf, ha, hb]

theorem checkMsg_passes (hf : badFlags p m = false) (ha : badAddr7 p m = false) (hb : badBuf m = false) :
    checkMsg p m = none := by
  simp [checkMsg, hf, ha, hb]

/-- The check of a list goes past the descriptors that pass (R38). -/
theorem checkMsgs_append {pre : List Msg} (h : ∀ x ∈ pre, checkMsg p x = none) (rest : List Msg) :
    checkMsgs p (pre ++ rest) = checkMsgs p rest := by
  induction pre with
  | nil => rfl
  | cons x pre ih =>
    obtain ⟨hx, hpre⟩ := List.forall_mem_cons.1 h
    simp [checkMsgs, hx, ih hpre]

end

section
variable {s : State} {m : Msg}

/-- The operations that take one descriptor test BUS first (R183). -/
theorem exec_descriptor_busState (hb : s.bus = .idle) :
    exec (.addrPhase m) s = refuse .busState s ∧ exec (.sendBytes m) s = refuse .busState s ∧
      exec (.recvBytes m) s = refuse .busState s := by
  simp [exec, execAddrPhase, execSendBytes, execRecvBytes, hb]

/-- Then they check the descriptor (R183). -/
theorem exec_descriptor_illFormed (hb : s.bus = .busHeld) {r : Reason} (hc : checkMsg s.par m = some r) :
    exec (.addrPhase m) s = refuse r s ∧ exec (.sendBytes m) s = refuse r s ∧ exec (.recvBytes m) s = refuse r s := by
  simp [exec, execAddrPhase, execSendBytes, execRecvBytes, hb, hc]

/-- And last the direction (R183). -/
theorem exec_sendBytes_dirMismatch (hb : s.bus = .busHeld) (hc : checkMsg s.par m = none)
    (hr : isRead s.par m = true) : exec (.sendBytes m) s = refuse .dirMismatch s := by
  simp [exec, execSendBytes, hb, hc, hr]

theorem exec_recvBytes_dirMismatch (hb : s.bus = .busHeld) (hc : checkMsg s.par m = none)
    (hr : isRead s.par m = false) : exec (.recvBytes m) s = refuse .dirMismatch s := by
  simp [exec, execRecvBytes, hb, hc, hr]

end

/-- Settles O36: each operation tests BUS, the descriptor and the direction in that order, the check of a descriptor its three
tests in theirs, and the check of a list goes past the descriptors that pass. -/
theorem refusalOrder : Obligations.RefusalOrder := by
  intro s m refused namedOnly addrOk
  refine ⟨exec_descriptor_busState, fun hb r hc => exec_descriptor_illFormed hb hc, exec_sendBytes_dirMismatch,
    exec_recvBytes_dirMismatch, fun hk => checkMsg_badFlags ((badFlags_iff _ _).2 hk),
    fun hf h7 ha => checkMsg_badAddr7 (badFlags_eq_false hf) (badAddr7_iff.2 ⟨h7, ha⟩),
    fun hf ha hn hb => checkMsg_badBuf (badFlags_eq_false hf) (badAddr7_eq_false ha) ((badBuf_iff m).2 ⟨hn, hb⟩),
    fun hf ha hb => checkMsg_passes (badFlags_eq_false hf) (badAddr7_eq_false ha) (badBuf_eq_false hb),
    fun ms hms => ?listPasses, fun pre post r hpre hm => ?firstToFail⟩
  case listPasses =>
    have h := checkMsgs_append hms []
    rwa [List.append_nil] at h
  case firstToFail =>
    rw [checkMsgs_append hpre]
    simp [checkMsgs, hm]

end Sys2Proof.Machine
end

section
/-! SUPPORT. A TRANSFER that an error callback calls (R185). -/

namespace Sys2Proof.Machine

theorem From.refl (s : State) : From s 0 s := ⟨fun n => by rw [Nat.zero_add], rfl, rfl⟩

/-- The history of XFER depends on the setting, the answers and the buffers alone. -/
theorem xferAlone_trace_congr {s u : State} (h : From s 0 u) (hm : u.mem = s.mem) (ms : List Msg) :
    (xferAlone ms u).trace = (xferAlone ms s).trace := by
  obtain ⟨hu, -⟩ := xferOp_run (s := s) (u := { u with trace := [] }) ⟨h.ans, h.us, h.par⟩ ms
  obtain ⟨hs, -⟩ := xferOp_run (s := s) (u := { s with trace := [] }) ⟨(From.refl s).ans, rfl, rfl⟩ ms
  rw [xferAlone, xferAlone, hu, hs, hm]

/-- `s` at a callback whose only call left has been taken: the frame `f` above `fs` with no call to make (R185). -/
def lastCallTaken (f : Frame) (fs : List Frame) (s : State) : State := { s with frames := { f with calls := [] } :: fs }

theorem lastCallTaken_from (f : Frame) (fs : List Frame) (s : State) : From s 0 (lastCallTaken f fs s) :=
  ⟨(From.refl s).ans, rfl, rfl⟩

section
variable {s : State} {ms : List Msg} {op : Op} {cap : CapHandle}

theorem transferred_setting : SameSetting s (transferred ms s op cap) :=
  have h := xferAlone_exited ms s
  ⟨h.par, h.cap, h.us, h.refused, h.port, h.mutexOther, h.callsLeft⟩

/-- With no callback given, TRANSFER returns its count and leaves the frames as they were (R161). -/
theorem transferred_frames_silent (h : s.callbacks = []) : (transferred ms s op cap).frames = s.frames := by
  simp [transferred, calledBack_silent (.inl h)]

theorem transferred_results_silent (h : s.callbacks = []) :
    (transferred ms s op cap).results = s.results ++ [.count (xferAlone ms s).dp.result] := by
  simp [transferred, calledBack_silent (.inl h)]

/-- After a TRANSFER that was the last call of the callback that runs, the next step is the return from that callback. -/
theorem step_transferred {f : Frame} {fs : List Frame} (hr : s.refused = false) (hf : s.frames = f :: fs)
    (hcalls : f.calls = []) (hcb : s.callbacks = []) (hk : s.callsLeft = none) :
    step (transferred ms s op cap) =
      .next { callbackReturns f fs (transferred ms s op cap) with callsLeft := none } := by
  have setting : SameSetting s (transferred ms s op cap) := transferred_setting
  have frames : (transferred ms s op cap).frames = f :: fs := (transferred_frames_silent hcb).trans hf
  have unbounded : (transferred ms s op cap).callsLeft = none := setting.callsLeft.trans hk
  have idle : (transferred ms s op cap).bus = .idle := (xferAlone_exited ms s).bus
  rw [step_return (setting.refused.trans hr) rfl frames hcalls, runReturn_idle (by simp [unbounded]) idle, unbounded]
  rfl

/-- The last call of a callback, a TRANSFER that finds the bus idle and the lock free, is what the next step runs. -/
theorem step_lastCall {f : Frame} {fs : List Frame} {c : Command} (hr : s.refused = false) (hq : s.seq = .ready)
    (hf : s.frames = f :: fs) (hcalls : f.calls = [c]) (hd : decode s.par c = .ok (.transfer cap ms)) (hb : s.bus = .idle)
    (hc : checkMsgs s.par ms = none) (hl : lockBlocked s = false) (hk : s.callsLeft = none) :
    step s = .next (transferred ms (lastCallTaken f fs s) .transfer cap) := by
  have unbounded : runInstr (.transfer cap ms) (lastCallTaken f fs s) = exec (.transfer cap ms) (lastCallTaken f fs s) := by
    simp [runInstr, lastCallTaken, hk]
  calc step s = runInstr (.transfer cap ms) (lastCallTaken f fs s) := step_run hr (.called f fs c [] _ hq hf hcalls hd)
    _ = transfer (.transfer cap ms) cap ms (lastCallTaken f fs s) := unbounded
    _ = _ := transfer_granted hb hc hl

end

/-- Settles O54: the call is the next thing to run, and XFER does the same whatever the frames are; the callback has then made
its calls, so the next step is the outer return. -/
theorem callbackTransferRunsInside : Obligations.CallbackTransferRunsInside := by
  intro s f fs c cap ms hr hq hf hcalls hd hb hc hl hcb hk
  have inner := step_lastCall hr hq hf hcalls hd hb hc (lockBlocked_eq_false hl) hk
  have exited := xferAlone_exited ms (lastCallTaken f fs s)
  have outer := step_transferred (ms := ms) (op := .transfer) (cap := cap) (s := lastCallTaken f fs s) hr rfl rfl hcb hk
  have frames : (transferred ms (lastCallTaken f fs s) .transfer cap).frames = { f with calls := [] } :: fs :=
    transferred_frames_silent hcb
  have results : (transferred ms (lastCallTaken f fs s) .transfer cap).results = s.results ++ [.count _] :=
    transferred_results_silent hcb
  refine ⟨_, _, _, (xferAlone ms (lastCallTaken f fs s)).trace, inner, outer, frames, results, xferAlone_result_le ms _, rfl,
    ⟨_, exec_xfer_alone hb hc, ?sameHistory⟩, rfl, ?bothCounts, rfl, exited.port, exited.bus, rfl, rfl⟩
  case sameHistory => exact congrArg _ (xferAlone_trace_congr (lastCallTaken_from f fs s) rfl ms).symm
  case bothCounts => exact (congrArg (· ++ _) results).trans (List.append_assoc _ _ _)

end Sys2Proof.Machine
end

section
/-! SUPPORT. A step that runs no operation, and what a refusal leaves (R24, R160, R178). -/

namespace Sys2Proof.Machine

/-- Between operations the block runs the command it accepts (R24). -/
theorem step_accept {s u : State} {c : Command} (hr : s.refused = false) (hq : s.seq = .ready)
    (ha : accept s = some (c, u)) : step s = runCommand c u := by
  simp [step, hr, hq, runReady, ha]

/-- Settles O11: by the branches of `step`; a command is accepted from the callback that runs or from the port, and taking it
leaves the parameters, and so the decoder, alone. -/
theorem stepWithoutAnOperation : Obligations.StepWithoutAnOperation := by
  intro s
  refine ⟨fun hr => ?refused, fun hr op n hq => ?running, fun hr hq hf hp => ?idle, fun c u r hr hq hu hd => ?undecoded⟩
  case refused => simp [step, hr]
  case running => simp [step, hr, hq]
  case idle => simp [step, hr, hq, runReady, accept, hf, hp]
  case undecoded =>
    have taken : accept s = some (c, u) ∧ u.par = s.par := by
      rcases hu with ⟨rest, hf, hp, rfl⟩ | ⟨f, fs, rest, hf, hc, rfl⟩
      · simp [accept, hf, hp]
      · simp [accept, hf, hc]
    obtain ⟨ha, hpar⟩ := taken
    rw [step_accept hr hq ha]
    simp [runCommand, hpar, hd, refuse]

/-- TRANSFER and its wrappers are the operations that take the lock (R160, R162 to R165). -/
theorem op_of_apiList {p : Params} {i : Instr} (h : (apiList p i).isSome = true) :
    i.op = .transfer ∨ i.op = .send ∨ i.op = .recv ∨ i.op = .sendThenRecv ∨ i.op = .sendThenSend := by
  cases i <;> simp [apiList] at h <;> simp [Instr.op]

/-- With the lock taken, a TRANSFER is refused for the bus only (R160). -/
theorem transfer_refused_locked {i : Instr} {cap : CapHandle} {ms : List Msg} {s t : State} {why : Reason}
    (h : transfer i cap ms s = .refused (.refuse why t)) (ht : t.trace ≠ s.trace) : why = .busState := by
  cases hc : checkMsgs s.par ms with
  | some r =>
    rw [transfer_illFormed hc] at h
    cases h
    exact absurd rfl ht
  | none =>
    cases hl : lockBlocked s with
    | true => rw [transfer_waits hc hl] at h; cases h
    | false =>
      cases hb : s.bus with
      | idle => rw [transfer_runs hc hl hb] at h; cases h
      | busHeld =>
        rw [transfer_busState hc hl hb] at h
        cases h
        rfl

/-- Settles O18: `exec_refused` gives the two final states, and the one with the LOCK_ACQUIRE is that of BUS_STATE. -/
theorem refusalChangesNothing : Obligations.RefusalChangesNothing := by
  intro i s t why h
  rcases exec_refused h with ht | ⟨ha, rfl⟩
  · exact .inl ht
  · obtain ⟨⟨cap, ms⟩, list⟩ := Option.isSome_iff_exists.1 ha
    rw [exec_api list] at h
    exact .inr ⟨transfer_refused_locked h (by simp [emit]), op_of_apiList ha, rfl⟩

end Sys2Proof.Machine
end

section
/-! SUPPORT. What a step leaves of the setting, the port and the callbacks to come (R23, R76, R178, R190, R204). -/

namespace Sys2Proof.Machine

/-- An operation takes at most the next of the callbacks to come, and only TRANSFER takes one (R161, R185). -/
theorem Exec.callbacks {i : Instr} {s t : State} (h : Exec i s t) :
    t.callbacks = s.callbacks ∨ t.callbacks = s.callbacks.tail := by
  have held {op : Op} {u : State} {r : Result} (h : Held (enter op s) u) : (leave r u).callbacks = s.callbacks := h.callbacks
  have data {op : Op} {u : State} {r : Result} (h : DataKeeps (enter op s) u) : (leave r u).callbacks = s.callbacks :=
    h.callbacks
  cases h with
  | start _ => exact .inl rfl
  | restart _ => exact .inl rfl
  | stop _ => exact .inl rfl
  | waitAck hb => exact .inl (held (waitAckOp_held hb))
  | writeByte hb => exact .inl (held (writeByteOp_held _ hb))
  | readByte hb => exact .inl (held (readByteOp_held hb))
  | sendAck _ => exact .inl rfl
  | sendAddr hb => exact .inl (held (sendAddrOp_held _ _ hb))
  | addrPhase hb _ => exact .inl (held (addrPhaseOp_held _ hb))
  | sendBytes hb _ _ => exact .inl (data (sendBytesOp_keeps _ hb))
  | recvBytes hb _ _ => exact .inl (data (recvBytesOp_keeps _ hb))
  | xfer _ _ => exact .inl (xferOp_exited _ _).callbacks
  | @api _ cap ms _ _ _ hx =>
    obtain ⟨-, ⟨-, rfl⟩ | ⟨-, -, rfl⟩⟩ := transfer_next hx
    · exact .inl rfl
    · have kept : (xferOp ms (emit .lockAcquire (enter i.op s))).callbacks = s.callbacks := (xferOp_exited ms _).callbacks
      rw [transferOp_eq, kept]
      dsimp only
      split
      · exact .inl rfl
      · exact .inr rfl

/-- What is next is taken off the port or off the calls of the callback that runs, and nothing else is touched (R76, R185). -/
theorem NextUp.takes {i : Instr} {s u : State} (h : NextUp s i u) : ∃ port frames,
    u = { s with port := port, frames := frames } ∧ (port = s.port ∨ port = s.port.tail) := by
  cases h with
  | waiting _ _ => exact ⟨s.port, s.frames, rfl, .inl rfl⟩
  | delivered c rest _ _ _ hp _ => exact ⟨rest, s.frames, rfl, .inr (by rw [hp]; rfl)⟩
  | called f fs c rest _ _ _ _ _ => exact ⟨s.port, { f with calls := rest } :: fs, rfl, .inl rfl⟩

/-- Settles O16: of the three steps there are, only one that runs an operation takes anything, a command as it begins
(`NextUp.takes`) and a callback as it ends (`Exec.callbacks`). -/
theorem settingNeverChanges : Obligations.SettingNeverChanges := by
  intro s t h
  obtain ⟨-, ⟨-, -, -, rfl⟩ | ⟨f, fs, k, -, -, -, -, rfl⟩ | ⟨i, u, v, k, hn, hx, rfl⟩⟩ := step_next h
  case inl => exact ⟨rfl, rfl, rfl, rfl, rfl, .inl rfl, .inl rfl⟩
  case inr.inl => exact ⟨rfl, rfl, rfl, rfl, rfl, .inl rfl, .inl rfl⟩
  case inr.inr =>
    obtain ⟨port, frames, rfl, hport⟩ := hn.takes
    have hx := exec_next.1 hx
    have kept := hx.setting
    exact ⟨kept.par, kept.cap, kept.us, kept.refused, kept.mutexOther, hport.imp kept.port.trans kept.port.trans, hx.callbacks⟩

end Sys2Proof.Machine
end

section
/-! SUPPORT. The least durations of the primitives and of SEND_ADDR (R210): the sums of the delays of their events. -/

namespace Sys2Proof.Machine

/-- One block of events for each level, all of one duration. -/
theorem minDuration_flatMap {f : Level → List Event} {n : Nat} (h : ∀ v, minDuration (f v) = n) (vs : List Level) :
    minDuration (vs.flatMap f) = vs.length * n := by
  induction vs with
  | nil => simp [minDuration]
  | cons v vs ih => rw [List.flatMap_cons, minDuration_append, h, ih, List.length_cons, Nat.succ_mul, Nat.add_comm]

/-- Two half delays for each bit, and one before the acknowledge clock, which has none (R107, R108). -/
theorem minDuration_writeByteEvents (h : Nat) (b : Byte) (v : Level) : minDuration (writeByteEvents h b v) = 17 * h := by
  have bit (x : Level) : minDuration (bitOutEvents h x) = 2 * h := (Nat.two_mul h).symm
  have bits : minDuration ((msbFirst b).flatMap (bitOutEvents h)) = 8 * (2 * h) := minDuration_flatMap bit _
  have last : minDuration ([.sclSet false, .delay h] ++ waitAckEvents v) = h := rfl
  have sum : minDuration (writeByteEvents h b v) = 8 * (2 * h) + h := by
    simp only [writeByteEvents, minDuration, minDuration_append, bits, last]
  omega

/-- One full delay for each bit (R109). -/
theorem minDuration_readByteEvents (us : Nat) (vs : List Level) : minDuration (readByteEvents us vs) = vs.length * us :=
  minDuration_flatMap (f := bitInEvents us) (fun _ => rfl) vs

theorem minDuration_sendAckEvents (h : Nat) (ack : Bool) : minDuration (sendAckEvents h ack) = h := by
  cases ack <;> rfl

/-- STOP and the delay unit between the attempts take one full delay each, and START a half delay (R121). -/
theorem minDuration_retryEvents (us : Nat) : minDuration (retryEvents us) = us + (us + half us) := rfl

/-- SEND_ADDR takes as long as its one attempt, or as its two and what lies between them (R121, R122). -/
theorem minDuration_sendAddrEvents (s : State) (k : Nat) (b : Byte) (rlim : BitVec 1) :
    minDuration (sendAddrEvents s k b rlim) =
      if retried rlim (answerAt s k) then 35 * half s.us + 2 * s.us else 17 * half s.us := by
  unfold sendAddrEvents
  split
  · simp only [minDuration_append, minDuration_writeByteEvents, minDuration_retryEvents]
    omega
  · exact minDuration_writeByteEvents _ _ _

/-- Settles O27: the history of each primitive is the one R99 to R110 give it, and that of SEND_ADDR R121's, whose delays add
up. -/
theorem primitiveDurations : Obligations.PrimitiveDurations := by
  intro i s t byte ack rlim hx
  have hx := exec_next.1 hx
  obtain ⟨es, htr, -, -⟩ := hx.grown
  cases hx with
  | start _ =>
    exact ⟨startEvents (half s.us), rfl, fun _ => rfl, nofun, nofun, nofun, nofun, nofun, nofun, nofun, nofun⟩
  | restart _ =>
    exact ⟨restartEvents (half s.us), rfl, nofun, fun _ => rfl, nofun, nofun, nofun, nofun, nofun, nofun, nofun⟩
  | stop _ =>
    exact ⟨stopEvents s.us, rfl, nofun, nofun, fun _ => rfl, nofun, nofun, nofun, nofun, nofun, nofun⟩
  | waitAck _ =>
    exact ⟨waitAckEvents (answerAt s 0), by simp [waitAckOp_eq], nofun, nofun, nofun, fun _ => rfl, nofun, nofun, nofun,
      nofun, nofun⟩
  | @writeByte _ b _ =>
    exact ⟨writeByteEvents (half s.us) b (answerAt s 0), by simp [writeByteOp_eq], nofun, nofun, nofun, nofun,
      fun _ => minDuration_writeByteEvents _ _ _, nofun, nofun, nofun, nofun⟩
  | readByte _ =>
    exact ⟨readByteEvents s.us (answersFrom s 0 8), by simp [readByteOp_eq, answersFrom], nofun, nofun, nofun, nofun, nofun,
      fun _ => minDuration_readByteEvents _ _, nofun, nofun, nofun⟩
  | @sendAck _ a _ =>
    exact ⟨sendAckEvents (half s.us) a, by simp [sendAckOp_eq], nofun, nofun, nofun, nofun, nofun, nofun,
      fun _ => minDuration_sendAckEvents _ a, nofun, nofun⟩
  | @sendAddr _ b r _ =>
    refine ⟨sendAddrEvents s 0 b r, ?events, nofun, nofun, nofun, nofun, nofun, nofun, nofun, fun hi h => ?once,
      fun hi hr h => ?twice⟩
    case events =>
      rw [leave_trace, sendAddrOp_eq]
      rfl
    case once =>
      obtain ⟨rfl, rfl⟩ := Instr.sendAddr.inj hi
      simp [minDuration_sendAddrEvents, retried_eq_false h]
    case twice =>
      obtain ⟨rfl, rfl⟩ := Instr.sendAddr.inj hi
      simp [minDuration_sendAddrEvents, retried_eq_true hr h]
  | api ha _ =>
    refine ⟨es, htr, ?_, ?_, ?_, ?_, ?_, ?_, ?_, ?_, ?_⟩
    all_goals
      rintro rfl
      cases ha
  | _ => exact ⟨es, htr, nofun, nofun, nofun, nofun, nofun, nofun, nofun, nofun, nofun⟩

end Sys2Proof.Machine
end

section
/-! SUPPORT. Boot, creation and reset (R96, R200, R203). -/

namespace Sys2Proof.Machine

/-- Settles O7: the reset values are those every creation writes, and `reset` is the creation with the defaults. -/
theorem resetValues : Obligations.ResetValues :=
  ⟨fun _ _ _ => ⟨rfl, rfl, rfl, rfl, rfl, rfl, rfl, rfl, rfl, rfl, rfl, rfl⟩, Params.default, 0, 5, rfl⟩

/-- With a delay unit that fits, creation turns on the other boot duties (R203). -/
theorem createBlock_fits {p : Params} {us : Nat} {b : Boot} (cap : CapHandle) (hd : b.delayUnit = some us)
    (hfits : us + 2 ≤ 2 ^ p.usWidth) : createBlock p cap b =
      if b.capabilitySet && b.mutex && b.linesIdle && b.errorCallback then .next (State.created p cap us)
      else .refused (.notCreated .bootIncomplete) := by
  have hus : usInRange p us = true := decide_eq_true hfits
  simp [createBlock, hd, hus]

/-- Settles O8: no delay unit, one too large (`createBlock_badUs`), or one that fits (`createBlock_fits`), with every other
duty done or one left undone. -/
theorem creationNeedsBootAndDelayUnit : Obligations.CreationNeedsBootAndDelayUnit := by
  refine fun p cap b => ⟨fun us hd hfits hc hm hl he => ?created, fun us hd hlarge => createBlock_badUs cap hd hlarge,
    fun hd => ?unset, fun us hd hfits hundone => ?undone⟩
  case created => simp [createBlock_fits cap hd hfits, hc, hm, hl, he]
  case unset => simp [createBlock, hd]
  case undone =>
    rw [createBlock_fits cap hd hfits, if_neg]
    obtain h | h | h | h := hundone <;> simp [h]

/-- Every instance created within the limits of R7, R8 and R96 meets the invariant, not only that of `reset`. -/
theorem created_inv {par : Params} {us : Nat} (cap : CapHandle) (hp : par.wf = true) (hus : usInRange par us = true) :
    BlockInv (State.created par cap us) where
  params := hp
  us := hus
  lines := ⟨nofun, fun _ => rfl⟩
  eng := rfl
  locked := rfl
  seq := trivial
  frames := nofun
  refused := rfl
  mem := rfl
  counts := ⟨Nat.two_pow_pos _, Nat.two_pow_pos _, Nat.two_pow_pos _, Nat.two_pow_pos _⟩

/-- Settles O14: the default parameters and US = 5 are within the limits. -/
theorem resetMeetsInv : Obligations.ResetMeetsInv := created_inv 0 (by decide) (by decide)

end Sys2Proof.Machine
end
